-- ==== Sys2Proof/Word.lean ====
section
/-! DEFINITION. The word types of the CORE: 32-bit stream words, binary64 bit patterns, packets of words, signs. -/

namespace Sys2Proof

/-- One word of a command or response stream (30_encoding.md R70, 20_memory.md R55). -/
abbrev Word := BitVec 32

/-- The bit pattern of an IEEE 754 binary64 value (44_orbit_clock.md R240). -/
abbrev F64 := BitVec 64

/-- A command or response packet: a header word and the payload words after it.
A packet is a non-empty list of words (30_encoding.md R70, R78), so the header always exists. -/
structure Packet where
  header  : Word
  payload : List Word
  deriving DecidableEq, Repr

/-- A sign decision of the Symbol History (10_state.md R34): `minus` is the hardware bit 1. -/
inductive Sign where
  | plus
  | minus
  deriving DecidableEq, Repr

/-- The two command ports (20_memory.md R61). -/
inductive Port where
  | A
  | B
  deriving DecidableEq, Repr

end Sys2Proof
end

