-- ==== Sys2Proof/Config.lean ====
section
/-! DEFINITION. What one instance of the CORE fixes: the names of the parameter registers, the types of the OPEN parameters
that are plain data (00_scope.md R9, 43_msg_assembler.md R200, R201), and the free values, which are constants without a body.
The default values of the parameters and the decided constants stand in Machine/Params.lean. -/

namespace Sys2Proof

/-! ## Parameter registers, by name (10_state.md R39, R41, R42, R43) -/

/-- The f64 ephemeris parameters, group 0x02 without its two flags (R39). -/
inductive EphReg where
  | A_f0 | A_f1 | A_f2 | TGD | Toc | Toe | M_0 | delta_n | ecc | sqrtA | OMEGA_0 | omega
  | OMEGA_dot | i_0 | IDOT | Cuc | Cus | Cic | Cis | Crc | Crs | WN | URA | IODEC
  deriving DecidableEq, Repr

/-- The one-bit ephemeris parameters of group 0x02 (R39). -/
inductive EphFlag where
  | L5_flag | S_flag
  deriving DecidableEq, Repr

/-- The UTC Model registers, group 0x04 (R41). -/
inductive UtcReg where
  | A0 | A1 | t_OT | WN_T | DeltaT_LS | WN_LSF | DN | DeltaT_LSF
  deriving DecidableEq, Repr

/-- The Ionosphere Model registers, group 0x05 (R42). -/
inductive IonoReg where
  | alpha0 | alpha1 | alpha2 | alpha3 | beta0 | beta1 | beta2 | beta3
  deriving DecidableEq, Repr

/-- The earth-orientation registers, group 0x06 (R43). -/
inductive EopReg where
  | t_EOP | PM_X | PM_X_dot | PM_Y | PM_Y_dot | dUT1 | dUT1_dot
  deriving DecidableEq, Repr

/-- A parameter register: what a FIELD_TABLE entry may name and what `WRP` may write. -/
inductive ParamReg where
  | eph  (r : EphReg)
  | flag (r : EphFlag)
  | utc  (r : UtcReg)
  | iono (r : IonoReg)
  | eop  (r : EopReg)
  deriving DecidableEq, Repr

/-! ## The OPEN parameters that are plain data -/

/-- A slice of the frame: `length` bits from the 1-based bit `start` (42_bitfield.md R181). -/
structure Slice where
  start  : Nat
  length : Nat
  deriving DecidableEq, Repr

/-- One entry of a FIELD_TABLE group (43_msg_assembler.md R200); `scale` is not used for a one-bit flag. -/
structure Entry where
  reg    : ParamReg
  slices : List Slice
  signed : Bool
  scale  : F64
  deriving DecidableEq, Repr

/-- FIELD_TABLE (43_msg_assembler.md R200): three header fields and four groups. -/
structure FieldTable where
  sfid        : List Slice
  towc        : List Slice
  TOW_LSB_S   : Nat
  msgid       : List Slice
  SF1         : List Entry
  SF2         : List Entry
  MT_UTC      : List Entry
  MT_EOP_IONO : List Entry
  deriving DecidableEq, Repr

/-- SFID_MAP (43_msg_assembler.md R201): a total function from raw field values to 0..4, written as plain data:
the listed raw values, and the answer for every other one. -/
structure SfidMap where
  table : List (Nat × Fin 5)
  other : Fin 5
  deriving DecidableEq, Repr

/-- The OPEN parameters a model takes as an argument of the step relation (10_state.md R47), without NUM. -/
structure Params where
  SYMBOL_PERIOD_MS : BitVec 32
  ALARM_CODE       : Word
  FIELD_TABLE      : FieldTable
  SFID_MAP         : SfidMap
  deriving DecidableEq, Repr

/-! ## Free values: constants without a body -/

/-- The operations of binary64 numerics that can answer a NaN (44_orbit_clock.md R241, R242, R244). -/
inductive FpOp where
  | add | sub | mul | div | sqrt | fmod | sin | cos | atan2
  deriving DecidableEq, Repr

namespace Config

/-- The sine of the OPEN parameter NUM, before the limits of R242 are imposed (log entry 5). -/
opaque numSin : F64 → F64

/-- The cosine of the OPEN parameter NUM, before the limits of R242 are imposed (log entry 5). -/
opaque numCos : F64 → F64

/-- The two-argument arctangent of the OPEN parameter NUM, before the limits of R242 are imposed (log entry 5). -/
opaque numAtan2 : F64 → F64 → F64

/-- The sign bit of the NaN an operation answers for its operands (R244: not specified; log entry 6). -/
opaque nanSign : FpOp → F64 → F64 → Bool

/-- The 52 fraction bits of the NaN an operation answers for its operands (R244: not specified; log entry 6). -/
opaque nanPayload : FpOp → F64 → F64 → BitVec 52

/-- `i2f` of an integer of magnitude 2^53 or more, which the spec says it never converts (00_scope.md R11; log entry 7). -/
opaque wideInt : Int → F64

/-- The arbiter's election when both ports have a command pending: true elects port `B`
(20_memory.md R61: not specified; log entry 2). It is applied to a counter in State. -/
opaque electsB : Nat → Bool

end Config

end Sys2Proof
end

