-- ==== Sys2Proof/Syntax.lean ====
section
/-! DEFINITION. The commands of the CORE: the Symbol record, the opcodes with their formats' names, and one constructor of Instr
per row of the opcode table (30_encoding.md R72, R74, R75). Operands stand as the packet gives them; range checks are each
command's own. -/

namespace Sys2Proof

/-- The Symbol record (30_encoding.md R74), both the operand of SYM and the record emitted on OUT (R81). -/
structure Symbol where
  prompt_I      : BitVec 32
  sample_index  : BitVec 64
  carrier_phase : F64
  prn           : BitVec 32
  tow_ms        : BitVec 32
  flags         : BitVec 32
  deriving DecidableEq, Repr

/-- The rows of the opcode map (R75). -/
inductive Op where
  | nop | reset | setsat | sym
  | sbw | sbr | deint | polcor | vit | cdec
  | fbw | rdu | rds | rdc | rdb | sfdec
  | chkt | clkrel | clkdrift | satpos | utctime
  | rdst | wrp
  deriving DecidableEq, Repr

/-- The seven packet formats (R72). -/
inductive Format where
  | Z | A | AB | ZP2 | AP2 | ZP3 | ZP8
  deriving DecidableEq, Repr

/-- A command with its operands (R73, R74, R75). -/
inductive Instr where
  | nop
  | reset
  | setsat   (prn : BitVec 16)
  | sym      (symbol : Symbol)
  | sbw      (index : BitVec 16) (value : BitVec 8)
  | sbr      (index : BitVec 16)
  | deint
  | polcor
  | vit
  | cdec
  | fbw      (position : BitVec 16) (bit : BitVec 8)
  | rdu      (start : BitVec 16) (length : BitVec 8)
  | rds      (start : BitVec 16) (length : BitVec 8)
  | rdc      (start : BitVec 16) (length : BitVec 8)
  | rdb      (start : BitVec 16)
  | sfdec
  | chkt     (t : F64)
  | clkrel   (t : F64)
  | clkdrift (t : F64)
  | satpos   (t : F64)
  | utctime  (t : F64) (week : BitVec 32)
  | rdst     (index : BitVec 16)
  | wrp      (index : BitVec 16) (value : BitVec 64)
  deriving DecidableEq, Repr

end Sys2Proof
end

