-- ==== Sys2Proof/WellFormed.lean ====
section
/-! DEFINITION. Well-formedness: which operands a command accepts (60_exceptions.md R313), and which parameters are well formed
(43_msg_assembler.md R200, R201, R210, R211, R213, R214). An ill-formed command still has a meaning: it raises BAD_OPERAND. -/

namespace Sys2Proof

/-- A slice lies in the 292-bit frame and fits the accumulator (42_bitfield.md R181). -/
def Slice.valid (s : Slice) : Bool :=
  decide (1 ≤ s.start) && decide (1 ≤ s.length) && decide (s.length ≤ 64) && decide (s.start + s.length ≤ 293)

/-- The defined register indices, as ranges (20_memory.md R54). -/
def regIndexDefined (i : Nat) : Bool :=
  decide (i ≤ 0x000E)
  || (decide (0x0100 ≤ i) && decide (i ≤ 0x0106))
  || (decide (0x0200 ≤ i) && decide (i ≤ 0x0219))
  || (decide (0x0300 ≤ i) && decide (i ≤ 0x0307))
  || (decide (0x0400 ≤ i) && decide (i ≤ 0x0407))
  || (decide (0x0500 ≤ i) && decide (i ≤ 0x0507))
  || (decide (0x0600 ≤ i) && decide (i ≤ 0x0606))

/-- The indices WRP may write: the defined ones of groups 0x02, 0x04, 0x05, 0x06 (46_register_access.md R302). -/
def regIndexWritable (i : Nat) : Bool :=
  (decide (0x0200 ≤ i) && decide (i ≤ 0x0219))
  || (decide (0x0400 ≤ i) && decide (i ≤ 0x0407))
  || (decide (0x0500 ≤ i) && decide (i ≤ 0x0507))
  || (decide (0x0600 ≤ i) && decide (i ≤ 0x0606))

/-- The operand ranges of every command (60_exceptions.md R313): false exactly where the command raises BAD_OPERAND. -/
def Instr.wf : Instr → Bool
  | .nop | .reset | .setsat _ | .sym _ => true
  | .sbw index _ => decide (index.toNat ≤ 583)
  | .sbr index => decide (index.toNat ≤ 583)
  | .deint | .polcor | .vit | .cdec => true
  | .fbw position bit => decide (1 ≤ position.toNat) && decide (position.toNat ≤ 292) && decide (bit.toNat ≤ 1)
  | .rdu start length => (Slice.mk start.toNat length.toNat).valid
  | .rds start length => (Slice.mk start.toNat length.toNat).valid
  | .rdc start length => (Slice.mk start.toNat length.toNat).valid
  | .rdb start => decide (1 ≤ start.toNat) && decide (start.toNat ≤ 292)
  | .sfdec => true
  | .chkt _ | .clkrel _ | .clkdrift _ | .satpos _ | .utctime _ _ => true
  | .rdst index => regIndexDefined index.toNat
  | .wrp index _ => regIndexWritable index.toNat

/-! ## Well-formed parameters -/

/-- The total length of a slice list. -/
def totalLength (l : List Slice) : Nat := (l.map Slice.length).sum

/-- A field's slice list: non-empty, every slice valid, at most 64 bits in all (R200). -/
def fieldValid (l : List Slice) : Bool :=
  !l.isEmpty && l.all Slice.valid && decide (totalLength l ≤ 64)

/-- No register twice in one group (R200). -/
def noRegTwice : List Entry → Bool
  | [] => true
  | e :: es => es.all (fun f => decide (f.reg ≠ e.reg)) && noRegTwice es

/-- The register kinds each group may name (R200). -/
def ParamReg.isEphGroup : ParamReg → Bool
  | .eph _ | .flag _ => true
  | .utc _ | .iono _ | .eop _ => false

def ParamReg.isUtcGroup : ParamReg → Bool
  | .utc _ => true
  | .eph _ | .flag _ | .iono _ | .eop _ => false

def ParamReg.isIonoEopGroup : ParamReg → Bool
  | .iono _ | .eop _ => true
  | .eph _ | .flag _ | .utc _ => false

/-- One group: valid fields, no register twice, only registers of its index groups, and one entry for each that it must hold. -/
def groupValid (allowed : ParamReg → Bool) (required : List ParamReg) (g : List Entry) : Bool :=
  g.all (fun e => fieldValid e.slices && allowed e.reg) && noRegTwice g
  && required.all (fun r => g.any (fun e => decide (e.reg = r)))

/-- The registers a subframe 1 must fill (R210). -/
def requiredSF1 : List ParamReg :=
  [.eph .A_f0, .eph .A_f1, .eph .A_f2, .eph .TGD, .eph .WN, .eph .URA, .eph .delta_n, .flag .L5_flag, .flag .S_flag,
   .eph .Cuc, .eph .Cus, .eph .Cic, .eph .Cis, .eph .Crc, .eph .Crs, .eph .IDOT, .eph .IODEC]

/-- The registers a subframe 2 must fill (R211). -/
def requiredSF2 : List ParamReg :=
  [.eph .M_0, .eph .Toe, .eph .ecc, .eph .sqrtA, .eph .OMEGA_0, .eph .omega, .eph .OMEGA_dot, .eph .i_0]

/-- The registers a message type 9 or 26 must fill (R213). -/
def requiredUtc : List ParamReg :=
  [.utc .A0, .utc .A1, .utc .t_OT, .utc .WN_T, .utc .DeltaT_LS, .utc .WN_LSF, .utc .DN, .utc .DeltaT_LSF]

/-- The registers a message type 11 must fill (R214). -/
def requiredEopIono : List ParamReg :=
  [.iono .alpha0, .iono .alpha1, .iono .alpha2, .iono .alpha3, .iono .beta0, .iono .beta1, .iono .beta2, .iono .beta3,
   .eop .t_EOP, .eop .PM_X, .eop .PM_X_dot, .eop .PM_Y, .eop .PM_Y_dot, .eop .dUT1, .eop .dUT1_dot]

/-- A well-formed FIELD_TABLE (R200, R210, R211, R213, R214). -/
def FieldTable.wf (f : FieldTable) : Bool :=
  fieldValid f.sfid && fieldValid f.towc && fieldValid f.msgid
  && groupValid ParamReg.isEphGroup requiredSF1 f.SF1
  && groupValid ParamReg.isEphGroup requiredSF2 f.SF2
  && groupValid ParamReg.isUtcGroup requiredUtc f.MT_UTC
  && groupValid ParamReg.isIonoEopGroup requiredEopIono f.MT_EOP_IONO

/-- Well-formed parameters: the field table is; SFID_MAP answers 0..4 by its type (R201). -/
def Params.wf (p : Params) : Bool := p.FIELD_TABLE.wf

end Sys2Proof
end

