-- ==== Sys2Proof/Decode.lean ====
section
/-! DEFINITION. The encoding: opcode map, header fields, the total decoder with its errors, and the encoder
(30_encoding.md R70 to R77). The decoder makes the first three checks of R76; the fourth, the operand range, is each command's
own (60_exceptions.md R313) and stands first in its meaning. -/

namespace Sys2Proof

/-- The four command errors (60_exceptions.md R310). -/
inductive CmdError where
  | illegalOpcode
  | badLength
  | reservedNonzero
  | badOperand
  deriving DecidableEq, Repr

/-- The status code of an error (30_encoding.md R79). -/
def CmdError.code : CmdError → BitVec 8
  | .illegalOpcode => 1
  | .badLength => 2
  | .reservedNonzero => 3
  | .badOperand => 4

/-- What decoding a packet gives. -/
inductive DecodeResult where
  | ok    (i : Instr)
  | error (e : CmdError)
  deriving DecidableEq, Repr

/-! ## The opcode map (R75) -/

/-- Header bits 31:24 of each command (R75). -/
def Op.code : Op → BitVec 8
  | .nop => 0x00
  | .reset => 0x01
  | .setsat => 0x02
  | .sym => 0x03
  | .sbw => 0x10
  | .sbr => 0x11
  | .deint => 0x12
  | .polcor => 0x13
  | .vit => 0x14
  | .cdec => 0x15
  | .fbw => 0x20
  | .rdu => 0x21
  | .rds => 0x22
  | .rdc => 0x23
  | .rdb => 0x24
  | .sfdec => 0x28
  | .chkt => 0x30
  | .clkrel => 0x31
  | .clkdrift => 0x32
  | .satpos => 0x33
  | .utctime => 0x38
  | .rdst => 0x40
  | .wrp => 0x41

/-- The format of each command (R72, R75). -/
def Op.format : Op → Format
  | .nop | .reset | .deint | .polcor | .vit | .cdec | .sfdec => .Z
  | .setsat | .sbr | .rdb | .rdst => .A
  | .sbw | .fbw | .rdu | .rds | .rdc => .AB
  | .chkt | .clkrel | .clkdrift | .satpos => .ZP2
  | .wrp => .AP2
  | .utctime => .ZP3
  | .sym => .ZP8

/-- Every row of the opcode map, in the table's order. -/
def Op.all : List Op :=
  [.nop, .reset, .setsat, .sym, .sbw, .sbr, .deint, .polcor, .vit, .cdec, .fbw, .rdu, .rds, .rdc, .rdb, .sfdec,
   .chkt, .clkrel, .clkdrift, .satpos, .utctime, .rdst, .wrp]

/-- The command an opcode byte selects; none for the illegal values (R77). -/
def Op.ofCode (c : BitVec 8) : Option Op := Op.all.find? (fun o => o.code == c)

/-- The number of payload words of a format (R72). -/
def Format.payloadWords : Format → Nat
  | .Z | .A | .AB => 0
  | .ZP2 | .AP2 => 2
  | .ZP3 => 3
  | .ZP8 => 8

/-- Whether a format uses the header field `A` (R72). -/
def Format.usesA : Format → Bool
  | .A | .AB | .AP2 => true
  | .Z | .ZP2 | .ZP3 | .ZP8 => false

/-- Whether a format uses the header field `B` (R72). -/
def Format.usesB : Format → Bool
  | .AB => true
  | .Z | .A | .ZP2 | .AP2 | .ZP3 | .ZP8 => false

/-! ## Header fields and payload operands (R71, R73, R74) -/

/-- Header bits 31:24. -/
def opcodeField (h : Word) : BitVec 8 := h.extractLsb' 24 8

/-- Header bits 23:8. -/
def fieldA (h : Word) : BitVec 16 := h.extractLsb' 8 16

/-- Header bits 7:0. -/
def fieldB (h : Word) : BitVec 8 := h.extractLsb' 0 8

/-- Payload word `k`, counted from 1 as R74 counts; 0 for a word that is not there. -/
def payloadWord (ws : List Word) (k : Nat) : Word := ws.getD (k - 1) 0

/-- The 64-bit value of payload words `k` and `k + 1`, the more significant first (20_memory.md R55). -/
def payload64 (ws : List Word) (k : Nat) : BitVec 64 := payloadWord ws k ++ payloadWord ws (k + 1)

/-- The two words of a 64-bit value, the more significant first (20_memory.md R55). -/
def words64 (v : BitVec 64) : List Word := [v.extractLsb' 32 32, v.extractLsb' 0 32]

/-- The Symbol of a `ZP8` payload (R74). -/
def symbolOfPayload (ws : List Word) : Symbol where
  prompt_I      := payloadWord ws 1
  sample_index  := payload64 ws 2
  carrier_phase := payload64 ws 4
  prn           := payloadWord ws 6
  tow_ms        := payloadWord ws 7
  flags         := payloadWord ws 8

/-- The eight words of a Symbol (R74, R81). -/
def Symbol.words (r : Symbol) : List Word :=
  [r.prompt_I] ++ words64 r.sample_index ++ words64 r.carrier_phase ++ [r.prn, r.tow_ms, r.flags]

/-! ## Decoding (R76) -/

/-- The command of an opcode with its operands, once the packet's form is right. -/
def instrOf (o : Op) (a : BitVec 16) (b : BitVec 8) (ws : List Word) : Instr :=
  match o with
  | .nop => .nop
  | .reset => .reset
  | .setsat => .setsat a
  | .sym => .sym (symbolOfPayload ws)
  | .sbw => .sbw a b
  | .sbr => .sbr a
  | .deint => .deint
  | .polcor => .polcor
  | .vit => .vit
  | .cdec => .cdec
  | .fbw => .fbw a b
  | .rdu => .rdu a b
  | .rds => .rds a b
  | .rdc => .rdc a b
  | .rdb => .rdb a
  | .sfdec => .sfdec
  | .chkt => .chkt (payload64 ws 1)
  | .clkrel => .clkrel (payload64 ws 1)
  | .clkdrift => .clkdrift (payload64 ws 1)
  | .satpos => .satpos (payload64 ws 1)
  | .utctime => .utctime (payload64 ws 1) (payloadWord ws 3)
  | .rdst => .rdst a
  | .wrp => .wrp a (payload64 ws 1)

/-- Decoding a packet: opcode, then length, then reserved fields; the first check that fails decides the error (R76). -/
def decode (p : Packet) : DecodeResult :=
  match Op.ofCode (opcodeField p.header) with
  | none => .error .illegalOpcode
  | some o =>
    if p.payload.length ≠ o.format.payloadWords then .error .badLength
    else if o.format.usesA = false ∧ fieldA p.header ≠ 0 then .error .reservedNonzero
    else if o.format.usesB = false ∧ fieldB p.header ≠ 0 then .error .reservedNonzero
    else .ok (instrOf o (fieldA p.header) (fieldB p.header) p.payload)

/-! ## Encoding (R71 to R75) -/

/-- The opcode map row of a command. -/
def Instr.op : Instr → Op
  | .nop => .nop
  | .reset => .reset
  | .setsat _ => .setsat
  | .sym _ => .sym
  | .sbw _ _ => .sbw
  | .sbr _ => .sbr
  | .deint => .deint
  | .polcor => .polcor
  | .vit => .vit
  | .cdec => .cdec
  | .fbw _ _ => .fbw
  | .rdu _ _ => .rdu
  | .rds _ _ => .rds
  | .rdc _ _ => .rdc
  | .rdb _ => .rdb
  | .sfdec => .sfdec
  | .chkt _ => .chkt
  | .clkrel _ => .clkrel
  | .clkdrift _ => .clkdrift
  | .satpos _ => .satpos
  | .utctime _ _ => .utctime
  | .rdst _ => .rdst
  | .wrp _ _ => .wrp

/-- The header field `A` of a command, 0 where its format does not use it. -/
def Instr.encA : Instr → BitVec 16
  | .setsat prn => prn
  | .sbw index _ => index
  | .sbr index => index
  | .fbw position _ => position
  | .rdu start _ => start
  | .rds start _ => start
  | .rdc start _ => start
  | .rdb start => start
  | .rdst index => index
  | .wrp index _ => index
  | .nop | .reset | .sym _ | .deint | .polcor | .vit | .cdec | .sfdec
  | .chkt _ | .clkrel _ | .clkdrift _ | .satpos _ | .utctime _ _ => 0

/-- The header field `B` of a command, 0 where its format does not use it. -/
def Instr.encB : Instr → BitVec 8
  | .sbw _ value => value
  | .fbw _ bit => bit
  | .rdu _ length => length
  | .rds _ length => length
  | .rdc _ length => length
  | .nop | .reset | .setsat _ | .sym _ | .sbr _ | .deint | .polcor | .vit | .cdec | .rdb _ | .sfdec
  | .chkt _ | .clkrel _ | .clkdrift _ | .satpos _ | .utctime _ _ | .rdst _ | .wrp _ _ => 0

/-- The payload words of a command (R74). -/
def Instr.encPayload : Instr → List Word
  | .sym r => r.words
  | .chkt t => words64 t
  | .clkrel t => words64 t
  | .clkdrift t => words64 t
  | .satpos t => words64 t
  | .utctime t week => words64 t ++ [week]
  | .wrp _ value => words64 value
  | .nop | .reset | .setsat _ | .sbw _ _ | .sbr _ | .deint | .polcor | .vit | .cdec | .fbw _ _
  | .rdu _ _ | .rds _ _ | .rdc _ _ | .rdb _ | .sfdec | .rdst _ => []

/-- A header word of its three fields (R71). -/
def headerOf (c : BitVec 8) (a : BitVec 16) (b : BitVec 8) : Word := c ++ a ++ b

/-- The packet of a command. -/
def encode (i : Instr) : Packet where
  header  := headerOf i.op.code i.encA i.encB
  payload := i.encPayload

/-! ## The host's numbering of an instruction's bits -/

/-- Word `k` of an instruction whose bits are `w`: bits 32k+31 .. 32k. -/
def tableWord (w k : Nat) : Word := BitVec.ofNat 32 (w >>> (32 * k))

/-- The packet of an instruction given as `nbits` bits `w`, bit 0 the least significant bit of the header word:
as many words as the opcode asks for, and no fewer than `nbits` fills; bits above `nbits` are 0 (log entry 18). -/
def tablePacket (nbits w : Nat) : Packet :=
  let bits := w % 2 ^ nbits
  let asked := match Op.ofCode (opcodeField (tableWord bits 0)) with
    | none => 0
    | some o => o.format.payloadWords
  let n := max asked ((nbits + 31) / 32 - 1)
  { header := tableWord bits 0, payload := (List.range n).map (fun k => tableWord bits (k + 1)) }

/-- The command the decoder reads from an instruction numbered as the opcode table numbers it; none where it refuses. -/
def decodeTableWord (nbits w : Nat) : Option Instr :=
  match decode (tablePacket nbits w) with
  | .ok i => some i
  | .error _ => none

end Sys2Proof
end

