-- ==== Sys2Proof/Machine/Float.lean ====
section
/-! DEFINITION. Binary64 numerics (00_scope.md R11; 44_orbit_clock.md R240 to R244): each operation computes the exact value and
rounds it once to nearest, ties to even; NaN results and the transcendental functions are free within their limits. -/

namespace Sys2Proof.Machine

/-! ## Fields and classes of a bit pattern -/

/-- The sign bit. -/
def fsign (x : F64) : Bool := x.getLsbD 63

/-- The biased exponent, bits 62:52. -/
def fexp (x : F64) : Nat := (x.extractLsb' 52 11).toNat

/-- The fraction, bits 51:0. -/
def ffrac (x : F64) : Nat := (x.extractLsb' 0 52).toNat

def isNaN (x : F64) : Bool := fexp x == 2047 && ffrac x != 0

def isInf (x : F64) : Bool := fexp x == 2047 && ffrac x == 0

def isFinite (x : F64) : Bool := fexp x != 2047

/-- Zero of either sign. -/
def isZero (x : F64) : Bool := fexp x == 0 && ffrac x == 0

/-- The significand of a finite value: `|x| = fsig x * 2 ^ fpow x`. -/
def fsig (x : F64) : Nat := if fexp x = 0 then ffrac x else 2 ^ 52 + ffrac x

/-- The power of two a finite value's significand is scaled by; subnormals share the least one. -/
def fpow (x : F64) : Int := if fexp x = 0 then -1074 else (fexp x : Int) - 1075

/-- The significand with its sign. -/
def fsigned (x : F64) : Int := if fsign x then -(fsig x : Int) else (fsig x : Int)

/-! ## Building a bit pattern -/

/-- A pattern of a sign and the 63 bits below it. -/
def fpack (neg : Bool) (magnitude : Nat) : F64 := BitVec.ofNat 64 ((if neg then 2 ^ 63 else 0) + magnitude)

def fzero (neg : Bool) : F64 := fpack neg 0

def finf (neg : Bool) : F64 := fpack neg 0x7FF0000000000000

/-- Sign reversal. -/
def fneg (x : F64) : F64 := x ^^^ 0x8000000000000000

/-- `fabs(x)` clears the sign (R11). -/
def fabs (x : F64) : F64 := x &&& 0x7FFFFFFFFFFFFFFF

/-- The NaN an operation answers: some NaN, which one is not specified (R244, 93_implementation_defined.md U4).
DESIGN CHOICE (safe, log entry 6): a free function of the operation and its operands, never the pattern of an infinity. -/
def nanOf (op : FpOp) (x y : F64) : F64 :=
  let payload := (Config.nanPayload op x y).toNat
  fpack (Config.nanSign op x y) (0x7FF0000000000000 + (if payload = 0 then 1 else payload))

/-! ## Rounding -/

/-- `m / 2 ^ k` rounded to the nearest natural number, ties to even. -/
def shiftRound (m k : Nat) : Nat :=
  let q := m / 2 ^ k
  let r := m % 2 ^ k
  if 2 ^ k < 2 * r ∨ (2 * r = 2 ^ k ∧ q % 2 = 1) then q + 1 else q

/-- The exact value `± m * 2 ^ e` rounded once to binary64, to nearest, ties to even (R241); subnormals are kept and a value
that rounds beyond the largest finite number is an infinity. A significand rounded up to `2 ^ 53` carries into the exponent. -/
def roundPack (neg : Bool) (m : Nat) (e : Int) : F64 :=
  if m = 0 then fzero neg
  else
    let q : Int := max (e + (Nat.log2 m : Int) - 52) (-1074)
    let sig := if q ≤ e then m * 2 ^ (e - q).toNat else shiftRound m (q - e).toNat
    let magnitude := (q + 1074).toNat * 2 ^ 52 + sig
    if 0x7FF0000000000000 ≤ magnitude then finf neg else fpack neg magnitude

/-! ## Arithmetic (R241) -/

/-- The sum of two values neither of which is a NaN; `nan` is the answer to opposite infinities. -/
def addNonNaN (nan x y : F64) : F64 :=
  if isInf x then (if isInf y ∧ fsign x ≠ fsign y then nan else x)
  else if isInf y then y
  else
    let e := min (fpow x) (fpow y)
    let n := fsigned x * 2 ^ (fpow x - e).toNat + fsigned y * 2 ^ (fpow y - e).toNat
    if n = 0 then fzero (fsign x && fsign y) else roundPack (decide (n < 0)) n.natAbs e

/-- Addition. An exact zero sum of unlike signs is +0 (IEEE 754, round to nearest). -/
def fadd (x y : F64) : F64 :=
  if isNaN x || isNaN y then nanOf .add x y else addNonNaN (nanOf .add x y) x y

/-- Subtraction: the sum with the second operand's sign reversed. -/
def fsub (x y : F64) : F64 :=
  if isNaN x || isNaN y then nanOf .sub x y else addNonNaN (nanOf .sub x y) x (fneg y)

/-- Multiplication. -/
def fmul (x y : F64) : F64 :=
  let neg := fsign x != fsign y
  if isNaN x || isNaN y then nanOf .mul x y
  else if isInf x || isInf y then (if isZero x || isZero y then nanOf .mul x y else finf neg)
  else roundPack neg (fsig x * fsig y) (fpow x + fpow y)

/-- Division. The quotient is computed to at least 67 significant bits and a sticky bit, so one rounding follows. -/
def fdiv (x y : F64) : F64 :=
  let neg := fsign x != fsign y
  if isNaN x || isNaN y then nanOf .div x y
  else if isInf x then (if isInf y then nanOf .div x y else finf neg)
  else if isInf y then fzero neg
  else if isZero y then (if isZero x then nanOf .div x y else finf neg)
  else
    let n := fsig x * 2 ^ 120
    let d := fsig y
    roundPack neg (2 * (n / d) + (if n % d = 0 then 0 else 1)) (fpow x - fpow y - 121)

/-- The integer square root of `n` below `2 ^ (2 * bits)`, one bit of the root a round from the top. -/
def isqrt (n : Nat) : Nat → Nat → Nat
  | 0, root => root
  | bits + 1, root =>
    let next := root + 2 ^ bits
    isqrt n bits (if next * next ≤ n then next else root)

/-- Square root: -0 of -0, NaN of any other negative value. The root is computed to at least 55 bits and a sticky bit. -/
def fsqrt (x : F64) : F64 :=
  if isNaN x then nanOf .sqrt x x
  else if isZero x then x
  else if fsign x then nanOf .sqrt x x
  else if isInf x then x
  else
    let k : Nat := if (fpow x) % 2 = 0 then 110 else 111
    let n := fsig x * 2 ^ k
    let root := isqrt n 82 0
    roundPack false (2 * root + (if root * root = n then 0 else 1)) ((fpow x - (k : Int)) / 2 - 1)

/-- `fmod(x, y)`: the exact remainder of `x / y` truncated toward zero, with the sign of `x` (R11).
DEDUCED at the special operands (log entry 14; 45_utc.md R289 b): NaN for an infinite `x` or a zero `y`; `x` for a finite `x`
and infinite `y`. -/
def fmod (x y : F64) : F64 :=
  if isNaN x || isNaN y then nanOf .fmod x y
  else if isInf x || isZero y then nanOf .fmod x y
  else if isInf y then x
  else
    let e := min (fpow x) (fpow y)
    roundPack (fsign x) ((fsig x * 2 ^ (fpow x - e).toNat) % (fsig y * 2 ^ (fpow y - e).toNat)) e

/-- `floor(x)`: the largest integer not above `x`, exact (R11). No command uses it. -/
def ffloor (x : F64) : F64 :=
  if 0 ≤ fpow x || !isFinite x then x
  else if isZero x then x
  else
    let n := fsigned x / 2 ^ (-fpow x).toNat
    if n = 0 then fzero false else roundPack (decide (n < 0)) n.natAbs 0

/-- `i2f(n)`: an integer as binary64, exact below 2^53 in magnitude, which is all the spec converts (R11);
above it a free value. DESIGN CHOICE (safe, log entry 7). -/
def i2f (n : Int) : F64 :=
  if n.natAbs < 2 ^ 53 then roundPack (decide (n < 0)) n.natAbs 0 else Config.wideInt n

/-! ## Comparisons: false when an operand is a NaN (R241) -/

/-- A key that orders the non-NaN patterns as their values, both zeros alike. -/
def forder (x : F64) : Int :=
  let magnitude : Int := ((x.extractLsb' 0 63).toNat : Int)
  if fsign x then -magnitude else magnitude

def flt (x y : F64) : Bool := !isNaN x && !isNaN y && decide (forder x < forder y)

def fle (x y : F64) : Bool := !isNaN x && !isNaN y && decide (forder x ≤ forder y)

def feq (x y : F64) : Bool := !isNaN x && !isNaN y && decide (forder x = forder y)

def fgt (x y : F64) : Bool := flt y x

/-! ## The OPEN functions of NUM, held to the limits of R242 -/

/-- A value of magnitude at most that of the pattern `bound`, for any raw answer: the answer itself where it keeps the bound,
else +0. -/
def boundedBy (bound raw : F64) : F64 := if fle (fabs raw) bound then raw else 0

/-- `NUM.sin` (R242; log entry 5). -/
def fsin (x : F64) : F64 :=
  if isNaN x || isInf x then nanOf .sin x x
  else if x = 0 then 0
  else boundedBy 0x3FF0000000000000 (Config.numSin x)

/-- `NUM.cos` (R242; log entry 5). -/
def fcos (x : F64) : F64 :=
  if isNaN x || isInf x then nanOf .cos x x
  else if isZero x then 0x3FF0000000000000
  else boundedBy 0x3FF0000000000000 (Config.numCos x)

/-- `NUM.atan2` (R242; log entry 5): the bound is the f64 literal 3.1415926535897936. -/
def fatan2 (y x : F64) : F64 :=
  if isNaN y || isNaN x then nanOf .atan2 y x
  else if y = 0 ∧ flt 0 x then 0
  else boundedBy 0x400921FB54442D19 (Config.numAtan2 y x)

end Sys2Proof.Machine
end

