-- ==== Sys2Proof/Machine/Params.lean ====
section
/-! DEFINITION. The constants the spec decides (00_scope.md R8, R9; 44_orbit_clock.md R243) and the defaults of the OPEN
parameters (43_msg_assembler.md R201, R230 to R234; 92_eei_decisions.md D21, D23). -/

namespace Sys2Proof.Machine

/-! ## Constants (R8, R9) -/

/-- PREAMBLE `1110101110010000`, leftmost character first (R8). -/
def PREAMBLE : List Bool :=
  [true, true, true, false, true, false, true, true, true, false, false, true, false, false, false, false]

def SUBFRAME_SYMBOLS : Nat := 600
def FRAME_SYMBOLS : Nat := 584
def FRAME_BITS : Nat := 292
def INTLV_ROWS : Nat := 8
def INTLV_COLS : Nat := 73
def HIST_CAP : Nat := 601
def PREAMBLE_LEN : Nat := 16
def CORR_THRESHOLD : Nat := 16
def FAIL_LIMIT : Nat := 2
def MAX_SYMBOLS_NO_FRAME : Nat := 12000
def REQUIRED_SYMBOLS : Nat := 600
def KEPLER_MAX_ITER : Nat := 20
def SOFT_MAX : Int := 127

/-- The generators, decimal 121 and 91 (R8, 90_conflicts.md C1). -/
def G1 : Nat := 121
def G2 : Nat := 91

/-! ## f64 constants, each the literal rounded to nearest (R243) -/

/-- 3.986005e14 m^3/s^2. -/
def GM : F64 := 0x42F6A866935B5000
/-- 7.2921151467e-5 rad/s. -/
def OMEGA_E_DOT : F64 := 0x3F131DA7D7CB8D5B
/-- -4.442807633e-10 s/sqrt(m). -/
def F_REL : F64 := 0xBDFE87DEAE177A99
/-- 3.1415926535898. -/
def PI : F64 := 0x400921FB54442D28
/-- 302400.0 s. -/
def HALF_WEEK : F64 := 0x4112750000000000
/-- 604800.0 s. -/
def WEEK : F64 := 0x4122750000000000
/-- 1e-12 rad. -/
def KEPLER_EPS : F64 := 0x3D719799812DEA11
/-- 21600.0 s, six hours. -/
def SIX_HOURS : F64 := 0x40D5180000000000
/-- 86400.0 s, one day. -/
def DAY : F64 := 0x40F5180000000000
/-- 43200.0 s, half a day. -/
def HALF_DAY : F64 := 0x40E5180000000000
def fone : F64 := 0x3FF0000000000000
def ftwo : F64 := 0x4000000000000000

/-! ## Scales of the default field table -/

/-- The f64 value `2 ^ k`, for the exponents of the table. -/
def pow2 (k : Int) : F64 := BitVec.ofNat 64 ((k + 1023).toNat * 2 ^ 52)

/-- The scale written `2 ^ k * PI`: `fmul(2 ^ k, PI)`, exact (R204). -/
def pow2Pi (k : Int) : F64 := fmul (pow2 k) PI

/-- A table row of one slice. -/
def row (reg : ParamReg) (start length : Nat) (signed : Bool) (scale : F64) : Entry where
  reg    := reg
  slices := [⟨start, length⟩]
  signed := signed
  scale  := scale

/-! ## The default FIELD_TABLE (R230 to R234) -/

/-- Group SF1 (R231). -/
def defaultSF1 : List Entry :=
  [row (.eph .WN) 31 10 false fone,
   row (.eph .A_f0) 41 22 true (pow2 (-31)),
   row (.eph .A_f1) 63 16 true (pow2 (-43)),
   row (.eph .A_f2) 79 8 true (pow2 (-55)),
   row (.eph .URA) 87 4 false fone,
   row (.eph .Toc) 91 16 false (pow2 4),
   row (.eph .TGD) 107 8 true (pow2 (-31)),
   row (.eph .delta_n) 115 22 true (pow2Pi (-41)),
   row (.eph .IODEC) 137 8 false fone,
   row (.flag .L5_flag) 155 1 false fone,
   row (.flag .S_flag) 156 1 false fone,
   row (.eph .Cuc) 157 15 true (pow2 (-28)),
   row (.eph .Cus) 172 15 true (pow2 (-28)),
   row (.eph .Cic) 187 15 true (pow2 (-28)),
   row (.eph .Cis) 202 15 true (pow2 (-28)),
   row (.eph .Crc) 217 15 true (pow2 (-4)),
   row (.eph .Crs) 232 15 true (pow2 (-4)),
   row (.eph .IDOT) 247 14 true (pow2Pi (-43))]

/-- Group SF2 (R232). -/
def defaultSF2 : List Entry :=
  [row (.eph .M_0) 31 32 true (pow2Pi (-31)),
   row (.eph .Toe) 63 16 false (pow2 4),
   row (.eph .ecc) 79 32 false (pow2 (-33)),
   row (.eph .sqrtA) 111 32 false (pow2 (-19)),
   row (.eph .OMEGA_0) 143 32 true (pow2Pi (-31)),
   row (.eph .omega) 175 32 true (pow2Pi (-31)),
   row (.eph .OMEGA_dot) 207 22 true (pow2Pi (-41)),
   row (.eph .i_0) 229 32 true (pow2Pi (-31))]

/-- Group MT_UTC, message types 9 and 26 (R233). -/
def defaultMtUtc : List Entry :=
  [row (.utc .A0) 37 16 true (pow2 (-35)),
   row (.utc .A1) 53 13 true (pow2 (-51)),
   row (.utc .DeltaT_LS) 73 8 true fone,
   row (.utc .t_OT) 81 16 false (pow2 4),
   row (.utc .WN_T) 97 10 false fone,
   row (.utc .WN_LSF) 107 10 false fone,
   row (.utc .DN) 117 4 false fone,
   row (.utc .DeltaT_LSF) 121 8 true fone]

/-- Group MT_EOP_IONO, message type 11 (R234). -/
def defaultMtEopIono : List Entry :=
  [row (.eop .t_EOP) 37 16 false (pow2 4),
   row (.eop .PM_X) 53 21 true (pow2 (-20)),
   row (.eop .PM_X_dot) 74 15 true (pow2 (-21)),
   row (.eop .PM_Y) 89 21 true (pow2 (-20)),
   row (.eop .PM_Y_dot) 110 15 true (pow2 (-21)),
   row (.eop .dUT1) 125 31 true (pow2 (-24)),
   row (.eop .dUT1_dot) 156 19 true (pow2 (-25)),
   row (.iono .alpha0) 175 8 true (pow2 (-30)),
   row (.iono .alpha1) 183 8 true (pow2 (-27)),
   row (.iono .alpha2) 191 8 true (pow2 (-24)),
   row (.iono .alpha3) 199 8 true (pow2 (-24)),
   row (.iono .beta0) 207 8 true (pow2 11),
   row (.iono .beta1) 215 8 true (pow2 14),
   row (.iono .beta2) 223 8 true (pow2 16),
   row (.iono .beta3) 231 8 true (pow2 16)]

/-- The default FIELD_TABLE: header of R230 and the four groups. -/
def defaultFieldTable : FieldTable where
  sfid        := [⟨28, 2⟩]
  towc        := [⟨9, 17⟩]
  TOW_LSB_S   := 12
  msgid       := [⟨31, 6⟩]
  SF1         := defaultSF1
  SF2         := defaultSF2
  MT_UTC      := defaultMtUtc
  MT_EOP_IONO := defaultMtEopIono

/-- The default SFID_MAP `raw + 1` on a two-bit field (R201); a raw value above 3, which that field cannot hold, maps to 0
(DESIGN CHOICE, log entry 15). -/
def defaultSfidMap : SfidMap where
  table := [(0, 1), (1, 2), (2, 3), (3, 4)]
  other := 0

/-- The parameters of an instance for which nothing was chosen (92_eei_decisions.md, before the table). -/
def defaultParams : Params where
  SYMBOL_PERIOD_MS := 1
  ALARM_CODE       := 1
  FIELD_TABLE      := defaultFieldTable
  SFID_MAP         := defaultSfidMap

end Sys2Proof.Machine
end

