-- ==== Sys2Proof/Machine/State.lean ====
section
/-! DEFINITION. The architectural state (10_state.md), the streams and channels (20_memory.md R50, R61, R63; 30_encoding.md R78,
R81, R82), the model's own fields, and the power-on state (10_state.md R45; 70_reset_and_hazards.md R340). -/

namespace Sys2Proof.Machine

/-- The values of `stat` (R22): the value 3 is unreachable, so the type has three. -/
inductive SyncStat where
  | noPreamble
  | possibleLock
  | locked
  deriving DecidableEq, Repr

/-- The Frame Synchronizer registers, `band1`'s Decoder State (R22 to R32). -/
structure SyncRegs where
  stat                : SyncStat
  sample_counter      : BitVec 64
  last_valid_preamble : BitVec 64
  preamble_index      : BitVec 64
  fail_count          : BitVec 8
  polarity_lock       : Bool
  tow_known           : Bool
  tow_current_ms      : BitVec 32
  tow_preamble_ms     : BitVec 32
  alarm_sent          : Bool
  frame_sync          : Bool
  flag_preamble       : Bool
  deriving DecidableEq, Repr

/-- The Message Assembler registers and the two one-shot flags (R38, R41, R42). -/
structure AsmRegs where
  tow_report : BitVec 32
  sf1_tow    : BitVec 32
  sf2_tow    : BitVec 32
  paged_tow  : BitVec 32
  last_sfid  : BitVec 3
  iono_valid : Bool
  utc_valid  : Bool
  deriving DecidableEq, Repr

/-- The ephemeris parameters, group 0x02 (R39). -/
structure Eph where
  A_f0      : F64
  A_f1      : F64
  A_f2      : F64
  TGD       : F64
  Toc       : F64
  Toe       : F64
  M_0       : F64
  delta_n   : F64
  ecc       : F64
  sqrtA     : F64
  OMEGA_0   : F64
  omega     : F64
  OMEGA_dot : F64
  i_0       : F64
  IDOT      : F64
  Cuc       : F64
  Cus       : F64
  Cic       : F64
  Cis       : F64
  Crc       : F64
  Crs       : F64
  WN        : F64
  URA       : F64
  IODEC     : F64
  L5_flag   : Bool
  S_flag    : Bool
  deriving DecidableEq, Repr

/-- The derived outputs, group 0x03 (R40). -/
structure Derived where
  satpos_X      : F64
  satpos_Y      : F64
  satpos_Z      : F64
  satvel_X      : F64
  satvel_Y      : F64
  satvel_Z      : F64
  sat_clk_drift : F64
  sat_dtr       : F64
  deriving DecidableEq, Repr

/-- The UTC Model registers, group 0x04 (R41). -/
structure Utc where
  A0         : F64
  A1         : F64
  t_OT       : F64
  WN_T       : F64
  DeltaT_LS  : F64
  WN_LSF     : F64
  DN         : F64
  DeltaT_LSF : F64
  deriving DecidableEq, Repr

/-- The Ionosphere Model registers, group 0x05 (R42). -/
structure Iono where
  alpha0 : F64
  alpha1 : F64
  alpha2 : F64
  alpha3 : F64
  beta0  : F64
  beta1  : F64
  beta2  : F64
  beta3  : F64
  deriving DecidableEq, Repr

/-- The earth-orientation registers, group 0x06 (R43). -/
structure Eop where
  t_EOP    : F64
  PM_X     : F64
  PM_X_dot : F64
  PM_Y     : F64
  PM_Y_dot : F64
  dUT1     : F64
  dUT1_dot : F64
  deriving DecidableEq, Repr

/-- A publication on TLM (30_encoding.md R82): a snapshot of registers at the moment it is emitted. -/
inductive TlmMsg where
  | ephemeris (sat_prn : BitVec 32) (eph : Eph) (derived : Derived)
  | iono      (model : Iono)
  | utcModel  (model : Utc)
  deriving DecidableEq, Repr

/-- The state of one CORE. Lists of messages and packets hold the oldest first.
`active`, `electionCount` and `params` are the model's own fields (log entries 2, 3, 4). -/
structure State where
  sync          : SyncRegs
  sat_prn       : BitVec 32
  hist          : List Sign
  symbuf        : List Int
  frame         : List Bool
  acc           : BitVec 64
  asm           : AsmRegs
  eph           : Eph
  derived       : Derived
  utc           : Utc
  iono          : Iono
  eop           : Eop
  portA         : List Packet
  portB         : List Packet
  respA         : List Packet
  respB         : List Packet
  out           : List Symbol
  tlm           : List TlmMsg
  trk           : List Word
  active        : Port
  electionCount : Nat
  params        : Params
  deriving DecidableEq, Repr

/-- Why the machine stops with a fault: never. Every command is defined in every state and none makes the CORE stuck
(70_reset_and_hazards.md R343; 93_implementation_defined.md after U33), so the type has no constructor. -/
inductive Fault
  deriving DecidableEq, Repr

/-- Why an instruction is refused. -/
inductive Refusal where
  /-- Raised by an arm of `exec` for an instruction without a meaning, by its mnemonic. Safe. No arm raises it. -/
  | notModelled (mnemonic : String)
  deriving DecidableEq, Repr

/-! ## Reset values (R44, R45) -/

def SyncRegs.reset : SyncRegs where
  stat                := .noPreamble
  sample_counter      := 0
  last_valid_preamble := 0
  preamble_index      := 0
  fail_count          := 0
  polarity_lock       := false
  tow_known           := false
  tow_current_ms      := 0
  tow_preamble_ms     := 0
  alarm_sent          := false
  frame_sync          := false
  flag_preamble       := false

def AsmRegs.reset : AsmRegs where
  tow_report := 0
  sf1_tow    := 0
  sf2_tow    := 0
  paged_tow  := 0
  last_sfid  := 0
  iono_valid := false
  utc_valid  := false

def Eph.reset : Eph where
  A_f0      := 0
  A_f1      := 0
  A_f2      := 0
  TGD       := 0
  Toc       := 0
  Toe       := 0
  M_0       := 0
  delta_n   := 0
  ecc       := 0
  sqrtA     := 0
  OMEGA_0   := 0
  omega     := 0
  OMEGA_dot := 0
  i_0       := 0
  IDOT      := 0
  Cuc       := 0
  Cus       := 0
  Cic       := 0
  Cis       := 0
  Crc       := 0
  Crs       := 0
  WN        := 0
  URA       := 0
  IODEC     := 0
  L5_flag   := false
  S_flag    := false

def Derived.reset : Derived where
  satpos_X      := 0
  satpos_Y      := 0
  satpos_Z      := 0
  satvel_X      := 0
  satvel_Y      := 0
  satvel_Z      := 0
  sat_clk_drift := 0
  sat_dtr       := 0

def Utc.reset : Utc where
  A0         := 0
  A1         := 0
  t_OT       := 0
  WN_T       := 0
  DeltaT_LS  := 0
  WN_LSF     := 0
  DN         := 0
  DeltaT_LSF := 0

def Iono.reset : Iono where
  alpha0 := 0
  alpha1 := 0
  alpha2 := 0
  alpha3 := 0
  beta0  := 0
  beta1  := 0
  beta2  := 0
  beta3  := 0

def Eop.reset : Eop where
  t_EOP    := 0
  PM_X     := 0
  PM_X_dot := 0
  PM_Y     := 0
  PM_Y_dot := 0
  dUT1     := 0
  dUT1_dot := 0

/-- The power-on state (R45, R340): every register at its reset value, no command pending, no response owed, channels empty.
The model's own fields: port A active, no election made (DESIGN CHOICE, log entries 2, 3), the default parameters (log entry 4). -/
def State.reset : State where
  sync          := .reset
  sat_prn       := 0
  hist          := []
  symbuf        := List.replicate 584 0
  frame         := List.replicate 292 false
  acc           := 0
  asm           := .reset
  eph           := .reset
  derived       := .reset
  utc           := .reset
  iono          := .reset
  eop           := .reset
  portA         := []
  portB         := []
  respA         := []
  respB         := []
  out           := []
  tlm           := []
  trk           := []
  active        := .A
  electionCount := 0
  params        := defaultParams

end Sys2Proof.Machine
end

