-- ==== Sys2Proof/Machine/Operands.lean ====
section
/-! DEFINITION. Operand forms: soft symbols (30_encoding.md R73; 41_conv_decoder.md R142), frame slices (42_bitfield.md R181,
R183), register indices (10_state.md R44) and the parameter registers they reach. -/

namespace Sys2Proof.Machine

/-! ## Soft symbols -/

/-- The value SBW stores for operand `B`: its two's-complement value, -128 taken as -127 (R73, R142). -/
def softOfOperand (b : BitVec 8) : Int := if b.toInt = -128 then -127 else b.toInt

/-! ## Slices and fields of a frame -/

/-- Frame bit `p`, numbered 1..292 (20_memory.md R53). Only an ill-formed FIELD_TABLE reads another position; R53 and R200 leave
open what that gives: position 0 reads as `FRAME[1]` and one above 292 as 0. DESIGN CHOICE (log entry 16). -/
def frameBit (frame : List Bool) (p : Nat) : Bool := frame.getD (p - 1) false

/-- The unsigned number of a bit list, the first bit the most significant. -/
def bitsToNat (bits : List Bool) : Nat := bits.foldl (fun n b => 2 * n + b.toNat) 0

/-- The bits `FRAME[start] .. FRAME[start + length - 1]`. -/
def sliceBits (frame : List Bool) (s : Slice) : List Bool :=
  (List.range s.length).map (fun j => frameBit frame (s.start + j))

/-- `slice(start, length)`: the unsigned integer whose most significant bit is `FRAME[start]` (R181). -/
def sliceValue (frame : List Bool) (s : Slice) : Nat := bitsToNat (sliceBits frame s)

/-- A slice as a two's-complement number of `length` bits: its leading bit is the sign (R185). -/
def sliceSigned (frame : List Bool) (s : Slice) : Int :=
  if frameBit frame s.start then (sliceValue frame s : Int) - 2 ^ s.length else (sliceValue frame s : Int)

/-- `read_unsigned`: the slices concatenated, the first the most significant (R183). R183 defines it for one slice or more of at
most 64 bits in all (R191); for an ill-formed FIELD_TABLE it is the whole number of the concatenation, 0 for an empty list. DESIGN
CHOICE (log entry 16). -/
def readUnsigned (frame : List Bool) (l : List Slice) : Nat :=
  l.foldl (fun n s => n * 2 ^ s.length + sliceValue frame s) 0

/-- `read_signed`: the same bits in two's complement, the first slice's leading bit the sign (R183). Above 64 bits in all it is the
whole number too, and 0 for an empty list, neither of which R183 or R191 defines. DESIGN CHOICE (log entry 16). -/
def readSigned (frame : List Bool) (l : List Slice) : Int :=
  match l with
  | [] => 0
  | s :: _ =>
    if frameBit frame s.start then (readUnsigned frame l : Int) - 2 ^ totalLength l else (readUnsigned frame l : Int)

/-- The raw value of a field read with the entry's signedness (43_msg_assembler.md R202, R203). -/
def readField (frame : List Bool) (signed : Bool) (l : List Slice) : Int :=
  if signed then readSigned frame l else (readUnsigned frame l : Int)

/-- The raw subframe identifier field mapped to 0..4 (R201). -/
def mapSfid (m : SfidMap) (raw : Nat) : Fin 5 := (m.table.lookup raw).getD m.other

/-! ## Register names and indices (10_state.md R44) -/

/-- The registers of group 0x00 (R22 to R33, R34, R37). -/
inductive CoreReg where
  | stat | sample_counter | last_valid_preamble | preamble_index | fail_count | polarity_lock | tow_known
  | tow_current_ms | tow_preamble_ms | alarm_sent | frame_sync | flag_preamble | sat_prn | hist_len | ACC
  deriving DecidableEq, Repr

/-- The registers of group 0x01 (R38, R41, R42). -/
inductive AsmReg where
  | tow_report | sf1_tow | sf2_tow | paged_tow | last_sfid | iono_valid | utc_valid
  deriving DecidableEq, Repr

/-- The registers of group 0x03 (R40). -/
inductive DerivedReg where
  | satpos_X | satpos_Y | satpos_Z | satvel_X | satvel_Y | satvel_Z | sat_clk_drift | sat_dtr
  deriving DecidableEq, Repr

/-- Every register that has an index (R44). -/
inductive RegName where
  | core    (r : CoreReg)
  | asm     (r : AsmReg)
  | derived (r : DerivedReg)
  | param   (r : ParamReg)
  deriving DecidableEq, Repr

/-- Group 0x00 of the index map. -/
def coreIndexMap : List (Nat × CoreReg) :=
  [(0x0000, .stat), (0x0001, .sample_counter), (0x0002, .last_valid_preamble), (0x0003, .preamble_index),
   (0x0004, .fail_count), (0x0005, .polarity_lock), (0x0006, .tow_known), (0x0007, .tow_current_ms),
   (0x0008, .tow_preamble_ms), (0x0009, .alarm_sent), (0x000A, .frame_sync), (0x000B, .flag_preamble),
   (0x000C, .sat_prn), (0x000D, .hist_len), (0x000E, .ACC)]

/-- Group 0x01 of the index map. -/
def asmIndexMap : List (Nat × AsmReg) :=
  [(0x0100, .tow_report), (0x0101, .sf1_tow), (0x0102, .sf2_tow), (0x0103, .paged_tow), (0x0104, .last_sfid),
   (0x0105, .iono_valid), (0x0106, .utc_valid)]

/-- Group 0x03 of the index map. -/
def derivedIndexMap : List (Nat × DerivedReg) :=
  [(0x0300, .satpos_X), (0x0301, .satpos_Y), (0x0302, .satpos_Z), (0x0303, .satvel_X), (0x0304, .satvel_Y),
   (0x0305, .satvel_Z), (0x0306, .sat_clk_drift), (0x0307, .sat_dtr)]

/-- Group 0x02 of the index map. -/
def ephIndexMap : List (Nat × ParamReg) :=
  [(0x0200, .eph .A_f0), (0x0201, .eph .A_f1), (0x0202, .eph .A_f2), (0x0203, .eph .TGD), (0x0204, .eph .Toc),
   (0x0205, .eph .Toe), (0x0206, .eph .M_0), (0x0207, .eph .delta_n), (0x0208, .eph .ecc), (0x0209, .eph .sqrtA),
   (0x020A, .eph .OMEGA_0), (0x020B, .eph .omega), (0x020C, .eph .OMEGA_dot), (0x020D, .eph .i_0), (0x020E, .eph .IDOT),
   (0x020F, .eph .Cuc), (0x0210, .eph .Cus), (0x0211, .eph .Cic), (0x0212, .eph .Cis), (0x0213, .eph .Crc),
   (0x0214, .eph .Crs), (0x0215, .eph .WN), (0x0216, .eph .URA), (0x0217, .eph .IODEC),
   (0x0218, .flag .L5_flag), (0x0219, .flag .S_flag)]

/-- Group 0x04 of the index map. -/
def utcIndexMap : List (Nat × ParamReg) :=
  [(0x0400, .utc .A0), (0x0401, .utc .A1), (0x0402, .utc .t_OT), (0x0403, .utc .WN_T), (0x0404, .utc .DeltaT_LS),
   (0x0405, .utc .WN_LSF), (0x0406, .utc .DN), (0x0407, .utc .DeltaT_LSF)]

/-- Group 0x05 of the index map. -/
def ionoIndexMap : List (Nat × ParamReg) :=
  [(0x0500, .iono .alpha0), (0x0501, .iono .alpha1), (0x0502, .iono .alpha2), (0x0503, .iono .alpha3),
   (0x0504, .iono .beta0), (0x0505, .iono .beta1), (0x0506, .iono .beta2), (0x0507, .iono .beta3)]

/-- Group 0x06 of the index map. -/
def eopIndexMap : List (Nat × ParamReg) :=
  [(0x0600, .eop .t_EOP), (0x0601, .eop .PM_X), (0x0602, .eop .PM_X_dot), (0x0603, .eop .PM_Y),
   (0x0604, .eop .PM_Y_dot), (0x0605, .eop .dUT1), (0x0606, .eop .dUT1_dot)]

/-- The parameter registers' part of the index map: what WRP may write (46_register_access.md R302). -/
def paramIndexMap : List (Nat × ParamReg) := ephIndexMap ++ utcIndexMap ++ ionoIndexMap ++ eopIndexMap

/-- The parameter register of an index, if it is one. -/
def paramOfIndex (index : BitVec 16) : Option ParamReg := paramIndexMap.lookup index.toNat

/-- The register of an index, if the index is defined (R44). -/
def regOfIndex (index : BitVec 16) : Option RegName :=
  match coreIndexMap.lookup index.toNat with
  | some r => some (.core r)
  | none =>
    match asmIndexMap.lookup index.toNat with
    | some r => some (.asm r)
    | none =>
      match derivedIndexMap.lookup index.toNat with
      | some r => some (.derived r)
      | none =>
        match paramIndexMap.lookup index.toNat with
        | some r => some (.param r)
        | none => none

/-! ## Reading and writing a parameter register -/

def readEph (e : Eph) : EphReg → F64
  | .A_f0 => e.A_f0
  | .A_f1 => e.A_f1
  | .A_f2 => e.A_f2
  | .TGD => e.TGD
  | .Toc => e.Toc
  | .Toe => e.Toe
  | .M_0 => e.M_0
  | .delta_n => e.delta_n
  | .ecc => e.ecc
  | .sqrtA => e.sqrtA
  | .OMEGA_0 => e.OMEGA_0
  | .omega => e.omega
  | .OMEGA_dot => e.OMEGA_dot
  | .i_0 => e.i_0
  | .IDOT => e.IDOT
  | .Cuc => e.Cuc
  | .Cus => e.Cus
  | .Cic => e.Cic
  | .Cis => e.Cis
  | .Crc => e.Crc
  | .Crs => e.Crs
  | .WN => e.WN
  | .URA => e.URA
  | .IODEC => e.IODEC

def writeEph (e : Eph) (v : F64) : EphReg → Eph
  | .A_f0 => { e with A_f0 := v }
  | .A_f1 => { e with A_f1 := v }
  | .A_f2 => { e with A_f2 := v }
  | .TGD => { e with TGD := v }
  | .Toc => { e with Toc := v }
  | .Toe => { e with Toe := v }
  | .M_0 => { e with M_0 := v }
  | .delta_n => { e with delta_n := v }
  | .ecc => { e with ecc := v }
  | .sqrtA => { e with sqrtA := v }
  | .OMEGA_0 => { e with OMEGA_0 := v }
  | .omega => { e with omega := v }
  | .OMEGA_dot => { e with OMEGA_dot := v }
  | .i_0 => { e with i_0 := v }
  | .IDOT => { e with IDOT := v }
  | .Cuc => { e with Cuc := v }
  | .Cus => { e with Cus := v }
  | .Cic => { e with Cic := v }
  | .Cis => { e with Cis := v }
  | .Crc => { e with Crc := v }
  | .Crs => { e with Crs := v }
  | .WN => { e with WN := v }
  | .URA => { e with URA := v }
  | .IODEC => { e with IODEC := v }

def readEphFlag (e : Eph) : EphFlag → Bool
  | .L5_flag => e.L5_flag
  | .S_flag => e.S_flag

def writeEphFlag (e : Eph) (v : Bool) : EphFlag → Eph
  | .L5_flag => { e with L5_flag := v }
  | .S_flag => { e with S_flag := v }

def readUtc (u : Utc) : UtcReg → F64
  | .A0 => u.A0
  | .A1 => u.A1
  | .t_OT => u.t_OT
  | .WN_T => u.WN_T
  | .DeltaT_LS => u.DeltaT_LS
  | .WN_LSF => u.WN_LSF
  | .DN => u.DN
  | .DeltaT_LSF => u.DeltaT_LSF

def writeUtc (u : Utc) (v : F64) : UtcReg → Utc
  | .A0 => { u with A0 := v }
  | .A1 => { u with A1 := v }
  | .t_OT => { u with t_OT := v }
  | .WN_T => { u with WN_T := v }
  | .DeltaT_LS => { u with DeltaT_LS := v }
  | .WN_LSF => { u with WN_LSF := v }
  | .DN => { u with DN := v }
  | .DeltaT_LSF => { u with DeltaT_LSF := v }

def readIono (i : Iono) : IonoReg → F64
  | .alpha0 => i.alpha0
  | .alpha1 => i.alpha1
  | .alpha2 => i.alpha2
  | .alpha3 => i.alpha3
  | .beta0 => i.beta0
  | .beta1 => i.beta1
  | .beta2 => i.beta2
  | .beta3 => i.beta3

def writeIono (i : Iono) (v : F64) : IonoReg → Iono
  | .alpha0 => { i with alpha0 := v }
  | .alpha1 => { i with alpha1 := v }
  | .alpha2 => { i with alpha2 := v }
  | .alpha3 => { i with alpha3 := v }
  | .beta0 => { i with beta0 := v }
  | .beta1 => { i with beta1 := v }
  | .beta2 => { i with beta2 := v }
  | .beta3 => { i with beta3 := v }

def readEop (p : Eop) : EopReg → F64
  | .t_EOP => p.t_EOP
  | .PM_X => p.PM_X
  | .PM_X_dot => p.PM_X_dot
  | .PM_Y => p.PM_Y
  | .PM_Y_dot => p.PM_Y_dot
  | .dUT1 => p.dUT1
  | .dUT1_dot => p.dUT1_dot

def writeEop (p : Eop) (v : F64) : EopReg → Eop
  | .t_EOP => { p with t_EOP := v }
  | .PM_X => { p with PM_X := v }
  | .PM_X_dot => { p with PM_X_dot := v }
  | .PM_Y => { p with PM_Y := v }
  | .PM_Y_dot => { p with PM_Y_dot := v }
  | .dUT1 => { p with dUT1 := v }
  | .dUT1_dot => { p with dUT1_dot := v }

def readDerived (d : Derived) : DerivedReg → F64
  | .satpos_X => d.satpos_X
  | .satpos_Y => d.satpos_Y
  | .satpos_Z => d.satpos_Z
  | .satvel_X => d.satvel_X
  | .satvel_Y => d.satvel_Y
  | .satvel_Z => d.satvel_Z
  | .sat_clk_drift => d.sat_clk_drift
  | .sat_dtr => d.sat_dtr

/-- A one-bit flag zero-extended to 64 bits (46_register_access.md R301). -/
def flagView (b : Bool) : BitVec 64 := if b then 1 else 0

/-- The 64-bit view of a parameter register (R301). -/
def readParam (s : State) : ParamReg → BitVec 64
  | .eph r => readEph s.eph r
  | .flag r => flagView (readEphFlag s.eph r)
  | .utc r => readUtc s.utc r
  | .iono r => readIono s.iono r
  | .eop r => readEop s.eop r

/-- A parameter register written with a 64-bit value: a flag takes bit 0 only, every other register the pattern (R302). -/
def writeParam (s : State) (r : ParamReg) (v : BitVec 64) : State :=
  match r with
  | .eph r => { s with eph := writeEph s.eph v r }
  | .flag r => { s with eph := writeEphFlag s.eph (v.getLsbD 0) r }
  | .utc r => { s with utc := writeUtc s.utc v r }
  | .iono r => { s with iono := writeIono s.iono v r }
  | .eop r => { s with eop := writeEop s.eop v r }

/-- The number of a `stat` value (R22). -/
def statCode : SyncStat → Nat
  | .noPreamble => 0
  | .possibleLock => 1
  | .locked => 2

/-- The 64-bit view of a register of group 0x00 (R301); `hist_len` is the length of the history (R34). -/
def readCore (s : State) : CoreReg → BitVec 64
  | .stat => BitVec.ofNat 64 (statCode s.sync.stat)
  | .sample_counter => s.sync.sample_counter
  | .last_valid_preamble => s.sync.last_valid_preamble
  | .preamble_index => s.sync.preamble_index
  | .fail_count => s.sync.fail_count.setWidth 64
  | .polarity_lock => flagView s.sync.polarity_lock
  | .tow_known => flagView s.sync.tow_known
  | .tow_current_ms => s.sync.tow_current_ms.setWidth 64
  | .tow_preamble_ms => s.sync.tow_preamble_ms.setWidth 64
  | .alarm_sent => flagView s.sync.alarm_sent
  | .frame_sync => flagView s.sync.frame_sync
  | .flag_preamble => flagView s.sync.flag_preamble
  | .sat_prn => s.sat_prn.setWidth 64
  | .hist_len => BitVec.ofNat 64 s.hist.length
  | .ACC => s.acc

/-- The 64-bit view of a register of group 0x01 (R301). -/
def readAsm (s : State) : AsmReg → BitVec 64
  | .tow_report => s.asm.tow_report.setWidth 64
  | .sf1_tow => s.asm.sf1_tow.setWidth 64
  | .sf2_tow => s.asm.sf2_tow.setWidth 64
  | .paged_tow => s.asm.paged_tow.setWidth 64
  | .last_sfid => s.asm.last_sfid.setWidth 64
  | .iono_valid => flagView s.asm.iono_valid
  | .utc_valid => flagView s.asm.utc_valid

/-- `view64` of any register (R301). -/
def view64 (s : State) : RegName → BitVec 64
  | .core r => readCore s r
  | .asm r => readAsm s r
  | .derived r => readDerived s.derived r
  | .param r => readParam s r

end Sys2Proof.Machine
end

