-- ==== Sys2Proof/Machine/Flags.lean ====
section
/-! DEFINITION. Flags and status words. The CORE has no condition codes (10_state.md R46); what stands here is the response
header (30_encoding.md R78, R79) and the SYM response word (R80, R122). -/

namespace Sys2Proof.Machine

/-- The status of a response: OK or one of the four errors (R79). -/
inductive Status where
  | ok
  | error (e : CmdError)
  deriving DecidableEq, Repr

/-- The status code (R79). -/
def Status.code : Status → BitVec 8
  | .ok => 0
  | .error e => e.code

/-- Word 0 of a response: opcode, status, a zero byte, the number of payload words (R78). -/
def responseHeader (op : BitVec 8) (status : Status) (n : Nat) : Word :=
  op ++ status.code ++ (0 : BitVec 8) ++ BitVec.ofNat 8 n

/-- A response packet (R78). -/
def responsePacket (op : BitVec 8) (status : Status) (payload : List Word) : Packet where
  header  := responseHeader op status payload.length
  payload := payload

/-- What one SYM cycle reports beside the registers (R80): whether a record and an alarm were emitted, and the identifier the
decode attempt returned, none when no attempt ran. -/
structure SymReport where
  emitted : Bool
  alarm   : Bool
  attempt : Option (Fin 5)
  deriving DecidableEq, Repr

/-- The SYM response word (R80): bit 0 emitted, bits 2:1 stat, bit 3 flag_preamble, bit 4 alarm, bit 5 attempt,
bits 8:6 the identifier, bits 31:9 zero. -/
def symStatusWord (r : SymReport) (stat : SyncStat) (flagPreamble : Bool) : Word :=
  BitVec.ofNat 32
    (r.emitted.toNat + 2 * statCode stat + 8 * flagPreamble.toNat + 16 * r.alarm.toNat
      + match r.attempt with
        | none => 0
        | some id => 32 + 64 * id.val)

end Sys2Proof.Machine
end

