-- ==== Sys2Proof/Machine/Ops.lean ====
section
/-! DEFINITION. The shared operations over the state: fetching a pending packet, responding and raising an error, emitting on a
channel, the element spaces, loading parameters (00_scope.md R12; 20_memory.md; 30_encoding.md R78 to R82; 60_exceptions.md R311). -/

namespace Sys2Proof.Machine

/-! ## Responses (R78) and errors (R311) -/

/-- A response packet delivered to the port whose command is executing (20_memory.md R63). -/
def State.deliver (s : State) (p : Packet) : State :=
  { s with
    respA := match s.active with
      | .A => s.respA ++ [p]
      | .B => s.respA
    respB := match s.active with
      | .A => s.respB
      | .B => s.respB ++ [p] }

/-- `respond(OK, payload)`. -/
def State.respond (s : State) (op : BitVec 8) (payload : List Word) : State :=
  s.deliver (responsePacket op .ok payload)

/-- `raise <Error>`: the one exception mechanism of the CORE. The command ends, nothing changes but the one-word response, and
the CORE goes on (R311). There is no handler, no saved state and so no return from an error (R319). -/
def State.raise (s : State) (op : BitVec 8) (e : CmdError) : State :=
  s.deliver (responsePacket op (.error e) [])

/-- The outcome of a command that completes. -/
def completes (s : State) : Host.Outcome State Fault Refusal := .next s

/-! ## Channels (R81, R82; 60_exceptions.md R322) -/

def State.emitOut (s : State) (r : Symbol) : State := { s with out := s.out ++ [r] }

def State.emitTlm (s : State) (m : TlmMsg) : State := { s with tlm := s.tlm ++ [m] }

def State.emitTrk (s : State) (w : Word) : State := { s with trk := s.trk ++ [w] }

/-- The words of an f64 or other 64-bit register list, two each (R82). -/
def wordsOf (l : List (BitVec 64)) : List Word := l.flatMap words64

/-- The word form of a TLM message (R82): kind in bits 31:24 of word 0; an Ephemeris is 67 words, the others 17. -/
def TlmMsg.words : TlmMsg → List Word
  | .ephemeris prn e d =>
    [0x01000000, prn]
    ++ wordsOf [e.A_f0, e.A_f1, e.A_f2, e.TGD, e.Toc, e.Toe, e.M_0, e.delta_n, e.ecc, e.sqrtA, e.OMEGA_0, e.omega,
                e.OMEGA_dot, e.i_0, e.IDOT, e.Cuc, e.Cus, e.Cic, e.Cis, e.Crc, e.Crs, e.WN, e.URA, e.IODEC]
    ++ [BitVec.ofNat 32 (e.L5_flag.toNat + 2 * e.S_flag.toNat)]
    ++ wordsOf [d.satpos_X, d.satpos_Y, d.satpos_Z, d.satvel_X, d.satvel_Y, d.satvel_Z, d.sat_clk_drift, d.sat_dtr]
  | .iono i => [0x02000000] ++ wordsOf [i.alpha0, i.alpha1, i.alpha2, i.alpha3, i.beta0, i.beta1, i.beta2, i.beta3]
  | .utcModel u =>
    [0x03000000] ++ wordsOf [u.A0, u.A1, u.t_OT, u.WN_T, u.DeltaT_LS, u.WN_LSF, u.DN, u.DeltaT_LSF]

/-! ## Element spaces (20_memory.md R50 to R53) -/

/-- `SYMBUF[i]` of a buffer, 0-based (R51). -/
def symAt (buf : List Int) (i : Nat) : Int := buf.getD i 0

/-- `SYMBUF[i] <- v`. -/
def State.setSym (s : State) (i : Nat) (v : Int) : State := { s with symbuf := s.symbuf.set i v }

/-- `FRAME[p] <- b`, 1-based (R53). -/
def State.setFrameBit (s : State) (p : Nat) (b : Bool) : State := { s with frame := s.frame.set (p - 1) b }

/-- The sign decision of a prompt value: +1 when it is not negative (40_frame_sync.md R103). -/
def signOf (prompt : BitVec 32) : Sign := if prompt.msb then .minus else .plus

/-- A sign as +1 or -1. -/
def signValue : Sign → Int
  | .plus => 1
  | .minus => -1

/-- A history with a sign appended; a full one drops its oldest entry first (10_state.md R34; 40_frame_sync.md R103). -/
def pushHist (hist : List Sign) (sign : Sign) : List Sign :=
  (if hist.length < HIST_CAP then hist else hist.drop (hist.length + 1 - HIST_CAP)) ++ [sign]

/-- The form the three buffers keep: 584 soft symbols in -127..127, 292 frame bits, at most 601 signs (R34, R35, R36). -/
def State.spacesWf (s : State) : Bool :=
  decide (s.symbuf.length = FRAME_SYMBOLS) && s.symbuf.all (fun y => decide (-SOFT_MAX ≤ y) && decide (y ≤ SOFT_MAX))
  && decide (s.frame.length = FRAME_BITS) && decide (s.hist.length ≤ HIST_CAP)

/-! ## Loading parameters (43_msg_assembler.md R202, R203, R204) -/

/-- `ACC` left holding the 64-bit view of a raw field value (R203). -/
def State.setAcc (s : State) (raw : Int) : State := { s with acc := BitVec.ofInt 64 raw }

/-- The value a register takes from a raw field: bit 0 for a flag, else the scaled number (R204). -/
def loadedValue (reg : ParamReg) (raw : Int) (scale : F64) : BitVec 64 :=
  match reg with
  | .flag _ => flagView (decide (raw % 2 = 1))
  | .eph _ | .utc _ | .iono _ | .eop _ => fmul (i2f raw) scale

/-- One entry of a group: its field is read, `ACC` holds the raw value, the register takes the scaled value (R202). A flag's field
is read with the entry's own signedness and slices, as R202's pseudocode has it, where R203 says `read_bool`: the two differ only
for a flag entry that is signed or has several bits. DESIGN CHOICE (log entry 26). -/
def loadEntry (s : State) (e : Entry) : State :=
  let raw := readField s.frame e.signed e.slices
  writeParam (s.setAcc raw) e.reg (loadedValue e.reg raw e.scale)

/-- `load(group)`, in table order (R202). -/
def loadGroup (s : State) (g : List Entry) : State := g.foldl loadEntry s

/-! ## Command arrival (20_memory.md R60, R61) -/

/-- The next command: its packet, and the state with the packet taken off its port and that port active. With both ports pending
the arbiter elects one, which is not specified: a free value (log entry 2). None when no command is pending. -/
def fetch (s : State) : Option (Packet × State) :=
  match s.portA, s.portB with
  | [], [] => none
  | p :: rest, [] => some (p, { s with portA := rest, active := .A })
  | [], p :: rest => some (p, { s with portB := rest, active := .B })
  | p :: restA, q :: restB =>
    if Config.electsB s.electionCount then
      some (q, { s with portB := restB, active := .B, electionCount := s.electionCount + 1 })
    else some (p, { s with portA := restA, active := .A, electionCount := s.electionCount + 1 })

end Sys2Proof.Machine
end

