-- ==== Sys2Proof/Machine/BitField.lean ====
section
/-! DEFINITION. The Bit-Field Codec commands FBW, RDU, RDS, RDC, RDB (42_bitfield.md R182 to R187). -/

namespace Sys2Proof.Machine

/-- The response of a codec read: `ACC` after the command, two words (30_encoding.md R80). -/
def respondAcc (s : State) (op : BitVec 8) : State := s.respond op (words64 s.acc)

/-- `RDC`'s accumulation: `ACC` shifted left by the slice length, the slice in the bits freed (R186). -/
def accumulate (acc : BitVec 64) (frame : List Bool) (slice : Slice) : BitVec 64 :=
  (acc <<< slice.length) ||| BitVec.ofNat 64 (sliceValue frame slice)

/-- FBW: loads one frame bit (R182). -/
def execFbw (position : BitVec 16) (bit : BitVec 8) (s : State) : Host.Outcome State Fault Refusal :=
  if position.toNat < 1 ∨ 292 < position.toNat ∨ 1 < bit.toNat then completes (s.raise 0x20 .badOperand)
  else completes ((s.setFrameBit position.toNat (decide (bit.toNat = 1))).respond 0x20 [])

/-- RDU: starts an unsigned read (R184). -/
def execRdu (start : BitVec 16) (length : BitVec 8) (s : State) : Host.Outcome State Fault Refusal :=
  let slice : Slice := ⟨start.toNat, length.toNat⟩
  if slice.valid then completes (respondAcc { s with acc := BitVec.ofNat 64 (sliceValue s.frame slice) } 0x21)
  else completes (s.raise 0x21 .badOperand)

/-- RDS: starts a signed read (R185). -/
def execRds (start : BitVec 16) (length : BitVec 8) (s : State) : Host.Outcome State Fault Refusal :=
  let slice : Slice := ⟨start.toNat, length.toNat⟩
  if slice.valid then completes (respondAcc { s with acc := BitVec.ofInt 64 (sliceSigned s.frame slice) } 0x22)
  else completes (s.raise 0x22 .badOperand)

/-- RDC: continues the read in `ACC` with a further slice (R186). -/
def execRdc (start : BitVec 16) (length : BitVec 8) (s : State) : Host.Outcome State Fault Refusal :=
  let slice : Slice := ⟨start.toNat, length.toNat⟩
  if slice.valid then completes (respondAcc { s with acc := accumulate s.acc s.frame slice } 0x23)
  else completes (s.raise 0x23 .badOperand)

/-- RDB: reads one frame bit, also into `ACC` (R187). -/
def execRdb (start : BitVec 16) (s : State) : Host.Outcome State Fault Refusal :=
  if start.toNat < 1 ∨ 292 < start.toNat then completes (s.raise 0x24 .badOperand)
  else
    let b := frameBit s.frame start.toNat
    completes ({ s with acc := flagView b }.respond 0x24 [if b then 1 else 0])

end Sys2Proof.Machine
end

