-- ==== Sys2Proof/Machine/MsgAssembler.lean ====
section
/-! DEFINITION. The Message Assembler: SFDEC, validation and publication (43_msg_assembler.md R202 to R224). -/

namespace Sys2Proof.Machine

/-- `validate()` (R220): the issue-of-data cross-check is not made (R221). -/
def validated (a : AsmRegs) : Bool := decide (a.sf1_tow ≠ 0) && decide (a.sf2_tow ≠ 0) && decide (a.paged_tow ≠ 0)

/-- `publish_ephemeris()`: a snapshot of `sat_prn` and groups 0x02, 0x03 (R222). -/
def publishEphemeris (s : State) : State := s.emitTlm (.ephemeris s.sat_prn s.eph s.derived)

/-- `publish_utc()`: one-shot delivery of group 0x04 (R223). -/
def publishUtc (s : State) : State :=
  if s.asm.utc_valid then
    let s := s.emitTlm (.utcModel s.utc)
    { s with asm := { s.asm with utc_valid := false } }
  else s

/-- `publish_iono()`: one-shot delivery of group 0x05 (R223). -/
def publishIono (s : State) : State :=
  if s.asm.iono_valid then
    let s := s.emitTlm (.iono s.iono)
    { s with asm := { s.asm with iono_valid := false } }
  else s

/-- An unsigned field read of the assembler: the raw value, and the state with `ACC` holding it (R203). -/
def readHeaderField (s : State) (l : List Slice) : Nat × State :=
  let raw := readUnsigned s.frame l
  (raw, s.setAcc raw)

/-- The arm of subframe 1 (R210). -/
def subframe1 (s : State) (tow : BitVec 32) : State :=
  loadGroup { s with asm := { s.asm with sf1_tow := tow } } s.params.FIELD_TABLE.SF1

/-- The arm of subframe 2, with the validation check and the publication (R211, R220, R222). -/
def subframe2 (s : State) (tow : BitVec 32) : State :=
  let s := loadGroup { s with asm := { s.asm with sf2_tow := tow } } s.params.FIELD_TABLE.SF2
  if validated s.asm then publishEphemeris s else s

/-- Message types 9 and 26 (R213, R223). -/
def pageUtc (s : State) : State :=
  let s := loadGroup s s.params.FIELD_TABLE.MT_UTC
  publishUtc { s with asm := { s.asm with utc_valid := true } }

/-- Message type 11 (R214, R223). -/
def pageEopIono (s : State) : State :=
  let s := loadGroup s s.params.FIELD_TABLE.MT_EOP_IONO
  publishIono { s with asm := { s.asm with iono_valid := true } }

/-- The arm of subframes 3 and 4 (R212 to R215). -/
def pagedSubframe (s : State) (tow : BitVec 32) : State :=
  let s := { s with asm := { s.asm with paged_tow := tow } }
  let r := readHeaderField s s.params.FIELD_TABLE.msgid
  if r.1 = 9 ∨ r.1 = 26 then pageUtc r.2
  else if r.1 = 11 then pageEopIono r.2
  else r.2

/-- The identifier the frame's `sfid` field maps to (R202). -/
def frameSfid (p : Params) (frame : List Bool) : Fin 5 := mapSfid p.SFID_MAP (readUnsigned frame p.FIELD_TABLE.sfid)

/-- The time of week of the frame, in seconds, held as u32 (R206; 70_reset_and_hazards.md R365 c). -/
def frameTow (p : Params) (frame : List Bool) : BitVec 32 :=
  BitVec.ofNat 32 (readUnsigned frame p.FIELD_TABLE.towc * p.FIELD_TABLE.TOW_LSB_S)

/-- `sfdec()` (R202): the identifier, 0 when none is recognised (R216), and the state it leaves. -/
def sfdec (s : State) : Fin 5 × State :=
  let id := frameSfid s.params s.frame
  let s := (readHeaderField s s.params.FIELD_TABLE.sfid).2
  let s := { s with asm := { s.asm with last_sfid := BitVec.ofNat 3 id.val } }
  if id = 0 then (id, { s with asm := { s.asm with tow_report := 0 } })
  else
    let tow := frameTow s.params s.frame
    let s := (readHeaderField s s.params.FIELD_TABLE.towc).2
    let s := { s with asm := { s.asm with tow_report := tow } }
    if id = 1 then (id, subframe1 s tow)
    else if id = 2 then (id, subframe2 s tow)
    else (id, pagedSubframe s tow)

/-- SFDEC (R202): the response carries the identifier (30_encoding.md R80). -/
def execSfdec (s : State) : Host.Outcome State Fault Refusal :=
  let r := sfdec s
  completes (r.2.respond 0x28 [BitVec.ofNat 32 r.1.val])

end Sys2Proof.Machine
end

