-- ==== Sys2Proof/Machine/Viterbi.lean ====
section
/-! DEFINITION. The pure functions of the Convolutional Decoder: block transpose, polarity correction, the code with its encoder,
and the Viterbi decoder (41_conv_decoder.md R144 to R156). They walk their lists in order, so that a run can be evaluated; the
index forms the spec gives are proved of them in Laws/Viterbi.lean. -/

namespace Sys2Proof.Machine

/-! ## De-interleaver and polarity correction (R144, R146, R148) -/

/-- Element `c` of row `r` of a block stored row by row, `width` to a row: the element at `r * width + c`. -/
def blockAt (buf : List Int) (width r c : Nat) : Int := symAt (buf.drop (r * width)) c

/-- `deinterleave(in)[c * 8 + r] = in[r * 73 + c]`: rows of 73 read, the columns written one after another (R144). -/
def deinterleave (buf : List Int) : List Int :=
  (List.range INTLV_COLS).flatMap (fun c => (List.range INTLV_ROWS).map (fun r => blockAt buf INTLV_COLS r c))

/-- The inverse permutation: `interleave(in)[r * 73 + c] = in[c * 8 + r]` (R146). No command runs it. -/
def interleave (buf : List Int) : List Int :=
  (List.range INTLV_ROWS).flatMap (fun r => (List.range INTLV_COLS).map (fun c => blockAt buf INTLV_ROWS c r))

/-- Every symbol at an odd 0-based index has its sign inverted (R148, 90_conflicts.md C2). -/
def correctPolarity : List Int → List Int
  | [] => []
  | [y] => [y]
  | y0 :: y1 :: rest => y0 :: -y1 :: correctPolarity rest

/-! ## The code (R149, R150) -/

/-- The exclusive-or of the seven low bits of `x`. -/
def parity7 (x : Nat) : Bool :=
  x.testBit 0 ^^ x.testBit 1 ^^ x.testBit 2 ^^ x.testBit 3 ^^ x.testBit 4 ^^ x.testBit 5 ^^ x.testBit 6

/-- The encoder's 7-bit register: the input bit above the six-bit state (R149). -/
def codeReg (u : Bool) (state : Nat) : Nat := u.toNat * 64 + state

/-- The two code bits of input `u` from a state, the `G1` bit first (R147, R149). -/
def encodeBit (u : Bool) (state : Nat) : Bool × Bool :=
  (parity7 (codeReg u state &&& G1), parity7 (codeReg u state &&& G2))

/-- The state after input `u` (R149). -/
def nextState (u : Bool) (state : Nat) : Nat := codeReg u state / 2

/-- The encoder run over a message from a state: the pairs of code bits in order (R149). The CORE has no encoder. -/
def convEncode : Nat → List Bool → List (Bool × Bool)
  | _, [] => []
  | state, u :: m => encodeBit u state :: convEncode (nextState u state) m

/-- The predecessor of `s'` whose oldest bit is `b` (R150). -/
def predecessor (s' : Nat) (b : Bool) : Nat := s' % 32 * 2 + b.toNat

/-- The input bit that enters a state: its bit 5 (R150). -/
def enteringBit (s' : Nat) : Bool := s'.testBit 5

/-- The code bits of the two branches into a state, from the lower and the higher predecessor (R150). -/
def branchBits (s' : Nat) : (Bool × Bool) × (Bool × Bool) :=
  (encodeBit (enteringBit s') (predecessor s' false), encodeBit (enteringBit s') (predecessor s' true))

/-- `branchBits` of the 64 states in order. -/
def trellis : List ((Bool × Bool) × (Bool × Bool)) := (List.range 64).map branchBits

/-! ## Metrics (R151, R152) -/

/-- A path metric: a natural number, or none for `INF` (R152). -/
abbrev Metric := Option Nat

/-- The cost of a code bit against a received symbol (R151). -/
def bitCost (c : Bool) (y : Int) : Nat :=
  if (c = true ∧ y < 0) ∨ (c = false ∧ 0 < y) then y.natAbs else 0

/-- The cost of a branch with the given code bits against a symbol pair (R151). -/
def branchCost (c : Bool × Bool) (y : Int × Int) : Nat := bitCost c.1 y.1 + bitCost c.2 y.2

/-- `m + x`, with `INF + x = INF` (R152). -/
def metricPlus (m : Metric) (x : Nat) : Metric := m.map (· + x)

/-- `m1 < m0`; `INF` is greater than every number and not less than `INF` (R152). -/
def metricLess : Metric → Metric → Bool
  | none, _ => false
  | some _, none => true
  | some a, some b => decide (a < b)

/-- The start: 0 for state 0, `INF` elsewhere (R152, VIT_START). -/
def startMetrics : List Metric := some 0 :: List.replicate 63 none

/-- The metric of a state. -/
def metricAt (pm : List Metric) (s : Nat) : Metric := pm.getD s none

/-! ## Add-compare-select, end state, traceback (R153 to R156) -/

/-- Consecutive elements in pairs: pair `j` holds elements `2j` and `2j + 1`. -/
def inPairs {α : Type} : List α → List (α × α)
  | a :: b :: rest => (a, b) :: inPairs rest
  | _ => []

/-- The metrics of both predecessors of the states 0..63: state `s'` is entered from `2j` and `2j + 1`, `j = s' mod 32` (R150). -/
def predecessorMetrics (pm : List Metric) : List (Metric × Metric) := inPairs pm ++ inPairs pm

/-- Add, compare, select for one state (R153): its new metric, and whether the path from the higher-numbered predecessor survives,
which it does only when strictly cheaper. -/
def addCompareSelect (y : Int × Int) (m : Metric × Metric) (c : (Bool × Bool) × (Bool × Bool)) : Metric × Bool :=
  let m0 := metricPlus m.1 (branchCost c.1 y)
  let m1 := metricPlus m.2 (branchCost c.2 y)
  if metricLess m1 m0 then (m1, true) else (m0, false)

/-- One step for all 64 states, from the metrics of the step before (R153). -/
def trellisStep (pm : List Metric) (y : Int × Int) : List (Metric × Bool) :=
  List.zipWith (addCompareSelect y) (predecessorMetrics pm) trellis

/-- The forward pass over the symbol pairs: the last metrics and the survivor memory, the last step first. -/
def forward : List (Int × Int) → List Metric → List (List Bool) → List Metric × List (List Bool)
  | [], pm, sel => (pm, sel)
  | y :: ys, pm, sel =>
    let row := trellisStep pm y
    forward ys (row.map Prod.fst) (row.map Prod.snd :: sel)

/-- The state of the lowest metric among the first `n`, the lowest index among equals (R154). -/
def bestState (pm : List Metric) : Nat → Nat
  | 0 => 0
  | n + 1 => if metricLess (metricAt pm n) (metricAt pm (bestState pm n)) then n else bestState pm n

/-- The traceback from a state through the survivor memory, the last step first, in front of the bits already found (R155). -/
def traceback : List (List Bool) → Nat → List Bool → List Bool
  | [], _, bits => bits
  | sel :: rest, s, bits => traceback rest (predecessor s (sel.getD s false)) (enteringBit s :: bits)

/-- The Viterbi decoder over symbol pairs, one pair for each message bit. -/
def viterbiPairs (ys : List (Int × Int)) : List Bool :=
  let r := forward ys startMetrics []
  traceback r.2 (bestState r.1 64) []

/-- The Viterbi decoder: 292 bits from 584 soft symbols, bit `k` of the pair `SYMBUF[2k], SYMBUF[2k + 1]` the frame's bit `k + 1`
(R147, R151 to R156). -/
def viterbi (buf : List Int) : List Bool := viterbiPairs (inPairs buf)

end Sys2Proof.Machine
end

