-- ==== Sys2Proof/Machine/ConvDecoder.lean ====
section
/-! DEFINITION. The Convolutional Decoder commands SBW, SBR, DEINT, POLCOR, VIT, CDEC (41_conv_decoder.md R142 to R165). -/

namespace Sys2Proof.Machine

/-- SBW: writes one soft symbol (R142). -/
def execSbw (index : BitVec 16) (value : BitVec 8) (s : State) : Host.Outcome State Fault Refusal :=
  if 583 < index.toNat then completes (s.raise 0x10 .badOperand)
  else completes ((s.setSym index.toNat (softOfOperand value)).respond 0x10 [])

/-- SBR: reads one soft symbol, sign-extended (R143). -/
def execSbr (index : BitVec 16) (s : State) : Host.Outcome State Fault Refusal :=
  if 583 < index.toNat then completes (s.raise 0x11 .badOperand)
  else completes (s.respond 0x11 [BitVec.ofInt 32 (symAt s.symbuf index.toNat)])

/-- DEINT: de-interleaves SYMBUF (R145). -/
def execDeint (s : State) : Host.Outcome State Fault Refusal :=
  completes ({ s with symbuf := deinterleave s.symbuf }.respond 0x12 [])

/-- POLCOR: polarity correction of SYMBUF (R148). -/
def execPolcor (s : State) : Host.Outcome State Fault Refusal :=
  completes ({ s with symbuf := correctPolarity s.symbuf }.respond 0x13 [])

/-- VIT: decodes SYMBUF into FRAME (R160); it never fails (R157). -/
def execVit (s : State) : Host.Outcome State Fault Refusal :=
  completes ({ s with frame := viterbi s.symbuf }.respond 0x14 [])

/-- `cdec()`: de-interleave, polarity correction, Viterbi, then the Message Assembler (R165). -/
def cdec (s : State) : Fin 5 × State :=
  let symbols := correctPolarity (deinterleave s.symbuf)
  sfdec { s with symbuf := symbols, frame := viterbi symbols }

/-- CDEC (R165): the response carries the identifier. -/
def execCdec (s : State) : Host.Outcome State Fault Refusal :=
  let r := cdec s
  completes (r.2.respond 0x15 [BitVec.ofNat 32 r.1.val])

end Sys2Proof.Machine
end

