-- ==== Sys2Proof/Machine/FrameSync.lean ====
section
/-! DEFINITION. The Frame Synchronizer commands SYM, RESET, SETSAT, NOP (40_frame_sync.md R100 to R128). -/

namespace Sys2Proof.Machine

/-! ## The preamble correlator (R107, R108) -/

/-- The preamble samples `P[0] .. P[15]`: +1 for the character 1, -1 for 0 (R108). -/
def preambleSamples : List Int := PREAMBLE.map (fun b => if b then 1 else -1)

/-- `corr` over the most recent 16 samples (R107). -/
def correlation (hist : List Sign) : Int :=
  (((hist.drop (hist.length - PREAMBLE_LEN)).map signValue).zipWith (· * ·) preambleSamples).sum

/-- A hit: `|corr| >= 16` (R107). -/
def isHit (hist : List Sign) : Bool := decide (CORR_THRESHOLD ≤ (correlation hist).natAbs)

/-! ## Decode attempts (R109, R110, R111) -/

/-- The decode window: `HIST[hist_len - 600 + j]`, `j` = 0..583 (R109). -/
def window (hist : List Sign) : List Sign := (hist.drop (hist.length - SUBFRAME_SYMBOLS)).take FRAME_SYMBOLS

/-- The window as soft symbols, negated when the stream is inverted (R110). -/
def windowSymbols (inv : Bool) (hist : List Sign) : List Int :=
  (window hist).map (fun x => if inv then -signValue x else signValue x)

/-- `attempt(inv)` (R110): the identifier, none when no attempt runs for want of a window. -/
def attempt (inv : Bool) (s : State) : Option (Fin 5) × State :=
  if s.hist.length < SUBFRAME_SYMBOLS then (none, s)
  else
    let r := cdec { s with symbuf := windowSymbols inv s.hist }
    (some r.1, r.2)

/-- The attempt succeeded: it ran and returned an identifier in 1..4 (R111). -/
def succeeded : Option (Fin 5) → Bool
  | none => false
  | some id => decide (id ≠ 0)

/-! ## The steps of SYM (R102) -/

/-- Steps 1 to 3: push the sign, count the sample, clear `flag_preamble` (R103, R104, R105). -/
def acceptSymbol (r : Symbol) (s : State) : State :=
  { s with
    hist := pushHist s.hist (signOf r.prompt_I)
    sync := { s.sync with sample_counter := s.sync.sample_counter + 1, flag_preamble := false } }

/-- The watchdog's condition (R106): more than 12000 symbols since the last valid preamble, and no alarm sent. -/
def watchdogFires (y : SyncRegs) : Bool :=
  !y.alarm_sent && decide (MAX_SYMBOLS_NO_FRAME < (y.sample_counter - y.last_valid_preamble).toNat)

/-- Step 4: the watchdog; also whether the alarm was emitted (R106, R321). -/
def watchdog (s : State) : Bool × State :=
  if watchdogFires s.sync then
    let s := s.emitTrk s.params.ALARM_CODE
    (true, { s with sync := { s.sync with alarm_sent := true } })
  else (false, s)

/-- Step 5 in NO_PREAMBLE (R113). -/
def noPreambleArm (s : State) : Option (Fin 5) × State :=
  if PREAMBLE_LEN ≤ s.hist.length ∧ isHit s.hist then
    let r := attempt (decide (correlation s.hist < 0))
      { s with sync := { s.sync with preamble_index := s.sync.sample_counter } }
    (r.1, { r.2 with sync := { r.2.sync with stat := .possibleLock } })
  else (none, s)

/-- `POSSIBLE_LOCK -> LOCKED` (R115). -/
def enterLocked (s : State) : Option (Fin 5) × State :=
  let neg := decide (correlation s.hist < 0)
  let r := attempt neg s
  (r.1,
   { r.2 with
     sync := { r.2.sync with
       polarity_lock := neg
       preamble_index := r.2.sync.sample_counter
       stat := .locked
       fail_count := 0 } })

/-- Step 5 in POSSIBLE_LOCK (R114, R115, R116). -/
def possibleLockArm (s : State) : Option (Fin 5) × State :=
  if REQUIRED_SYMBOLS < s.hist.length ∧ isHit s.hist then
    let delta := (s.sync.sample_counter - s.sync.preamble_index).toNat
    if delta = SUBFRAME_SYMBOLS then enterLocked s
    else if SUBFRAME_SYMBOLS < delta then
      (none, { s with sync := { s.sync with stat := .noPreamble, tow_known := false } })
    else (none, s)
  else (none, s)

/-- A successful attempt in LOCKED (R117). -/
def lockedSuccess (y : SyncRegs) : SyncRegs :=
  { y with fail_count := 0, flag_preamble := true, last_valid_preamble := y.sample_counter, frame_sync := true }

/-- A failed attempt in LOCKED; the third consecutive failure is the loss of sync (R118). -/
def lockedFailure (y : SyncRegs) : SyncRegs :=
  let y := { y with fail_count := y.fail_count + 1 }
  if FAIL_LIMIT < y.fail_count.toNat then
    { y with stat := .noPreamble, frame_sync := false, tow_known := false, tow_current_ms := 0, tow_preamble_ms := 0 }
  else y

/-- Step 5 in LOCKED: one attempt every 600 symbols, paced by the counter alone (R117, R118). -/
def lockedArm (s : State) : Option (Fin 5) × State :=
  if s.sync.sample_counter = s.sync.preamble_index + 600 then
    let r := attempt s.sync.polarity_lock s
    let y := { r.2.sync with preamble_index := r.2.sync.sample_counter }
    (r.1, { r.2 with sync := if succeeded r.1 then lockedSuccess y else lockedFailure y })
  else (none, s)

/-- Step 5: one arm, by the value of `stat` at its start (R102, R112). -/
def dispatchStat (s : State) : Option (Fin 5) × State :=
  match s.sync.stat with
  | .noPreamble => noPreambleArm s
  | .possibleLock => possibleLockArm s
  | .locked => lockedArm s

/-- The time of week in milliseconds, modulo 2^32 (R119). -/
def towMs (tow : BitVec 32) : BitVec 32 := tow * 1000

/-- Step 6: time-of-week bookkeeping (R119, R120). -/
def towBookkeeping (s : State) : State :=
  if s.sync.flag_preamble then
    if s.asm.tow_report ≠ 0 then
      { s with
        sync := { s.sync with
          tow_current_ms := towMs s.asm.tow_report, tow_preamble_ms := towMs s.asm.tow_report, tow_known := true } }
    else s
  else if s.sync.tow_known then
    { s with sync := { s.sync with tow_current_ms := s.sync.tow_current_ms + s.params.SYMBOL_PERIOD_MS } }
  else s

/-- The output record of a Symbol (R121). -/
def outputRecord (y : SyncRegs) (r : Symbol) : Symbol :=
  { r with
    tow_ms := y.tow_current_ms
    flags := 1
    carrier_phase := if y.polarity_lock then fadd r.carrier_phase PI else r.carrier_phase }

/-- Step 7: the output record, only once the time of week is known; also whether one was emitted (R121). -/
def output (r : Symbol) (s : State) : Bool × State :=
  if s.sync.tow_known then (true, s.emitOut (outputRecord s.sync r)) else (false, s)

/-- Steps 1 to 7 of SYM, in order (R102). -/
def symCycle (r : Symbol) (s : State) : SymReport × State :=
  let w := watchdog (acceptSymbol r s)
  let d := dispatchStat w.2
  let o := output r (towBookkeeping d.2)
  (⟨o.1, w.1, d.1⟩, o.2)

/-- SYM (R102): the cycle, then the response with its status word (R122). -/
def execSym (r : Symbol) (s : State) : Host.Outcome State Fault Refusal :=
  let c := symCycle r s
  completes (c.2.respond 0x03 [symStatusWord c.1 c.2.sync.stat c.2.sync.flag_preamble])

/-! ## RESET, SETSAT, NOP (R125, R127, R128) -/

/-- RESET: every Frame Synchronizer register to its initial value, nothing else (R125, R126). -/
def execReset (s : State) : Host.Outcome State Fault Refusal :=
  completes ({ s with sync := .reset }.respond 0x01 [])

/-- SETSAT: what RESET does, the satellite number, and all per-satellite state cleared (R127). -/
def execSetsat (prn : BitVec 16) (s : State) : Host.Outcome State Fault Refusal :=
  completes
    ({ s with
        sync := .reset, sat_prn := prn.setWidth 32, hist := [], asm := .reset
        eph := .reset, derived := .reset, utc := .reset, iono := .reset, eop := .reset }.respond 0x02 [])

/-- NOP: a response and nothing else (R128). -/
def execNop (s : State) : Host.Outcome State Fault Refusal := completes (s.respond 0x00 [])

end Sys2Proof.Machine
end

