-- ==== Sys2Proof/Machine/RegAccess.lean ====
section
/-! DEFINITION. Register access: RDST and WRP (46_register_access.md R300 to R303). -/

namespace Sys2Proof.Machine

/-- RDST: the 64-bit view of any register of the index map, without side effect (R301). -/
def execRdst (index : BitVec 16) (s : State) : Host.Outcome State Fault Refusal :=
  match regOfIndex index with
  | none => completes (s.raise 0x40 .badOperand)
  | some r => completes (s.respond 0x40 (words64 (view64 s r)))

/-- WRP: writes one parameter register (R302). -/
def execWrp (index : BitVec 16) (value : BitVec 64) (s : State) : Host.Outcome State Fault Refusal :=
  match paramOfIndex index with
  | none => completes (s.raise 0x41 .badOperand)
  | some r => completes ((writeParam s r value).respond 0x41 [])

end Sys2Proof.Machine
end

