-- ==== Sys2Proof/Machine/OrbitClock.lean ====
section
/-! DEFINITION. The Orbital/Clock Model: check_t, the Kepler solver, and CHKT, CLKREL, CLKDRIFT, SATPOS
(44_orbit_clock.md R245 to R258). Every formula is written operation by operation in the order R241 gives. -/

namespace Sys2Proof.Machine

/-- The response of a numeric command: the result's two words (30_encoding.md R80). -/
def respondF64 (s : State) (op : BitVec 8) (v : F64) : State := s.respond op (words64 v)

/-- `check_t`: one week added or subtracted once, beyond half a week (R245). -/
def checkT (t : F64) : F64 :=
  if fgt t HALF_WEEK then fsub t WEEK
  else if flt t (fneg HALF_WEEK) then fadd t WEEK
  else t

/-! ## The Kepler solver (R247, R248) -/

/-- What `kepler` returns: the eccentric anomaly, the time from ephemeris, the semi-major axis, the corrected mean motion. -/
structure KeplerResult where
  E  : F64
  tk : F64
  a  : F64
  n  : F64
  deriving DecidableEq, Repr

/-- At most `passes` updates `E <- M + ecc * sin(E)`, ending after the one whose change is below the threshold. -/
def keplerLoop (M ecc : F64) : Nat → F64 → F64
  | 0, E => E
  | passes + 1, E =>
    let E' := fadd M (fmul ecc (fsin E))
    if flt (fabs (fsub E' E)) KEPLER_EPS then E' else keplerLoop M ecc passes E'

/-- The semi-major axis `a = sqrtA * sqrtA`. -/
def semiMajorAxis (e : Eph) : F64 := fmul e.sqrtA e.sqrtA

/-- The corrected mean motion `n = sqrt(GM / (a * a * a)) + delta_n`. -/
def meanMotion (e : Eph) : F64 :=
  let a := semiMajorAxis e
  fadd (fsqrt (fdiv GM (fmul (fmul a a) a))) e.delta_n

/-- `kepler(t)` (R247). -/
def kepler (e : Eph) (t : F64) : KeplerResult :=
  let a := semiMajorAxis e
  let n := meanMotion e
  let tk := checkT (fsub t e.Toe)
  let M := fadd e.M_0 (fmul n tk)
  ⟨keplerLoop M e.ecc KEPLER_MAX_ITER M, tk, a, n⟩

/-! ## Clock terms (R250, R251) -/

/-- `((F_REL * ecc) * sqrtA) * sinE` (R250, R258). -/
def relativisticTerm (e : Eph) (sinE : F64) : F64 := fmul (fmul (fmul F_REL e.ecc) e.sqrtA) sinE

/-- `clkrel(t)` (R250). -/
def clkrel (e : Eph) (t : F64) : F64 := relativisticTerm e (fsin (kepler e t).E)

/-- `clkpoly(t) = (A_f0 + A_f1 * dt) + A_f2 * (dt * dt)` (R251). -/
def clkpoly (e : Eph) (t : F64) : F64 :=
  let dt := checkT (fsub t e.Toc)
  fadd (fadd e.A_f0 (fmul e.A_f1 dt)) (fmul e.A_f2 (fmul dt dt))

/-- `(clkpoly(t) + clkrel(t)) - TGD` (R252). -/
def clkdrift (e : Eph) (t : F64) : F64 := fsub (fadd (clkpoly e t) (clkrel e t)) e.TGD

/-! ## Position and velocity (R256, R257) -/

/-- The intermediate values of `position` that `velocity` continues with. -/
structure OrbitTerms where
  sinE : F64
  cosE : F64
  s2   : F64
  c2   : F64
  r    : F64
  cu   : F64
  su   : F64
  ci   : F64
  si   : F64
  cO   : F64
  sO   : F64
  xp   : F64
  yp   : F64
  deriving DecidableEq, Repr

/-- `a + b * c`, two roundings. -/
def fmulAdd2 (a b c : F64) : F64 := fadd a (fmul b c)

/-- `sqrt(1.0 - ecc * ecc)`. -/
def rootOneMinusEcc2 (e : Eph) : F64 := fsqrt (fsub fone (fmul e.ecc e.ecc))

/-- `position`, up to the orbital plane and the rotation angles (R256). -/
def orbitTerms (e : Eph) (k : KeplerResult) : OrbitTerms :=
  let sinE := fsin k.E
  let cosE := fcos k.E
  let nu := fatan2 (fmul (rootOneMinusEcc2 e) sinE) (fsub cosE e.ecc)
  let phi := fadd nu e.omega
  let s2 := fsin (fmul ftwo phi)
  let c2 := fcos (fmul ftwo phi)
  let u := fmulAdd2 (fmulAdd2 phi e.Cuc c2) e.Cus s2
  let r := fmulAdd2 (fmulAdd2 (fmul k.a (fsub fone (fmul e.ecc cosE))) e.Crc c2) e.Crs s2
  let i := fmulAdd2 (fmulAdd2 (fmulAdd2 e.i_0 e.IDOT k.tk) e.Cic c2) e.Cis s2
  let Om := fsub (fmulAdd2 e.OMEGA_0 (fsub e.OMEGA_dot OMEGA_E_DOT) k.tk) (fmul OMEGA_E_DOT e.Toe)
  let cu := fcos u
  let su := fsin u
  { sinE := sinE, cosE := cosE, s2 := s2, c2 := c2, r := r, cu := cu, su := su,
    ci := fcos i, si := fsin i, cO := fcos Om, sO := fsin Om,
    xp := fmul r cu, yp := fmul r su }

/-- An Earth-fixed or orbital vector. -/
structure Vec3 where
  X : F64
  Y : F64
  Z : F64
  deriving DecidableEq, Repr

/-- The Earth-fixed position (R256). -/
def position (o : OrbitTerms) : Vec3 where
  X := fsub (fmul o.xp o.cO) (fmul (fmul o.yp o.ci) o.sO)
  Y := fadd (fmul o.xp o.sO) (fmul (fmul o.yp o.ci) o.cO)
  Z := fmul o.yp o.si

/-- The Earth-fixed velocity, with the position just computed (R257). -/
def velocity (e : Eph) (k : KeplerResult) (o : OrbitTerms) (pos : Vec3) : Vec3 :=
  let den := fsub fone (fmul e.ecc o.cosE)
  let Edot := fdiv k.n den
  let nudot := fdiv (fmul Edot (rootOneMinusEcc2 e)) den
  let twoNudot := fmul ftwo nudot
  let udot := fmulAdd2 nudot twoNudot (fsub (fmul e.Cus o.c2) (fmul e.Cuc o.s2))
  let rdot := fmulAdd2 (fmul (fmul (fmul k.a e.ecc) o.sinE) Edot) twoNudot (fsub (fmul e.Crs o.c2) (fmul e.Crc o.s2))
  let idot := fmulAdd2 e.IDOT twoNudot (fsub (fmul e.Cis o.c2) (fmul e.Cic o.s2))
  let Omdot := fsub e.OMEGA_dot OMEGA_E_DOT
  let xpdot := fsub (fmul rdot o.cu) (fmul (fmul o.r udot) o.su)
  let ypdot := fadd (fmul rdot o.su) (fmul (fmul o.r udot) o.cu)
  let ypIdot := fmul o.yp idot
  { X := fsub (fadd (fsub (fmul xpdot o.cO) (fmul (fmul ypdot o.ci) o.sO)) (fmul (fmul ypIdot o.si) o.sO))
          (fmul Omdot pos.Y)
    Y := fadd (fsub (fadd (fmul xpdot o.sO) (fmul (fmul ypdot o.ci) o.cO)) (fmul (fmul ypIdot o.si) o.cO))
          (fmul Omdot pos.X)
    Z := fadd (fmul ypdot o.si) (fmul ypIdot o.ci) }

/-- What SATPOS computes: `satpos`, `satvel` and `sat_dtr`; `sat_clk_drift` keeps its value (R255 to R258). -/
def satpos (e : Eph) (d : Derived) (t : F64) : Derived :=
  let k := kepler e t
  let o := orbitTerms e k
  let pos := position o
  let vel := velocity e k o pos
  { d with
    satpos_X := pos.X, satpos_Y := pos.Y, satpos_Z := pos.Z
    satvel_X := vel.X, satvel_Y := vel.Y, satvel_Z := vel.Z
    sat_dtr := fadd (clkpoly e t) (relativisticTerm e o.sinE) }

/-! ## The commands -/

/-- CHKT (R246): reads and writes no state. -/
def execChkt (t : F64) (s : State) : Host.Outcome State Fault Refusal :=
  completes (respondF64 s 0x30 (checkT t))

/-- CLKREL (R250): writes no register. -/
def execClkrel (t : F64) (s : State) : Host.Outcome State Fault Refusal :=
  completes (respondF64 s 0x31 (clkrel s.eph t))

/-- CLKDRIFT (R252): stores and returns the drift. -/
def execClkdrift (t : F64) (s : State) : Host.Outcome State Fault Refusal :=
  let d := clkdrift s.eph t
  completes (respondF64 { s with derived := { s.derived with sat_clk_drift := d } } 0x32 d)

/-- SATPOS (R255): stores position, velocity and the second clock estimate, and returns the last. -/
def execSatpos (t : F64) (s : State) : Host.Outcome State Fault Refusal :=
  let d := satpos s.eph s.derived t
  completes (respondF64 { s with derived := d } 0x33 d.sat_dtr)

end Sys2Proof.Machine
end

