-- ==== Sys2Proof/Machine/UtcTime.lean ====
section
/-! DEFINITION. The UTC/Time Model: UTCTIME (45_utc.md R280 to R289). -/

namespace Sys2Proof.Machine

/-- `dt0(t, week) = (t - t_OT) + 604800.0 * (i2f(week) - WN_T)` (R281). -/
def utcDt0 (u : Utc) (t wk : F64) : F64 := fadd (fsub t u.t_OT) (fmul WEEK (fsub wk u.WN_T))

/-- `dUTC` (R281), or `dUTCF` with `DeltaT_LSF` as the leap-second count. -/
def utcOffset (u : Utc) (leap t wk : F64) : F64 := fadd (fadd leap u.A0) (fmul u.A1 (utcDt0 u t wk))

/-- Day seconds re-based onto the seconds of the week, for branches A and C (R284, R286, R287). -/
def utcRebase (tu : F64) : F64 :=
  let tDay := fmod tu DAY
  let base := fsub tu tDay
  fadd base tDay

/-- Branch A: effectivity in the future (R284). -/
def utcBranchA (u : Utc) (t wk : F64) : F64 := utcRebase (fsub t (utcOffset u u.DeltaT_LS t wk))

/-- Branch B: inside the window (R285). -/
def utcBranchB (u : Utc) (t wk : F64) : F64 :=
  let tu := fsub t (utcOffset u u.DeltaT_LS t wk)
  let w0 := fmod (fsub tu HALF_DAY) DAY
  let W := fadd w0 HALF_DAY
  let L := fsub (fadd DAY u.DeltaT_LSF) u.DeltaT_LS
  let tDay := fmod W L
  let D0 := fsub (fsub tu HALF_DAY) w0
  let base := if flt W L then D0 else fadd D0 DAY
  fadd base tDay

/-- Branch C: effectivity in the past (R286). -/
def utcBranchC (u : Utc) (t wk : F64) : F64 := utcRebase (fsub t (utcOffset u u.DeltaT_LSF t wk))

/-- The effectivity second `tLSE = DN * 86400.0` (R283). -/
def effectivitySecond (u : Utc) : F64 := fmul u.DN DAY

/-- `utc_time(t, week)` with the branch selection of R282, R283. -/
def utcTime (u : Utc) (t : F64) (week : BitVec 32) : F64 :=
  let wk := i2f week.toInt
  let tLSE := effectivitySecond u
  if fgt u.WN_LSF wk || (feq u.WN_LSF wk && flt t (fsub tLSE SIX_HOURS)) then utcBranchA u t wk
  else if feq u.WN_LSF wk && fle t (fadd tLSE SIX_HOURS) then utcBranchB u t wk
  else utcBranchC u t wk

/-- UTCTIME (R282): writes no state. -/
def execUtctime (t : F64) (week : BitVec 32) (s : State) : Host.Outcome State Fault Refusal :=
  completes (respondF64 s 0x38 (utcTime s.utc t week))

end Sys2Proof.Machine
end

