-- ==== Sys2Proof/Machine/Dispatch.lean ====
section
/-! DEFINITION. The meaning of every command, one arm each. -/

namespace Sys2Proof.Machine

def exec (i : Instr) (s : State) : Host.Outcome State Fault Refusal :=
  match i with
  -- Frame Synchronizer (40_frame_sync.md)
  | .nop => Sys2Proof.Machine.execNop s
  | .reset => Sys2Proof.Machine.execReset s
  | .setsat prn => Sys2Proof.Machine.execSetsat prn s
  | .sym symbol => Sys2Proof.Machine.execSym symbol s
  -- Convolutional Decoder (41_conv_decoder.md)
  | .sbw index value => Sys2Proof.Machine.execSbw index value s
  | .sbr index => Sys2Proof.Machine.execSbr index s
  | .deint => Sys2Proof.Machine.execDeint s
  | .polcor => Sys2Proof.Machine.execPolcor s
  | .vit => Sys2Proof.Machine.execVit s
  | .cdec => Sys2Proof.Machine.execCdec s
  -- Bit-Field Codec (42_bitfield.md)
  | .fbw position bit => Sys2Proof.Machine.execFbw position bit s
  | .rdu start length => Sys2Proof.Machine.execRdu start length s
  | .rds start length => Sys2Proof.Machine.execRds start length s
  | .rdc start length => Sys2Proof.Machine.execRdc start length s
  | .rdb start => Sys2Proof.Machine.execRdb start s
  -- Message Assembler (43_msg_assembler.md)
  | .sfdec => Sys2Proof.Machine.execSfdec s
  -- Orbital/Clock Model (44_orbit_clock.md)
  | .chkt t => Sys2Proof.Machine.execChkt t s
  | .clkrel t => Sys2Proof.Machine.execClkrel t s
  | .clkdrift t => Sys2Proof.Machine.execClkdrift t s
  | .satpos t => Sys2Proof.Machine.execSatpos t s
  -- UTC/Time Model (45_utc.md)
  | .utctime t week => Sys2Proof.Machine.execUtctime t week s
  -- Register access (46_register_access.md)
  | .rdst index => Sys2Proof.Machine.execRdst index s
  | .wrp index value => Sys2Proof.Machine.execWrp index value s

end Sys2Proof.Machine
end

