-- ==== Sys2Proof/Machine/Step.lean ====
section
/-! DEFINITION. One step: one pending command, atomically (20_memory.md R60), and the placing of a command where the step takes
its next one. -/

namespace Sys2Proof.Machine

/-- One step. With no command pending the CORE is idle (60_exceptions.md R336); a packet that decodes to no command raises its
error (R311); any other is executed. -/
def step (s : State) : Host.Outcome State Fault Refusal :=
  match fetch s with
  | none => .next s
  | some (p, s') =>
    match decode p with
    | .error e => .next (s'.raise (opcodeField p.header) e)
    | .ok i => exec i s'

/-- The state with a command's packet at the head of port A and port B empty, so that the next step takes exactly it whatever the
arbiter would elect (log entry 1). -/
def State.withFetchWord (s : State) (nbits w : Nat) : State :=
  { s with portA := tablePacket nbits w :: s.portA, portB := [] }

end Sys2Proof.Machine
end

