-- ==== Sys2Proof/Safety.lean ====
section
/-! DEFINITION. The terms claims use: the invariant of every state a run reaches, the responses of a port, what a channel got. -/

namespace Sys2Proof.Machine

/-- The response packets a port has received. -/
def State.responses (s : State) : Port → List Packet
  | .A => s.respA
  | .B => s.respB

/-- The command packets pending on a port. -/
def State.pending (s : State) : Port → List Packet
  | .A => s.portA
  | .B => s.portB

/-- The other port. -/
def otherPort : Port → Port
  | .A => .B
  | .B => .A

/-- The status byte of a response packet (30_encoding.md R78). -/
def statusField (p : Packet) : BitVec 8 := p.header.extractLsb' 16 8

/-- The payload count of a response packet (30_encoding.md R78). -/
def countField (p : Packet) : BitVec 8 := p.header.extractLsb' 0 8

/-- The sign of a symbol as R103 words it: negative exactly when the signed value is below 0. -/
def signOfInt (v : Int) : Sign := if v < 0 then .minus else .plus

/-- What every run from power-on keeps, whatever the commands:
the buffers' form (10_state.md R34, R35, R36); the failure counter's range (R26); the one-shot flags 0 between commands (R48 a);
the identifier's range (R38); the order `tow_known`, `frame_sync`, `LOCKED` in which knowledge is gained and lost together
(40_frame_sync.md R117 to R119, R118); what `flag_preamble` marks (R117); a full history in LOCKED (R114), at least a preamble's
worth before it (R113); no time of week while none is known (R118). -/
structure Invariant (s : State) : Prop where
  spaces       : s.spacesWf = true
  failLimit    : s.sync.fail_count.toNat ≤ 3
  failLocked   : s.sync.stat = .locked → s.sync.fail_count.toNat ≤ 2
  oneShot      : s.asm.iono_valid = false ∧ s.asm.utc_valid = false
  identifier   : s.asm.last_sfid.toNat ≤ 4
  towKnown     : s.sync.tow_known = true → s.sync.frame_sync = true
  frameSync    : s.sync.frame_sync = true → s.sync.stat = .locked
  validCycle   : s.sync.flag_preamble = true →
                   s.sync.frame_sync = true ∧ s.sync.last_valid_preamble = s.sync.sample_counter ∧ s.sync.fail_count = 0
  historyFull  : s.sync.stat = .locked → s.hist.length = 601
  historyHit   : s.sync.stat = .possibleLock → 16 ≤ s.hist.length
  towUnknown   : s.sync.tow_known = false → s.sync.tow_current_ms = 0 ∧ s.sync.tow_preamble_ms = 0

/-! ## A packet's errors, from the rules alone (30_encoding.md R75 to R79; 60_exceptions.md R312 to R318)

These tables are written from the spec a second time, on numbers, so that a claim can hold the decoder and the meanings against
them. -/

/-- An opcode that no command has, by the ranges of R77. -/
def opcodeIllegal (c : Nat) : Bool :=
  (decide (0x04 ≤ c) && decide (c ≤ 0x0F)) || (decide (0x16 ≤ c) && decide (c ≤ 0x1F))
  || (decide (0x25 ≤ c) && decide (c ≤ 0x27)) || (decide (0x29 ≤ c) && decide (c ≤ 0x2F))
  || (decide (0x34 ≤ c) && decide (c ≤ 0x37)) || (decide (0x39 ≤ c) && decide (c ≤ 0x3F)) || decide (0x42 ≤ c)

/-- The payload words a legal opcode asks for (R72, R75, R314). -/
def wordsAsked (c : Nat) : Nat :=
  if c = 0x03 then 8
  else if c = 0x38 then 3
  else if c = 0x41 ∨ (0x30 ≤ c ∧ c ≤ 0x33) then 2
  else 0

/-- The opcodes whose format uses the header field `A` (R72, R75). -/
def usesFieldA (c : Nat) : Bool :=
  c == 0x02 || c == 0x10 || c == 0x11 || (decide (0x20 ≤ c) && decide (c ≤ 0x24)) || c == 0x40 || c == 0x41

/-- The opcodes whose format uses the header field `B` (R72, R75). -/
def usesFieldB (c : Nat) : Bool := c == 0x10 || (decide (0x20 ≤ c) && decide (c ≤ 0x23))

/-- The operand conditions of R313, on the opcode and the header fields. -/
def operandBad (c a b : Nat) : Bool :=
  if c = 0x10 ∨ c = 0x11 then decide (583 < a)
  else if c = 0x20 then a == 0 || decide (292 < a) || decide (1 < b)
  else if c = 0x24 then a == 0 || decide (292 < a)
  else if 0x21 ≤ c ∧ c ≤ 0x23 then a == 0 || b == 0 || decide (64 < b) || decide (292 < a + b - 1)
  else if c = 0x40 then !regIndexDefined a
  else if c = 0x41 then !regIndexWritable a
  else false

/-- The status a packet's response carries: the first error of R318's order, 0 for none. -/
def statusOf (p : Packet) : Nat :=
  let c := (opcodeField p.header).toNat
  let a := (fieldA p.header).toNat
  let b := (fieldB p.header).toNat
  if opcodeIllegal c then 1
  else if p.payload.length ≠ wordsAsked c then 2
  else if (usesFieldA c = false ∧ a ≠ 0) ∨ (usesFieldB c = false ∧ b ≠ 0) then 3
  else if operandBad c a b then 4
  else 0

/-- A state without the responses its ports have received. -/
def State.sansResponses (s : State) : State := { s with respA := [], respB := [] }

/-! ## What a SYM sees (40_frame_sync.md R103 to R110) -/

/-- The history of a SYM cycle: the sign appended, at most the last 601 kept (R103; 10_state.md R34). -/
def historyAfter (s : State) (r : Symbol) : List Sign :=
  let l := s.hist ++ [signOfInt r.prompt_I.toInt]
  l.drop (l.length - 601)

/-- The sixteen preamble samples as R108 lists them. -/
def preambleSigns : List Sign :=
  [.plus, .plus, .plus, .minus, .plus, .minus, .plus, .plus, .plus, .minus, .minus, .plus, .minus, .minus, .minus, .minus]

/-- The opposite sign. -/
def oppositeSign : Sign → Sign
  | .plus => .minus
  | .minus => .plus

/-- A preamble hit in a history (R107): `some false` when the last sixteen signs all agree with the preamble, `some true` when
they all disagree, none otherwise, and none before sixteen signs are held. -/
def preambleHit (h : List Sign) : Option Bool :=
  if h.length < 16 then none
  else if h.drop (h.length - 16) = preambleSigns then some false
  else if h.drop (h.length - 16) = preambleSigns.map oppositeSign then some true
  else none

/-- Everything a decode attempt may write is as before: the workspaces, the assembler, the parameters, the publications. -/
def decoderUntouched (s t : State) : Prop :=
  t.symbuf = s.symbuf ∧ t.frame = s.frame ∧ t.acc = s.acc ∧ t.asm = s.asm ∧ t.eph = s.eph ∧ t.utc = s.utc ∧ t.iono = s.iono
  ∧ t.eop = s.eop ∧ t.tlm = s.tlm

/-- The identifier a decode of the window of `h` returns (R109, R110), the assembler's `sfdec` run on its decoded frame. -/
def windowIdentifier (s : State) (inv : Bool) (h : List Sign) : Fin 5 :=
  frameSfid s.params (viterbi (correctPolarity (deinterleave (windowSymbols inv h))))

/-- A decode attempt with the window of `h` ran from `s` and left in `t` what the Convolutional Decoder and the Message Assembler
make of that window (R110; 41_conv_decoder.md R165). -/
def decoderRan (s t : State) (inv : Bool) (h : List Sign) : Prop :=
  decoderUntouched (cdec { s with symbuf := windowSymbols inv h }).2 t

/-- The attempt of R110: it runs exactly when 600 signs are held. -/
def attempted (s t : State) (inv : Bool) (h : List Sign) : Prop :=
  if h.length < 600 then decoderUntouched s t else decoderRan s t inv h

/-- The polarity of the decode attempt a SYM cycle runs, none when it runs none (R110, R113, R115, R117). -/
def attemptOf (s : State) (r : Symbol) : Option Bool :=
  let h := historyAfter s r
  let n := s.sync.sample_counter + 1
  if h.length < 600 then none
  else match s.sync.stat with
    | .noPreamble => preambleHit h
    | .possibleLock => if 600 < h.length ∧ n - s.sync.preamble_index = 600 then preambleHit h else none
    | .locked => if n = s.sync.preamble_index + 600 then some s.sync.polarity_lock else none

/-! ## The Viterbi decoder as the spec indexes it (41_conv_decoder.md R151 to R155) -/

/-- The metric with which the branch from `s' mod 32 * 2 + b` reaches `s'` at step `k`, given the metrics of the step before. -/
def branchMetric (buf : List Int) (pm : Nat → Metric) (k s' : Nat) (b : Bool) : Metric :=
  let p := s' % 32 * 2 + b.toNat
  let c := encodeBit (s'.testBit 5) p
  metricPlus (pm p) (bitCost c.1 (symAt buf (2 * k)) + bitCost c.2 (symAt buf (2 * k + 1)))

/-- `pm[s]` before step `k` (R152, R153). -/
def pathMetric (buf : List Int) : Nat → Nat → Metric
  | 0, s => if s = 0 then some 0 else none
  | k + 1, s' =>
    let m0 := branchMetric buf (pathMetric buf k) k s' false
    let m1 := branchMetric buf (pathMetric buf k) k s' true
    if metricLess m1 m0 then m1 else m0

/-- `sel[k][s']` (R153). -/
def survivor (buf : List Int) (k s' : Nat) : Bool :=
  metricLess (branchMetric buf (pathMetric buf k) k s' true) (branchMetric buf (pathMetric buf k) k s' false)

/-- The state of the traceback from `e` after `j` steps back from the last, step 291 (R155). -/
def tracedState (buf : List Int) (e : Nat) : Nat → Nat
  | 0 => e
  | j + 1 =>
    let s := tracedState buf e j
    s % 32 * 2 + (survivor buf (291 - j) s).toNat

/-- The symbols of an error-free transmission of code bits: `a` for a code bit 1, `-a` for 0, the first bit of a pair first (R160). -/
def symbolsOf (a : Int) (code : List (Bool × Bool)) : List Int :=
  code.flatMap (fun c => [if c.1 then a else -a, if c.2 then a else -a])

/-- The cost of a message against received symbols: the sum of the costs of its code bits (R151). -/
def messageCost (buf : List Int) (m : List Bool) : Nat :=
  ((convEncode 0 m).zipIdx.map
    (fun x => bitCost x.1.1 (symAt buf (2 * x.2)) + bitCost x.1.2 (symAt buf (2 * x.2 + 1)))).sum

/-! ## Registers and loads -/

/-- Every register of the index map with its 64-bit view, by index as 10_state.md R44 and R39 to R43 list them. -/
def registerTable (s : State) : List (Nat × BitVec 64) :=
  [(0x0000, match s.sync.stat with | .noPreamble => 0 | .possibleLock => 1 | .locked => 2),
   (0x0001, s.sync.sample_counter), (0x0002, s.sync.last_valid_preamble), (0x0003, s.sync.preamble_index),
   (0x0004, s.sync.fail_count.setWidth 64), (0x0005, if s.sync.polarity_lock then 1 else 0),
   (0x0006, if s.sync.tow_known then 1 else 0), (0x0007, s.sync.tow_current_ms.setWidth 64),
   (0x0008, s.sync.tow_preamble_ms.setWidth 64), (0x0009, if s.sync.alarm_sent then 1 else 0),
   (0x000A, if s.sync.frame_sync then 1 else 0), (0x000B, if s.sync.flag_preamble then 1 else 0),
   (0x000C, s.sat_prn.setWidth 64), (0x000D, BitVec.ofNat 64 s.hist.length), (0x000E, s.acc)]
  ++ [(0x0100, s.asm.tow_report.setWidth 64), (0x0101, s.asm.sf1_tow.setWidth 64), (0x0102, s.asm.sf2_tow.setWidth 64),
   (0x0103, s.asm.paged_tow.setWidth 64), (0x0104, s.asm.last_sfid.setWidth 64),
   (0x0105, if s.asm.iono_valid then 1 else 0), (0x0106, if s.asm.utc_valid then 1 else 0)]
  ++ [(0x0200, s.eph.A_f0), (0x0201, s.eph.A_f1), (0x0202, s.eph.A_f2), (0x0203, s.eph.TGD), (0x0204, s.eph.Toc),
   (0x0205, s.eph.Toe), (0x0206, s.eph.M_0), (0x0207, s.eph.delta_n), (0x0208, s.eph.ecc), (0x0209, s.eph.sqrtA),
   (0x020A, s.eph.OMEGA_0), (0x020B, s.eph.omega), (0x020C, s.eph.OMEGA_dot), (0x020D, s.eph.i_0), (0x020E, s.eph.IDOT),
   (0x020F, s.eph.Cuc), (0x0210, s.eph.Cus), (0x0211, s.eph.Cic), (0x0212, s.eph.Cis), (0x0213, s.eph.Crc),
   (0x0214, s.eph.Crs), (0x0215, s.eph.WN), (0x0216, s.eph.URA), (0x0217, s.eph.IODEC),
   (0x0218, if s.eph.L5_flag then 1 else 0), (0x0219, if s.eph.S_flag then 1 else 0)]
  ++ [(0x0300, s.derived.satpos_X), (0x0301, s.derived.satpos_Y), (0x0302, s.derived.satpos_Z),
   (0x0303, s.derived.satvel_X), (0x0304, s.derived.satvel_Y), (0x0305, s.derived.satvel_Z),
   (0x0306, s.derived.sat_clk_drift), (0x0307, s.derived.sat_dtr)]
  ++ [(0x0400, s.utc.A0), (0x0401, s.utc.A1), (0x0402, s.utc.t_OT), (0x0403, s.utc.WN_T), (0x0404, s.utc.DeltaT_LS),
   (0x0405, s.utc.WN_LSF), (0x0406, s.utc.DN), (0x0407, s.utc.DeltaT_LSF)]
  ++ [(0x0500, s.iono.alpha0), (0x0501, s.iono.alpha1), (0x0502, s.iono.alpha2), (0x0503, s.iono.alpha3),
   (0x0504, s.iono.beta0), (0x0505, s.iono.beta1), (0x0506, s.iono.beta2), (0x0507, s.iono.beta3)]
  ++ [(0x0600, s.eop.t_EOP), (0x0601, s.eop.PM_X), (0x0602, s.eop.PM_X_dot), (0x0603, s.eop.PM_Y),
   (0x0604, s.eop.PM_Y_dot), (0x0605, s.eop.dUT1), (0x0606, s.eop.dUT1_dot)]

/-- The parameters of `u` are those of `s` with a group of the field table loaded from the frame of `s`: every register the group
names holds its raw field scaled, a flag the field's low bit, and every other parameter is as before (43_msg_assembler.md R202,
R204). -/
def groupLoaded (s u : State) (g : List Entry) : Prop :=
  (∀ e ∈ g, readParam u e.reg =
    match e.reg with
    | .flag _ => if readField s.frame e.signed e.slices % 2 = 1 then 1 else 0
    | .eph _ | .utc _ | .iono _ | .eop _ => fmul (i2f (readField s.frame e.signed e.slices)) e.scale)
  ∧ ∀ reg, (∀ e ∈ g, e.reg ≠ reg) → readParam u reg = readParam s reg

/-- The raw value of the last field a group's load reads, as `ACC` holds it; `start` for an empty group (R203). -/
def lastRaw (s : State) (g : List Entry) (start : BitVec 64) : BitVec 64 :=
  match g.getLast? with
  | none => start
  | some e => BitVec.ofInt 64 (readField s.frame e.signed e.slices)

/-- How many payload words a command's OK response carries (30_encoding.md R80). -/
def okPayloadWords : Instr → Nat
  | .nop | .reset | .setsat _ | .sbw _ _ | .deint | .polcor | .vit | .fbw _ _ | .wrp _ _ => 0
  | .sym _ | .sbr _ | .cdec | .sfdec | .rdb _ => 1
  | .rdu _ _ | .rds _ _ | .rdc _ _ | .chkt _ | .clkrel _ | .clkdrift _ | .satpos _ | .utctime _ _ | .rdst _ => 2

/-! ## Commands in sequence -/

/-- The state after a list of commands; none if one of them does not answer a next state. -/
def runAll : List Instr → State → Option State
  | [], s => some s
  | i :: is, s =>
    match exec i s with
    | .next t => runAll is t
    | .fault _ => none
    | .refused _ => none

end Sys2Proof.Machine
end

