-- ==== Sys2Proof/Certificates/Slice0/Obligations.lean ====
section
/-! DEFINITION. The statements for the provers. A statement about a command says, by an equation of the next state, its effect,
its response and everything it leaves unchanged; `{ s with … }.respond …` names every field that may differ. -/

open Sys2Proof Sys2Proof.Machine

/-! ## Encoding -/

/-- Words written out from the spec's encodings decode to the commands and the errors they stand for (30_encoding.md R71 to R77,
with the examples of R182, R184, R187, R142, R143, R246, R301, R302, R315, R318). -/
def Obligations.SpecWordsDecode : Prop :=
  decode ⟨0x00000000, []⟩ = .ok .nop
  ∧ decode ⟨0x02000300, []⟩ = .ok (.setsat 3)
  ∧ decode ⟨0x03000000, [0xFFFFFFFF, 0x00000001, 0x00000002, 0x3FF00000, 0x00000000, 7, 8, 9]⟩
      = .ok (.sym ⟨0xFFFFFFFF, 0x0000000100000002, 0x3FF0000000000000, 7, 8, 9⟩)
  ∧ decode ⟨0x100005FF, []⟩ = .ok (.sbw 5 0xFF)
  ∧ decode ⟨0x11000500, []⟩ = .ok (.sbr 5)
  ∧ decode ⟨0x20001F01, []⟩ = .ok (.fbw 31 1)
  ∧ decode ⟨0x21001C02, []⟩ = .ok (.rdu 28 2)
  ∧ decode ⟨0x24009B00, []⟩ = .ok (.rdb 155)
  ∧ decode ⟨0x28000000, []⟩ = .ok .sfdec
  ∧ decode ⟨0x30000000, [0x41127500, 0x00000000]⟩ = .ok (.chkt 0x4112750000000000)
  ∧ decode ⟨0x38000000, [0x411A5E00, 0x00000000, 0x00000834]⟩ = .ok (.utctime 0x411A5E0000000000 2100)
  ∧ decode ⟨0x40000C00, []⟩ = .ok (.rdst 0x000C)
  ∧ decode ⟨0x41020800, [0x3F847AE1, 0x47AE147B]⟩ = .ok (.wrp 0x0208 0x3F847AE147AE147B)
  ∧ decode ⟨0x04000000, [0, 0]⟩ = .error .illegalOpcode
  ∧ decode ⟨0x10FFFF00, [0]⟩ = .error .badLength
  ∧ decode ⟨0x01000001, []⟩ = .error .reservedNonzero

/-- No bit of an encoding is dropped: every command, with every operand, is what its encoding decodes to (30_encoding.md R71 to
R75). It holds for operands outside their ranges too by the model's own division of R76: `decode` makes R76's first three checks,
and its fourth, the operand range that raises BAD_OPERAND, stands in the command's meaning (log entry 17, DEDUCED). -/
def Obligations.DecodeOfEncode : Prop := ∀ i : Instr, decode (encode i) = .ok i

/-- A command has one packet: what decodes to a command is that command's encoding (30_encoding.md R77: no encodings that execute
as another command). -/
def Obligations.EncodeOfDecode : Prop := ∀ (p : Packet) (i : Instr), decode p = .ok i → encode i = p

/-- The error priority of a whole packet, from the ranges and tables of the rules (60_exceptions.md R310 to R318): the response
echoes the opcode and carries the first error in the order of R318; after an error the state is what it was, the response is one
word `opcode ++ code ++ 0x0000`, and the packet is consumed whole. -/
def Obligations.PacketErrorPriority : Prop :=
  ∀ (s s' : State) (p : Packet), fetch s = some (p, s') →
    ∃ t r, step s = .next t
      ∧ t.responses s'.active = s'.responses s'.active ++ [r]
      ∧ t.responses (otherPort s'.active) = s'.responses (otherPort s'.active)
      ∧ opcodeField r.header = opcodeField p.header
      ∧ (statusField r).toNat = statusOf p
      ∧ (statusOf p ≠ 0 →
          t.sansResponses = s'.sansResponses
          ∧ r = ⟨opcodeField p.header ++ BitVec.ofNat 8 (statusOf p) ++ (0 : BitVec 16), []⟩)

/-! ## The step -/

/-- A step runs the decoded command: the packet the fetch takes, decoded, is executed in the state the fetch leaves; in particular
an encoded command at the head of port A with port B empty (20_memory.md R60, R61). -/
def Obligations.StepRunsDecodedCommand : Prop :=
  (∀ (s s' : State) (p : Packet) (i : Instr), fetch s = some (p, s') → decode p = .ok i → step s = exec i s')
  ∧ ∀ (s : State) (i : Instr), s.portB = [] →
      step { s with portA := encode i :: s.portA } = exec i { s with active := .A }

/-- Every step answers a next state. With nothing pending it is the same state; else the oldest packet of one port is consumed,
that port gets one more response, and the other port's queue and responses stay as they are (20_memory.md R60, R61, R63;
30_encoding.md R78; 60_exceptions.md R336). -/
def Obligations.StepTakesOneCommandAndAnswersIt : Prop :=
  ∀ s : State, ∃ t, step s = .next t
    ∧ ((s.portA = [] ∧ s.portB = [] ∧ t = s)
      ∨ (∃ p r, s.portA = p :: t.portA ∧ t.respA = s.respA ++ [r] ∧ t.portB = s.portB ∧ t.respB = s.respB)
      ∨ (∃ p r, s.portB = p :: t.portB ∧ t.respB = s.respB ++ [r] ∧ t.portA = s.portA ∧ t.respA = s.respA))

/-- Every command completes with exactly one response, on the port that issued it: opcode, status, a zero byte, the number of
payload words, then those words (30_encoding.md R78 to R80). The status is 4 exactly for an operand outside its range
(60_exceptions.md R313) and 0 otherwise, and the payload count is that of R80's table. -/
def Obligations.EveryCommandGetsOneResponse : Prop :=
  ∀ (i : Instr) (s : State), ∃ t r, exec i s = .next t
    ∧ t.responses s.active = s.responses s.active ++ [r]
    ∧ t.responses (otherPort s.active) = s.responses (otherPort s.active)
    ∧ opcodeField r.header = i.op.code
    ∧ (statusField r).toNat = (if i.wf then 0 else 4)
    ∧ r.header.extractLsb' 8 8 = 0
    ∧ (countField r).toNat = r.payload.length
    ∧ r.payload.length = (if i.wf then okPayloadWords i else 0)

/-- Which commands write which state; everything not named for a command it leaves as it is (10_state.md R33 to R44). No command
writes the pending packets, the parameters (R47) or the model's own two fields. -/
def Obligations.WritersOfEachRegister : Prop :=
  ∀ (i : Instr) (s t : State), exec i s = .next t →
    (i.op ∉ [.sym, .reset, .setsat] → t.sync = s.sync)
    ∧ (i.op ∉ [.setsat] → t.sat_prn = s.sat_prn)
    ∧ (i.op ∉ [.sym, .setsat] → t.hist = s.hist)
    ∧ (i.op ∉ [.sbw, .deint, .polcor, .cdec, .sym] → t.symbuf = s.symbuf)
    ∧ (i.op ∉ [.vit, .cdec, .fbw, .sym] → t.frame = s.frame)
    ∧ (i.op ∉ [.rdu, .rds, .rdc, .rdb, .sfdec, .cdec, .sym] → t.acc = s.acc)
    ∧ (i.op ∉ [.sfdec, .cdec, .sym, .setsat] → t.asm = s.asm)
    ∧ (i.op ∉ [.sfdec, .cdec, .sym, .wrp, .setsat] →
        t.eph = s.eph ∧ t.utc = s.utc ∧ t.iono = s.iono ∧ t.eop = s.eop)
    ∧ (i.op ∉ [.satpos, .clkdrift, .setsat] → t.derived = s.derived)
    ∧ (i.op ∉ [.sym] → t.out = s.out ∧ t.trk = s.trk)
    ∧ (i.op ∉ [.sfdec, .cdec, .sym] → t.tlm = s.tlm)
    ∧ t.portA = s.portA ∧ t.portB = s.portB ∧ t.params = s.params ∧ t.active = s.active ∧ t.electionCount = s.electionCount

/-! ## Reset values and the invariant -/

/-- The power-on state (10_state.md R45; 70_reset_and_hazards.md R340): every register of the index map reads 0, the buffers are
zero, the history, the queues and the channels are empty. R45 marks all values but that of `stat` as the spec's own choice
("all other values are this spec's choice"). -/
def Obligations.PowerOnValues : Prop :=
  (∀ x ∈ registerTable State.reset, x.2 = 0)
  ∧ State.reset.sync.stat = .noPreamble
  ∧ State.reset.hist = []
  ∧ State.reset.symbuf = List.replicate 584 0
  ∧ State.reset.frame = List.replicate 292 false
  ∧ State.reset.portA = [] ∧ State.reset.portB = []
  ∧ State.reset.respA = [] ∧ State.reset.respB = []
  ∧ State.reset.out = [] ∧ State.reset.tlm = [] ∧ State.reset.trk = []

/-- The power-on state satisfies the invariant. -/
def Obligations.PowerOnSatisfiesInvariant : Prop := Invariant State.reset

/-- Every step, whatever is pending and whatever the parameters, keeps `Invariant`: buffer sizes and ranges, the failure
counter's bounds, the one-shot flags 0, `tow_known` only under `frame_sync` only in LOCKED, a full history in LOCKED, and no time
of week while none is known. -/
def Obligations.StepKeepsInvariant : Prop := ∀ s t : State, Invariant s → step s = .next t → Invariant t

/-! ## NOP, RESET, SETSAT -/

/-- NOP: an OK response and nothing else (40_frame_sync.md R128). -/
def Obligations.NopOnlyResponds : Prop := ∀ s : State, exec .nop s = .next (s.respond 0x00 [])

/-- RESET clears the twelve Frame Synchronizer registers and nothing else (40_frame_sync.md R125, R126). -/
def Obligations.ResetClearsDecoderState : Prop :=
  ∀ s : State, exec .reset s = .next (State.respond
    { s with sync :=
        { stat := .noPreamble, sample_counter := 0, last_valid_preamble := 0, preamble_index := 0, fail_count := 0,
          polarity_lock := false, tow_known := false, tow_current_ms := 0, tow_preamble_ms := 0, alarm_sent := false,
          frame_sync := false, flag_preamble := false } }
    0x01 [])

/-- SETSAT leaves the power-on state but for `sat_prn`, which takes the operand, and `SYMBUF`, `FRAME`, `ACC`, which it does not
clear (40_frame_sync.md R127); streams, channels and parameters are no per-satellite state. -/
def Obligations.SetsatRestoresPowerOnState : Prop :=
  ∀ (s : State) (prn : BitVec 16), exec (.setsat prn) s = .next (State.respond
    { State.reset with
        sat_prn := prn.setWidth 32, symbuf := s.symbuf, frame := s.frame, acc := s.acc
        portA := s.portA, portB := s.portB, respA := s.respA, respB := s.respB
        out := s.out, tlm := s.tlm, trk := s.trk
        active := s.active, electionCount := s.electionCount, params := s.params }
    0x02 [])

/-! ## SYM -/

/-- SYM appends its sign decision, keeping the last 601, and counts the symbol; satellite, derived outputs and parameters of the
instance are as before (40_frame_sync.md R103, R104). -/
def Obligations.SymPushesSignAndCounts : Prop :=
  ∀ (r : Symbol) (s : State), ∃ t, exec (.sym r) s = .next t
    ∧ t.hist = historyAfter s r
    ∧ t.sync.sample_counter = s.sync.sample_counter + 1
    ∧ t.sat_prn = s.sat_prn ∧ t.derived = s.derived ∧ t.params = s.params

/-- The watchdog (40_frame_sync.md R106): in every state of the synchronizer, more than 12000 symbols after the last valid preamble
and not before, one alarm is emitted and latched. -/
def Obligations.WatchdogFiresOnce : Prop :=
  ∀ (r : Symbol) (s : State), ∃ t, exec (.sym r) s = .next t
    ∧ (if s.sync.alarm_sent = false ∧ 12000 < (s.sync.sample_counter + 1 - s.sync.last_valid_preamble).toNat then
        t.trk = s.trk ++ [s.params.ALARM_CODE] ∧ t.sync.alarm_sent = true
      else t.trk = s.trk ∧ t.sync.alarm_sent = s.sync.alarm_sent)

/-- Once sent, the alarm stays latched and is not sent again under any command but RESET and SETSAT, which clear the latch
(10_state.md R30; 60_exceptions.md R321). -/
def Obligations.AlarmStaysLatched : Prop :=
  ∀ (i : Instr) (s t : State), exec i s = .next t →
    (i.op ∈ [.reset, .setsat] → t.sync.alarm_sent = false)
    ∧ (i.op ∉ [.reset, .setsat] → s.sync.alarm_sent = true → t.sync.alarm_sent = true ∧ t.trk = s.trk)

/-- The transitions of `stat` are those of 40_frame_sync.md R112 and no others, over all commands; POSSIBLE_LOCK never re-records
its index. The spec marks that list as derived from its rules. -/
def Obligations.StatTransitions : Prop :=
  State.reset.sync.stat = .noPreamble
  ∧ ∀ (i : Instr) (s t : State), exec i s = .next t →
      (i.op ∈ [.reset, .setsat] → t.sync.stat = .noPreamble)
      ∧ (i.op ∉ [.sym, .reset, .setsat] → t.sync.stat = s.sync.stat)
      ∧ (i.op = .sym → t.sync.stat ≠ s.sync.stat →
          (s.sync.stat, t.sync.stat) ∈
            [(.noPreamble, .possibleLock), (.possibleLock, .locked), (.possibleLock, .noPreamble), (.locked, .noPreamble)])
      ∧ (s.sync.stat = .possibleLock → t.sync.stat = .possibleLock → t.sync.preamble_index = s.sync.preamble_index)

/-- The correlator (40_frame_sync.md R107, R108): over a history of at least sixteen signs the correlation is an even number in
-16..16, it is +16 exactly when the last sixteen signs are the preamble and -16 exactly when they are its opposite, and a hit is
one of the two. -/
def Obligations.CorrelationMeansFullAgreement : Prop :=
  ∀ h : List Sign, 16 ≤ h.length →
    (-16 ≤ correlation h ∧ correlation h ≤ 16 ∧ correlation h % 2 = 0)
    ∧ (correlation h = 16 ↔ h.drop (h.length - 16) = preambleSigns)
    ∧ (correlation h = -16 ↔ h.drop (h.length - 16) = preambleSigns.map oppositeSign)
    ∧ (isHit h = true ↔ (preambleHit h).isSome = true)

/-- A SYM in NO_PREAMBLE (40_frame_sync.md R113): on a hit the index is recorded, one decode is attempted and the state becomes
POSSIBLE_LOCK; without one nothing happens. -/
def Obligations.NoPreambleCycle : Prop :=
  ∀ (r : Symbol) (s : State), s.sync.stat = .noPreamble → ∃ t, exec (.sym r) s = .next t
    ∧ t.sync.polarity_lock = s.sync.polarity_lock ∧ t.sync.fail_count = s.sync.fail_count
    ∧ t.sync.last_valid_preamble = s.sync.last_valid_preamble ∧ t.sync.frame_sync = s.sync.frame_sync
    ∧ t.sync.flag_preamble = false ∧ t.sync.tow_known = s.sync.tow_known
    ∧ match preambleHit (historyAfter s r) with
      | none =>
        t.sync.stat = .noPreamble ∧ t.sync.preamble_index = s.sync.preamble_index ∧ decoderUntouched s t
      | some inv =>
        t.sync.stat = .possibleLock ∧ t.sync.preamble_index = s.sync.sample_counter + 1
        ∧ attempted s t inv (historyAfter s r)

/-- A SYM in POSSIBLE_LOCK (40_frame_sync.md R114 to R116): with a full history and a hit, a distance of exactly 600 symbols locks,
a greater one falls back and forgets that the time is known, a smaller one waits; otherwise nothing happens. The time of week
itself moves only by the ordinary advance of R120. -/
def Obligations.PossibleLockCycle : Prop :=
  ∀ (r : Symbol) (s : State), s.sync.stat = .possibleLock → ∃ t, exec (.sym r) s = .next t
    ∧ t.sync.last_valid_preamble = s.sync.last_valid_preamble ∧ t.sync.frame_sync = s.sync.frame_sync
    ∧ t.sync.flag_preamble = false ∧ t.sync.tow_preamble_ms = s.sync.tow_preamble_ms
    ∧ t.sync.tow_current_ms
        = (if t.sync.tow_known then s.sync.tow_current_ms + s.params.SYMBOL_PERIOD_MS else s.sync.tow_current_ms)
    ∧ let h := historyAfter s r
      let n := s.sync.sample_counter + 1
      let waits :=
        t.sync.stat = .possibleLock ∧ t.sync.preamble_index = s.sync.preamble_index
        ∧ t.sync.polarity_lock = s.sync.polarity_lock ∧ t.sync.fail_count = s.sync.fail_count
        ∧ t.sync.tow_known = s.sync.tow_known ∧ decoderUntouched s t
      match preambleHit h with
      | none => waits
      | some inv =>
        if h.length ≤ 600 then waits
        else if (n - s.sync.preamble_index).toNat = 600 then
          t.sync.stat = .locked ∧ t.sync.preamble_index = n ∧ t.sync.polarity_lock = inv ∧ t.sync.fail_count = 0
          ∧ t.sync.tow_known = s.sync.tow_known ∧ decoderRan s t inv h
        else if 600 < (n - s.sync.preamble_index).toNat then
          t.sync.stat = .noPreamble ∧ t.sync.tow_known = false ∧ t.sync.preamble_index = s.sync.preamble_index
          ∧ t.sync.polarity_lock = s.sync.polarity_lock ∧ t.sync.fail_count = s.sync.fail_count ∧ decoderUntouched s t
        else waits

/-- A SYM in LOCKED (40_frame_sync.md R117, R118): one attempt every 600 symbols, paced by the counter; an identifier in 1..4 is a
success; any other outcome is a failure, and the third in a row is the loss of sync. -/
def Obligations.LockedCycle : Prop :=
  ∀ (r : Symbol) (s : State), s.sync.stat = .locked → ∃ t, exec (.sym r) s = .next t
    ∧ t.sync.polarity_lock = s.sync.polarity_lock
    ∧ let h := historyAfter s r
      let n := s.sync.sample_counter + 1
      if n ≠ s.sync.preamble_index + 600 then
        t.sync.stat = .locked ∧ t.sync.preamble_index = s.sync.preamble_index ∧ t.sync.fail_count = s.sync.fail_count
        ∧ t.sync.last_valid_preamble = s.sync.last_valid_preamble ∧ t.sync.frame_sync = s.sync.frame_sync
        ∧ t.sync.flag_preamble = false ∧ t.sync.tow_known = s.sync.tow_known ∧ decoderUntouched s t
      else
        t.sync.preamble_index = n ∧ attempted s t s.sync.polarity_lock h
        ∧ if 600 ≤ h.length ∧ windowIdentifier s s.sync.polarity_lock h ≠ 0 then
            t.sync.stat = .locked ∧ t.sync.fail_count = 0 ∧ t.sync.flag_preamble = true
            ∧ t.sync.last_valid_preamble = n ∧ t.sync.frame_sync = true
          else
            t.sync.fail_count = s.sync.fail_count + 1 ∧ t.sync.flag_preamble = false
            ∧ t.sync.last_valid_preamble = s.sync.last_valid_preamble
            ∧ if 2 < (s.sync.fail_count + 1).toNat then
                t.sync.stat = .noPreamble ∧ t.sync.frame_sync = false ∧ t.sync.tow_known = false
                ∧ t.sync.tow_current_ms = 0 ∧ t.sync.tow_preamble_ms = 0
              else
                t.sync.stat = .locked ∧ t.sync.frame_sync = s.sync.frame_sync ∧ t.sync.tow_known = s.sync.tow_known

/-- Time of week (40_frame_sync.md R118 to R120): latched on a valid-preamble cycle with a nonzero report, untouched on one with a
zero report, advanced by one symbol period on every other cycle while known, zeroed only at the loss of sync. -/
def Obligations.TimeOfWeekBookkeeping : Prop :=
  ∀ (r : Symbol) (s : State), ∃ t, exec (.sym r) s = .next t
    ∧ (t.sync.flag_preamble = true →
        if t.asm.tow_report = 0 then
          t.sync.tow_current_ms = s.sync.tow_current_ms ∧ t.sync.tow_preamble_ms = s.sync.tow_preamble_ms
          ∧ t.sync.tow_known = s.sync.tow_known
        else
          t.sync.tow_current_ms = BitVec.ofNat 32 (t.asm.tow_report.toNat * 1000)
          ∧ t.sync.tow_preamble_ms = BitVec.ofNat 32 (t.asm.tow_report.toNat * 1000) ∧ t.sync.tow_known = true)
    ∧ (t.sync.flag_preamble = false → t.sync.tow_known = true →
        s.sync.tow_known = true
        ∧ t.sync.tow_current_ms
            = BitVec.ofNat 32 (s.sync.tow_current_ms.toNat + s.params.SYMBOL_PERIOD_MS.toNat)
        ∧ t.sync.tow_preamble_ms = s.sync.tow_preamble_ms)
    ∧ (t.sync.flag_preamble = false → t.sync.tow_known = false →
        (t.sync.tow_current_ms = s.sync.tow_current_ms ∧ t.sync.tow_preamble_ms = s.sync.tow_preamble_ms)
        ∨ (s.sync.stat = .locked ∧ t.sync.stat = .noPreamble ∧ t.sync.tow_current_ms = 0 ∧ t.sync.tow_preamble_ms = 0))

/-- The output record (40_frame_sync.md R121): one exactly when the time of week is known after steps 5 and 6, with the time, the
validity flag and the phase corrected by PI under `polarity_lock`; the other fields are copied. The spec marks the value of PI as
general knowledge, not in its source (00_scope.md R9; 44_orbit_clock.md R243). -/
def Obligations.OutputRecord : Prop :=
  ∀ (r : Symbol) (s : State), ∃ t, exec (.sym r) s = .next t
    ∧ if t.sync.tow_known = true then
        t.out = s.out ++
          [{ prompt_I := r.prompt_I, sample_index := r.sample_index
             carrier_phase := if t.sync.polarity_lock then fadd r.carrier_phase 0x400921FB54442D28 else r.carrier_phase
             prn := r.prn, tow_ms := t.sync.tow_current_ms, flags := 1 }]
      else t.out = s.out

/-- The decode window (40_frame_sync.md R109, R110): the 584 signs before the sixteen newest, oldest first, each as +1 or -1, and
negated when the stream is inverted. -/
def Obligations.DecodeWindowIsTheSubframeBeforeThePreamble : Prop :=
  ∀ (inv : Bool) (h : List Sign), 600 ≤ h.length →
    (windowSymbols inv h).length = 584
    ∧ ∀ j, j < 584 →
        symAt (windowSymbols inv h) j
          = (if (h[h.length - 600 + j]? = some .minus) = (inv = true) then 1 else -1)

/-- The SYM response word (30_encoding.md R80; 40_frame_sync.md R122), bit by bit, from what the command did. -/
def Obligations.SymResponseWord : Prop :=
  ∀ (r : Symbol) (s : State), ∃ t w, exec (.sym r) s = .next t
    ∧ t.responses s.active = s.responses s.active ++ [⟨0x03000001, [w]⟩]
    ∧ w.getLsbD 0 = t.sync.tow_known
    ∧ w.extractLsb' 1 2 = (match t.sync.stat with | .noPreamble => 0 | .possibleLock => 1 | .locked => (2 : BitVec 2))
    ∧ w.getLsbD 3 = t.sync.flag_preamble
    ∧ w.getLsbD 4 = decide (t.trk.length = s.trk.length + 1)
    ∧ w.getLsbD 5 = (attemptOf s r).isSome
    ∧ w.extractLsb' 6 3 =
        (match attemptOf s r with
          | none => (0 : BitVec 3)
          | some inv => BitVec.ofNat 3 (windowIdentifier s inv (historyAfter s r)).val)
    ∧ w.extractLsb' 9 23 = 0

/-- What SYM reads of a Symbol (30_encoding.md R74): two Symbols of the same sign leave the same state but for the channel OUT, and
`tow_ms` and `flags` are ignored altogether. -/
def Obligations.SymReadsOnlyTheSign : Prop :=
  (∀ (r r' : Symbol) (s : State), (r.prompt_I.toInt < 0 ↔ r'.prompt_I.toInt < 0) →
    ∃ t t', exec (.sym r) s = .next t ∧ exec (.sym r') s = .next t' ∧ { t' with out := t.out } = t)
  ∧ ∀ (r : Symbol) (tow flags : BitVec 32) (s : State),
      ∃ t, exec (.sym { r with tow_ms := tow, flags := flags }) s = .next t ∧ exec (.sym r) s = .next t

/-- With the default SFID_MAP and its two-bit field every frame has an identifier in 1..4, so with a full history an attempt in
LOCKED never fails and the loss of sync is unreachable (43_msg_assembler.md R205, marked there as derived). -/
def Obligations.DefaultIdentifierIsNeverZero : Prop :=
  (∀ frame, frameSfid defaultParams frame ≠ 0)
  ∧ ∀ (r : Symbol) (s : State), s.params = defaultParams → s.hist.length = 601 → s.sync.stat = .locked →
      ∃ t, exec (.sym r) s = .next t ∧ t.sync.stat = .locked ∧ (t.sync.fail_count = s.sync.fail_count ∨ t.sync.fail_count = 0)

/-! ## Convolutional Decoder -/

/-- SBW (41_conv_decoder.md R142): the element takes the two's-complement operand, -128 as -127, and no other element changes; an
index above 583 is BAD_OPERAND. -/
def Obligations.SoftSymbolWrite : Prop :=
  ∀ (s : State) (index : BitVec 16) (value : BitVec 8), s.spacesWf = true →
    (583 < index.toNat → exec (.sbw index value) s = .next (s.raise 0x10 .badOperand))
    ∧ (index.toNat ≤ 583 → ∃ u, exec (.sbw index value) s = .next (State.respond u 0x10 [])
        ∧ u = { s with symbuf := u.symbuf } ∧ u.symbuf.length = 584
        ∧ symAt u.symbuf index.toNat = (if value = 0x80 then -127 else value.toInt)
        ∧ ∀ k, k ≠ index.toNat → symAt u.symbuf k = symAt s.symbuf k)

/-- SBR (41_conv_decoder.md R143): the element, sign-extended to 32 bits; nothing is written. -/
def Obligations.SoftSymbolRead : Prop :=
  ∀ (s : State) (index : BitVec 16), s.spacesWf = true →
    (583 < index.toNat → exec (.sbr index) s = .next (s.raise 0x11 .badOperand))
    ∧ (index.toNat ≤ 583 → ∃ w, exec (.sbr index) s = .next (s.respond 0x11 [w]) ∧ w.toInt = symAt s.symbuf index.toNat)

/-- DEINT is the block transpose of R144, and the transpose and the interleave function invert each other (41_conv_decoder.md R144
to R146). R146 marks the law `interleave (deinterleave x) = x` as derived. -/
def Obligations.DeinterleaveIsTheBlockTranspose : Prop :=
  (∀ s : State, ∃ u, exec .deint s = .next (State.respond u 0x12 [])
    ∧ u = { s with symbuf := u.symbuf } ∧ u.symbuf.length = 584
    ∧ ∀ r c, r < 8 → c < 73 → symAt u.symbuf (c * 8 + r) = symAt s.symbuf (r * 73 + c))
  ∧ ∀ x : List Int, x.length = 584 → deinterleave (interleave x) = x ∧ interleave (deinterleave x) = x

/-- POLCOR negates the symbols at the odd 0-based indices and is its own inverse (41_conv_decoder.md R148). -/
def Obligations.PolarityCorrection : Prop :=
  ∀ s : State, ∃ u, exec .polcor s = .next (State.respond u 0x13 [])
    ∧ u = { s with symbuf := u.symbuf } ∧ u.symbuf.length = s.symbuf.length
    ∧ (∀ i, symAt u.symbuf i = (if i % 2 = 1 then -symAt s.symbuf i else symAt s.symbuf i))
    ∧ correctPolarity u.symbuf = s.symbuf

/-- The code (41_conv_decoder.md R149, R150): the two code bits as exclusive-ors of the taps, the next state, the only two
predecessors of a state, and the impulse response of R149's example. -/
def Obligations.ConvolutionalCode : Prop :=
  (∀ (u : Bool) (s : Nat), s < 64 →
    encodeBit u s =
      (u ^^ s.testBit 5 ^^ s.testBit 4 ^^ s.testBit 3 ^^ s.testBit 0, u ^^ s.testBit 4 ^^ s.testBit 3 ^^ s.testBit 1 ^^ s.testBit 0)
    ∧ nextState u s = u.toNat * 32 + s / 2)
  ∧ (∀ (u : Bool) (p s' : Nat), p < 64 → s' < 64 →
      (nextState u p = s' ↔ u = s'.testBit 5 ∧ (p = s' % 32 * 2 ∨ p = s' % 32 * 2 + 1)))
  ∧ convEncode 0 [true, false, false, false, false, false, false]
      = [(true, true), (true, false), (true, true), (true, true), (false, false), (false, true), (true, true)]

/-- VIT computes R151 to R156 as the spec indexes them: metrics from state 0, add-compare-select with ties to the lower
predecessor, the traceback from the lowest end state of least metric, bit `k` into `FRAME[k + 1]`; only FRAME is written. The spec
marks as derived that the end state is reached (R154) and which the predecessors of a state are (R150). -/
def Obligations.VitFollowsTheSpecAlgorithm : Prop :=
  ∀ s : State, s.symbuf.length = 584 → ∃ u e, exec .vit s = .next (State.respond u 0x14 [])
    ∧ u = { s with frame := u.frame } ∧ u.frame.length = 292
    ∧ e < 64 ∧ pathMetric s.symbuf 292 e ≠ none
    ∧ (∀ x, x < 64 → metricLess (pathMetric s.symbuf 292 x) (pathMetric s.symbuf 292 e) = false)
    ∧ (∀ x, x < e → metricLess (pathMetric s.symbuf 292 e) (pathMetric s.symbuf 292 x) = true)
    ∧ ∀ k, k < 292 → frameBit u.frame (k + 1) = (tracedState s.symbuf e (291 - k)).testBit 5

/-- An error-free encoding of any 292 bits from state 0, with any amplitude 1..127, decodes to exactly those bits
(41_conv_decoder.md R161, marked there as derived). -/
def Obligations.ErrorFreeEncodingDecodesExactly : Prop :=
  ∀ (s : State) (m : List Bool) (a : Int), m.length = 292 → 1 ≤ a → a ≤ 127 →
    s.symbuf = symbolsOf a (convEncode 0 m) →
    exec .vit s = .next (State.respond { s with frame := m } 0x14 [])

/-- The decoder is a maximum-likelihood decoder (00_scope.md, glossary "Viterbi decoding"): for any 584 soft symbols no message of
292 bits costs less than the decoded one, in the cost of R151. -/
def Obligations.ViterbiIsMaximumLikelihood : Prop :=
  ∀ (buf : List Int) (m : List Bool), buf.length = 584 → m.length = 292 →
    (viterbi buf).length = 292 ∧ messageCost buf (viterbi buf) ≤ messageCost buf m

/-- CDEC is DEINT, POLCOR, VIT and SFDEC one after another (41_conv_decoder.md R165): it leaves the state those four commands leave,
but for the responses, and its own response is SFDEC's identifier. -/
def Obligations.CdecIsTheFourStages : Prop :=
  ∀ s : State, ∃ t v id, exec .cdec s = .next (State.respond t 0x15 [id]) ∧ t.respA = s.respA ∧ t.respB = s.respB
    ∧ runAll [.deint, .polcor, .vit] s = some v ∧ ∃ w, exec .sfdec v = .next (State.respond w 0x28 [id])
    ∧ t.sansResponses = w.sansResponses

/-! ## Bit-Field Codec -/

/-- FBW writes one frame bit and RDB reads one, also into ACC; positions are 1..292 and a written bit is 0 or 1 (42_bitfield.md
R182, R187). -/
def Obligations.FrameBitAccess : Prop :=
  ∀ (s : State) (p : BitVec 16) (b : BitVec 8), s.spacesWf = true →
    (p.toNat = 0 ∨ 292 < p.toNat ∨ 1 < b.toNat → exec (.fbw p b) s = .next (s.raise 0x20 .badOperand))
    ∧ (1 ≤ p.toNat → p.toNat ≤ 292 → b.toNat ≤ 1 → ∃ u, exec (.fbw p b) s = .next (State.respond u 0x20 [])
        ∧ u = { s with frame := u.frame } ∧ u.frame.length = 292
        ∧ frameBit u.frame p.toNat = b.getLsbD 0
        ∧ ∀ q, 1 ≤ q → q ≠ p.toNat → frameBit u.frame q = frameBit s.frame q)
    ∧ (p.toNat = 0 ∨ 292 < p.toNat → exec (.rdb p) s = .next (s.raise 0x24 .badOperand))
    ∧ (1 ≤ p.toNat → p.toNat ≤ 292 →
        exec (.rdb p) s = .next (State.respond
          { s with acc := if frameBit s.frame p.toNat then 1 else 0 } 0x24 [if frameBit s.frame p.toNat then 1 else 0]))

/-- RDU, RDS and RDC on a valid slice, bit by bit (42_bitfield.md R181, R184 to R186): the slice, `FRAME[start]` its most
significant bit, goes into the low bits of ACC; above it stand zeros, copies of the sign bit, or the old ACC moved up. The response
is ACC, high word first; an invalid slice is BAD_OPERAND. -/
def Obligations.SliceReads : Prop :=
  ∀ (s : State) (a : BitVec 16) (b : BitVec 8),
    (a.toNat = 0 ∨ b.toNat = 0 ∨ 64 < b.toNat ∨ 292 < a.toNat + b.toNat - 1 →
      exec (.rdu a b) s = .next (s.raise 0x21 .badOperand) ∧ exec (.rds a b) s = .next (s.raise 0x22 .badOperand)
      ∧ exec (.rdc a b) s = .next (s.raise 0x23 .badOperand))
    ∧ (1 ≤ a.toNat → 1 ≤ b.toNat → b.toNat ≤ 64 → a.toNat + b.toNat - 1 ≤ 292 →
      (∃ x : BitVec 64, exec (.rdu a b) s
          = .next (State.respond { s with acc := x } 0x21 [x.extractLsb' 32 32, x.extractLsb' 0 32])
        ∧ ∀ j, j < 64 →
            x.getLsbD j = (if j < b.toNat then frameBit s.frame (a.toNat + b.toNat - 1 - j) else false))
      ∧ (∃ x : BitVec 64, exec (.rds a b) s
          = .next (State.respond { s with acc := x } 0x22 [x.extractLsb' 32 32, x.extractLsb' 0 32])
        ∧ ∀ j, j < 64 →
            x.getLsbD j =
              (if j < b.toNat then frameBit s.frame (a.toNat + b.toNat - 1 - j) else frameBit s.frame a.toNat))
      ∧ (∃ x : BitVec 64, exec (.rdc a b) s
          = .next (State.respond { s with acc := x } 0x23 [x.extractLsb' 32 32, x.extractLsb' 0 32])
        ∧ ∀ j, j < 64 →
            x.getLsbD j =
              (if j < b.toNat then frameBit s.frame (a.toNat + b.toNat - 1 - j) else s.acc.getLsbD (j - b.toNat))))

/-- Multi-slice reads (42_bitfield.md R188): RDU or RDS of the first slice and RDC of the further ones leave in ACC the unsigned or
signed value of the whole list, whenever it has at most 64 bits; the
spec marks the rule as derived. -/
def Obligations.MultiSliceReads : Prop :=
  ∀ (s : State) (first : Slice) (rest : List Slice),
    (∀ x ∈ first :: rest, x.valid = true) → totalLength (first :: rest) ≤ 64 →
    let further := rest.map (fun x => Instr.rdc (BitVec.ofNat 16 x.start) (BitVec.ofNat 8 x.length))
    (∃ t, runAll (.rdu (BitVec.ofNat 16 first.start) (BitVec.ofNat 8 first.length) :: further) s = some t
      ∧ t.acc = BitVec.ofNat 64 (readUnsigned s.frame (first :: rest)))
    ∧ (∃ t, runAll (.rds (BitVec.ofNat 16 first.start) (BitVec.ofNat 8 first.length) :: further) s = some t
      ∧ t.acc = BitVec.ofInt 64 (readSigned s.frame (first :: rest)))

/-- Round trip of signed fields (42_bitfield.md R189): the two's-complement code of `v` written bit by bit with FBW, the most
significant bit at `start`, is read back as `v` by RDS, for every `v` the field can hold; the spec marks the rule as derived. -/
def Obligations.SignedFieldRoundTrip : Prop :=
  ∀ (s : State) (start n : Nat) (v : Int), s.spacesWf = true → (Slice.mk start n).valid = true →
    -(2 ^ (n - 1) : Int) ≤ v → v < (2 ^ (n - 1) : Int) →
    let writes := (List.range n).map (fun j =>
      Instr.fbw (BitVec.ofNat 16 (start + j)) (BitVec.ofNat 8 ((v % 2 ^ n).toNat / 2 ^ (n - 1 - j) % 2)))
    ∃ t, runAll (writes ++ [.rds (BitVec.ofNat 16 start) (BitVec.ofNat 8 n)]) s = some t ∧ t.acc.toInt = v

/-! ## Message Assembler -/

/-- SFDEC of an unrecognised frame (43_msg_assembler.md R216): `last_sfid` and `tow_report` become 0, ACC holds the raw identifier
field, nothing else changes, and 0 is returned. -/
def Obligations.SfdecUnrecognised : Prop :=
  ∀ s : State, frameSfid s.params s.frame = 0 →
    exec .sfdec s = .next (State.respond
      { s with
          asm := { s.asm with last_sfid := 0, tow_report := 0 }
          acc := BitVec.ofNat 64 (readUnsigned s.frame s.params.FIELD_TABLE.sfid) }
      0x28 [0])

/-- SFDEC of subframe 1 (43_msg_assembler.md R202, R203, R204, R206, R210): the time of week is reported and recorded as subframe
1's, group SF1 is loaded, ACC holds the last field read, nothing is published. Where that field is a flag entry that is signed or has
several bits, the value in ACC is the model's choice (log entry 26). -/
def Obligations.SfdecSubframe1 : Prop :=
  ∀ s : State, frameSfid s.params s.frame = 1 → noRegTwice s.params.FIELD_TABLE.SF1 = true →
    ∃ u, exec .sfdec s = .next (State.respond u 0x28 [1])
      ∧ let tow := BitVec.ofNat 32 (readUnsigned s.frame s.params.FIELD_TABLE.towc * s.params.FIELD_TABLE.TOW_LSB_S)
        u = { s with
                asm := { s.asm with last_sfid := 1, tow_report := tow, sf1_tow := tow }
                acc := lastRaw s s.params.FIELD_TABLE.SF1
                  (BitVec.ofNat 64 (readUnsigned s.frame s.params.FIELD_TABLE.towc))
                eph := u.eph, utc := u.utc, iono := u.iono, eop := u.eop }
        ∧ groupLoaded s u s.params.FIELD_TABLE.SF1

/-- SFDEC of subframe 2 (43_msg_assembler.md R202, R211, R220, R222): as subframe 1 with group SF2, then an Ephemeris snapshot is
published exactly when the three recorded times of week are nonzero. ACC as for subframe 1 (log entry 26). -/
def Obligations.SfdecSubframe2 : Prop :=
  ∀ s : State, frameSfid s.params s.frame = 2 → noRegTwice s.params.FIELD_TABLE.SF2 = true →
    ∃ u, exec .sfdec s = .next (State.respond u 0x28 [2])
      ∧ let tow := BitVec.ofNat 32 (readUnsigned s.frame s.params.FIELD_TABLE.towc * s.params.FIELD_TABLE.TOW_LSB_S)
        u = { s with
                asm := { s.asm with last_sfid := 2, tow_report := tow, sf2_tow := tow }
                acc := lastRaw s s.params.FIELD_TABLE.SF2
                  (BitVec.ofNat 64 (readUnsigned s.frame s.params.FIELD_TABLE.towc))
                eph := u.eph, utc := u.utc, iono := u.iono, eop := u.eop
                tlm := if s.asm.sf1_tow ≠ 0 ∧ tow ≠ 0 ∧ s.asm.paged_tow ≠ 0 then
                    s.tlm ++ [.ephemeris s.sat_prn u.eph s.derived]
                  else s.tlm }
        ∧ groupLoaded s u s.params.FIELD_TABLE.SF2

/-- SFDEC of subframes 3 and 4 (43_msg_assembler.md R202, R212 to R215, R223): the time of week is recorded for every page; message
types 9 and 26 load and publish the UTC model, 11 the ionosphere model with the earth-orientation registers, every other one
nothing; the one-shot flag of what was published is 0 afterwards. -/
def Obligations.SfdecPages : Prop :=
  ∀ (s : State) (id : Fin 5), frameSfid s.params s.frame = id → id = 3 ∨ id = 4 →
    noRegTwice s.params.FIELD_TABLE.MT_UTC = true → noRegTwice s.params.FIELD_TABLE.MT_EOP_IONO = true →
    ∃ u, exec .sfdec s = .next (State.respond u 0x28 [BitVec.ofNat 32 id.val])
      ∧ let tow := BitVec.ofNat 32 (readUnsigned s.frame s.params.FIELD_TABLE.towc * s.params.FIELD_TABLE.TOW_LSB_S)
        let mt := readUnsigned s.frame s.params.FIELD_TABLE.msgid
        let asm := { s.asm with last_sfid := BitVec.ofNat 3 id.val, tow_report := tow, paged_tow := tow }
        if mt = 9 ∨ mt = 26 then
          u = { s with
                  asm := { asm with utc_valid := false }
                  acc := lastRaw s s.params.FIELD_TABLE.MT_UTC (BitVec.ofNat 64 mt)
                  eph := u.eph, utc := u.utc, iono := u.iono, eop := u.eop
                  tlm := s.tlm ++ [.utcModel u.utc] }
          ∧ groupLoaded s u s.params.FIELD_TABLE.MT_UTC
        else if mt = 11 then
          u = { s with
                  asm := { asm with iono_valid := false }
                  acc := lastRaw s s.params.FIELD_TABLE.MT_EOP_IONO (BitVec.ofNat 64 mt)
                  eph := u.eph, utc := u.utc, iono := u.iono, eop := u.eop
                  tlm := s.tlm ++ [.iono u.iono] }
          ∧ groupLoaded s u s.params.FIELD_TABLE.MT_EOP_IONO
        else u = { s with asm := asm, acc := BitVec.ofNat 64 mt }

/-- Publications (43_msg_assembler.md R220, R222 to R224): over all commands, at most one message goes out on TLM, it is a snapshot
of the registers as the command leaves them, an Ephemeris only at a subframe 2 with the three recorded times of week nonzero, an
Iono or UtcModel only at a page. -/
def Obligations.PublicationsAreValidatedSnapshots : Prop :=
  ∀ (i : Instr) (s t : State), exec i s = .next t → t.tlm ≠ s.tlm →
    ∃ m, t.tlm = s.tlm ++ [m]
      ∧ match m with
        | .ephemeris prn e d =>
          prn = t.sat_prn ∧ e = t.eph ∧ d = t.derived ∧ t.asm.last_sfid = 2
          ∧ t.asm.sf1_tow ≠ 0 ∧ t.asm.sf2_tow ≠ 0 ∧ t.asm.paged_tow ≠ 0
        | .iono x => x = t.iono ∧ (t.asm.last_sfid = 3 ∨ t.asm.last_sfid = 4) ∧ t.asm.iono_valid = false
        | .utcModel x => x = t.utc ∧ (t.asm.last_sfid = 3 ∨ t.asm.last_sfid = 4) ∧ t.asm.utc_valid = false

/-- The default FIELD_TABLE is well formed and every field it has, the three of the header and those of the four groups, is one slice of at
most 32 bits (43_msg_assembler.md R200, R210, R211, R213, R214, R230, R235). -/
def Obligations.DefaultFieldTableIsWellFormed : Prop :=
  defaultFieldTable.wf = true
  ∧ ∀ field ∈ [defaultFieldTable.sfid, defaultFieldTable.towc, defaultFieldTable.msgid]
      ++ (defaultFieldTable.SF1 ++ defaultFieldTable.SF2 ++ defaultFieldTable.MT_UTC ++ defaultFieldTable.MT_EOP_IONO).map
          Entry.slices,
      field.length = 1 ∧ totalLength field ≤ 32

/-! ## Orbital/Clock Model -/

/-- CHKT (44_orbit_clock.md R245, R246): one week subtracted beyond +302400 s, added below -302400 s, else the operand unchanged; no
state is read or written. The examples are those of R245 and R246. -/
def Obligations.CheckTWrapsOnce : Prop :=
  (∀ (t : F64) (s : State),
    exec (.chkt t) s = .next (s.respond 0x30
      (words64
        (if flt 0x4112750000000000 t then fsub t 0x4122750000000000
         else if flt t 0xC112750000000000 then fadd t 0x4122750000000000
         else t))))
  ∧ checkT 0x4112750000000000 = 0x4112750000000000
  ∧ checkT 0x4112750066666666 = 0xC11274FF9999999A
  ∧ checkT 0xC112750066666666 = 0x411274FF9999999A
  ∧ checkT 0x412E848000000000 = 0x41181F0000000000

/-- The Kepler solver (44_orbit_clock.md R247, R248): mean motion, time from ephemeris and mean anomaly by their formulas, and the
first iterate of `E <- M + ecc * sin(E)` from `M` whose change is below 1e-12, the 20th where there is none before. -/
def Obligations.KeplerIteration : Prop :=
  ∀ (e : Eph) (t : F64),
    let k := kepler e t
    let M := fadd e.M_0 (fmul k.n k.tk)
    let iterate := fun j => (fun E => fadd M (fmul e.ecc (fsin E)))^[j] M
    let converged := fun j => flt (fabs (fsub (iterate j) (iterate (j - 1)))) 0x3D719799812DEA11
    k.a = fmul e.sqrtA e.sqrtA
    ∧ k.n = fadd (fsqrt (fdiv 0x42F6A866935B5000 (fmul (fmul k.a k.a) k.a))) e.delta_n
    ∧ k.tk = checkT (fsub t e.Toe)
    ∧ ∃ j, 1 ≤ j ∧ j ≤ 20 ∧ k.E = iterate j
        ∧ (∀ i, 1 ≤ i → i < j → converged i = false) ∧ (j < 20 → converged j = true)

/-- CLKREL and CLKDRIFT (44_orbit_clock.md R250 to R253): the relativistic term is only returned; the clock bias, polynomial plus
that term minus the group delay, is stored in `sat_clk_drift` alone and returned. -/
def Obligations.ClockTermsComputeTheirFormulas : Prop :=
  ∀ (t : F64) (s : State),
    let rel := fmul (fmul (fmul 0xBDFE87DEAE177A99 s.eph.ecc) s.eph.sqrtA) (fsin (kepler s.eph t).E)
    let dt := checkT (fsub t s.eph.Toc)
    let poly := fadd (fadd s.eph.A_f0 (fmul s.eph.A_f1 dt)) (fmul s.eph.A_f2 (fmul dt dt))
    let d := fsub (fadd poly rel) s.eph.TGD
    exec (.clkrel t) s = .next (s.respond 0x31 (words64 rel))
    ∧ exec (.clkdrift t) s = .next (State.respond { s with derived := { s.derived with sat_clk_drift := d } } 0x32 (words64 d))

/-- SATPOS (44_orbit_clock.md R255 to R258), formula by formula as the spec writes them; it marks the formulas of R256 and R257 as
general knowledge. -/
def Obligations.SatposComputesItsFormulas : Prop :=
  ∀ (t : F64) (s : State),
    let e := s.eph
    let k := kepler e t
    let sinE := fsin k.E
    let cosE := fcos k.E
    let root := fsqrt (fsub 0x3FF0000000000000 (fmul e.ecc e.ecc))
    let nu := fatan2 (fmul root sinE) (fsub cosE e.ecc)
    let phi := fadd nu e.omega
    let s2 := fsin (fmul 0x4000000000000000 phi)
    let c2 := fcos (fmul 0x4000000000000000 phi)
    let u := fadd (fadd phi (fmul e.Cuc c2)) (fmul e.Cus s2)
    let r := fadd (fadd (fmul k.a (fsub 0x3FF0000000000000 (fmul e.ecc cosE))) (fmul e.Crc c2)) (fmul e.Crs s2)
    let i := fadd (fadd (fadd e.i_0 (fmul e.IDOT k.tk)) (fmul e.Cic c2)) (fmul e.Cis s2)
    let Omdot := fsub e.OMEGA_dot 0x3F131DA7D7CB8D5B
    let Om := fsub (fadd e.OMEGA_0 (fmul Omdot k.tk)) (fmul 0x3F131DA7D7CB8D5B e.Toe)
    let cu := fcos u
    let su := fsin u
    let ci := fcos i
    let si := fsin i
    let cO := fcos Om
    let sO := fsin Om
    let xp := fmul r cu
    let yp := fmul r su
    let X := fsub (fmul xp cO) (fmul (fmul yp ci) sO)
    let Y := fadd (fmul xp sO) (fmul (fmul yp ci) cO)
    let Z := fmul yp si
    let den := fsub 0x3FF0000000000000 (fmul e.ecc cosE)
    let Edot := fdiv k.n den
    let nudot := fdiv (fmul Edot root) den
    let two := fmul 0x4000000000000000 nudot
    let udot := fadd nudot (fmul two (fsub (fmul e.Cus c2) (fmul e.Cuc s2)))
    let rdot := fadd (fmul (fmul (fmul k.a e.ecc) sinE) Edot) (fmul two (fsub (fmul e.Crs c2) (fmul e.Crc s2)))
    let idot := fadd e.IDOT (fmul two (fsub (fmul e.Cis c2) (fmul e.Cic s2)))
    let xpdot := fsub (fmul rdot cu) (fmul (fmul r udot) su)
    let ypdot := fadd (fmul rdot su) (fmul (fmul r udot) cu)
    let dt := checkT (fsub t e.Toc)
    let dtr := fadd (fadd (fadd e.A_f0 (fmul e.A_f1 dt)) (fmul e.A_f2 (fmul dt dt)))
      (fmul (fmul (fmul 0xBDFE87DEAE177A99 e.ecc) e.sqrtA) sinE)
    exec (.satpos t) s = .next (State.respond
      { s with derived :=
          { satpos_X := X, satpos_Y := Y, satpos_Z := Z
            satvel_X := fsub (fadd (fsub (fmul xpdot cO) (fmul (fmul ypdot ci) sO)) (fmul (fmul (fmul yp idot) si) sO))
              (fmul Omdot Y)
            satvel_Y := fadd (fsub (fadd (fmul xpdot sO) (fmul (fmul ypdot ci) cO)) (fmul (fmul (fmul yp idot) si) cO))
              (fmul Omdot X)
            satvel_Z := fadd (fmul ypdot si) (fmul (fmul yp idot) ci)
            sat_clk_drift := s.derived.sat_clk_drift
            sat_dtr := dtr } }
      0x33 (words64 dtr))

/-- A property the spec derives (44_orbit_clock.md R259 b): with every angle, rate, harmonic and the eccentricity +0.0 and `t` = 0.0,
SATPOS puts the satellite at `(a, 0, 0)` with the velocity `(0, a*n - OMEGA_E_DOT*a, 0)`, and `sat_dtr` is the clock polynomial with
`dt = check_t(-Toc)` plus a zero term, whatever NUM is within R242; `sat_clk_drift` and the rest of the state are as before. That the zeros are +0.0 rests on the signs of
zero results, IEEE 754 conventions the model takes (log entry 19, PRESUMED). -/
def Obligations.SatposAtZeroArguments : Prop :=
  ∀ (s : State),
    s.eph.M_0 = 0 → s.eph.omega = 0 → s.eph.i_0 = 0 → s.eph.OMEGA_0 = 0 → s.eph.Toe = 0 → s.eph.ecc = 0 → s.eph.delta_n = 0 →
    s.eph.IDOT = 0 → s.eph.OMEGA_dot = 0 → s.eph.Cuc = 0 → s.eph.Cus = 0 → s.eph.Cic = 0 → s.eph.Cis = 0 → s.eph.Crc = 0 →
    s.eph.Crs = 0 →
    isFinite (semiMajorAxis s.eph) = true → isFinite (meanMotion s.eph) = true →
    let a := fmul s.eph.sqrtA s.eph.sqrtA
    let dt := checkT (fsub 0 s.eph.Toc)
    let poly := fadd (fadd s.eph.A_f0 (fmul s.eph.A_f1 dt)) (fmul s.eph.A_f2 (fmul dt dt))
    ∃ z, isZero z = true
      ∧ exec (.satpos 0) s = .next (respondF64
          { s with derived :=
              { satpos_X := a, satpos_Y := 0, satpos_Z := 0
                satvel_X := 0, satvel_Y := fadd (fmul a (meanMotion s.eph)) (fmul 0xBF131DA7D7CB8D5B a), satvel_Z := 0
                sat_clk_drift := s.derived.sat_clk_drift
                sat_dtr := fadd poly z } }
          0x33 (fadd poly z))

/-- What may be assumed of NUM (44_orbit_clock.md R242), for whatever functions stand behind it. -/
def Obligations.NumLimits : Prop :=
  ∀ x y : F64,
    (isNaN x = true → isNaN (fsin x) = true ∧ isNaN (fcos x) = true ∧ isNaN (fatan2 x y) = true ∧ isNaN (fatan2 y x) = true)
    ∧ (isInf x = true → isNaN (fsin x) = true ∧ isNaN (fcos x) = true)
    ∧ (isFinite x = true →
        isFinite (fsin x) = true ∧ fle (fabs (fsin x)) 0x3FF0000000000000 = true
        ∧ isFinite (fcos x) = true ∧ fle (fabs (fcos x)) 0x3FF0000000000000 = true)
    ∧ fsin 0 = 0 ∧ fcos 0 = 0x3FF0000000000000 ∧ fcos 0x8000000000000000 = 0x3FF0000000000000
    ∧ (flt 0 x = true → fatan2 0 x = 0)
    ∧ (isNaN y = false → isNaN x = false →
        isFinite (fatan2 y x) = true ∧ fle (fabs (fatan2 y x)) 0x400921FB54442D19 = true)

/-- The real number a finite binary64 pattern stands for. -/
noncomputable def Sys2Proof.Machine.realOf (x : F64) : ℝ := (fsigned x : ℝ) * (2 : ℝ) ^ (fpow x)

/-- `r` is `v` rounded once to nearest, ties to even: no finite value is nearer, at a tie the fraction is even, and exactly the
values of magnitude 2^1024 - 2^970 and more become the infinity of their sign. -/
def Sys2Proof.Machine.RoundedToNearest (v : ℝ) (r : F64) : Prop :=
  isNaN r = false
  ∧ (isFinite r = true ↔ |v| < 2 ^ 1024 - 2 ^ 970)
  ∧ (isInf r = true → (fsign r = true ↔ v < 0))
  ∧ (isFinite r = true → ∀ z, isFinite z = true →
      |realOf r - v| ≤ |realOf z - v|
      ∧ (|realOf r - v| = |realOf z - v| → realOf z ≠ realOf r → ffrac r % 2 = 0))

/-- The five operations are correctly rounded (44_orbit_clock.md R241): on finite operands each result is the exact real result
rounded once to nearest, ties to even. That a result too large for the format is the infinity of its sign, and where that begins, is
the convention of IEEE 754 the model takes (log entry 19, PRESUMED). -/
def Obligations.ArithmeticIsCorrectlyRounded : Prop :=
  ∀ x y : F64, isFinite x = true → isFinite y = true →
    RoundedToNearest (realOf x + realOf y) (fadd x y)
    ∧ RoundedToNearest (realOf x - realOf y) (fsub x y)
    ∧ RoundedToNearest (realOf x * realOf y) (fmul x y)
    ∧ (realOf y ≠ 0 → RoundedToNearest (realOf x / realOf y) (fdiv x y))
    ∧ (0 ≤ realOf x → RoundedToNearest (Real.sqrt (realOf x)) (fsqrt x))

/-- The exact operations (00_scope.md R11): `i2f` below 2^53 and `fmod` of finite operands are not rounded, and the remainder has
the sign of `x`. -/
def Obligations.ExactConversionAndRemainder : Prop :=
  (∀ n : Int, n.natAbs < 2 ^ 53 → isFinite (i2f n) = true ∧ realOf (i2f n) = n)
  ∧ ∀ x y : F64, isFinite x = true → isFinite y = true → realOf y ≠ 0 →
      isFinite (fmod x y) = true ∧ fsign (fmod x y) = fsign x
      ∧ |realOf (fmod x y)| < |realOf y|
      ∧ ∃ q : ℤ, realOf x = q * realOf y + realOf (fmod x y)

/-- Special values (44_orbit_clock.md R244): a NaN operand gives a NaN, and dividing a finite nonzero value by a zero gives the
infinity of the product of the signs, 0/0 a NaN; nothing stops. R244 says an infinity of either sign: that its sign is the product of
the signs is the convention of IEEE 754 the model takes (log entry 19, PRESUMED). -/
def Obligations.SpecialValuesPropagate : Prop :=
  ∀ x y : F64,
    (isNaN x = true ∨ isNaN y = true →
      isNaN (fadd x y) = true ∧ isNaN (fsub x y) = true ∧ isNaN (fmul x y) = true ∧ isNaN (fdiv x y) = true
      ∧ isNaN (fmod x y) = true)
    ∧ (isNaN x = true → isNaN (fsqrt x) = true)
    ∧ (isFinite x = true → isZero y = true →
        if isZero x then isNaN (fdiv x y) = true
        else isInf (fdiv x y) = true ∧ fsign (fdiv x y) = (fsign x != fsign y))

/-! ## UTC/Time Model -/

/-- UTCTIME (45_utc.md R281 to R286): the branch selection and the three branches as the spec writes them, which it marks as general
knowledge; no state is written. -/
def Obligations.UtctimeComputesItsBranches : Prop :=
  ∀ (t : F64) (week : BitVec 32) (s : State),
    let m := s.utc
    let wk := i2f week.toInt
    let dt0 := fadd (fsub t m.t_OT) (fmul 0x4122750000000000 (fsub wk m.WN_T))
    let tu := fsub t (fadd (fadd m.DeltaT_LS m.A0) (fmul m.A1 dt0))
    let tuF := fsub t (fadd (fadd m.DeltaT_LSF m.A0) (fmul m.A1 dt0))
    let day : F64 := 0x40F5180000000000
    let half : F64 := 0x40E5180000000000
    let tLSE := fmul m.DN day
    let w0 := fmod (fsub tu half) day
    let W := fadd w0 half
    let L := fsub (fadd day m.DeltaT_LSF) m.DeltaT_LS
    let D0 := fsub (fsub tu half) w0
    let r :=
      if flt wk m.WN_LSF || (feq m.WN_LSF wk && flt t (fsub tLSE 0x40D5180000000000)) then
        fadd (fsub tu (fmod tu day)) (fmod tu day)
      else if feq m.WN_LSF wk && fle t (fadd tLSE 0x40D5180000000000) then
        fadd (if flt W L then D0 else fadd D0 day) (fmod W L)
      else fadd (fsub tuF (fmod tuF day)) (fmod tuF day)
    exec (.utctime t week) s = .next (s.respond 0x38 [r.extractLsb' 32 32, r.extractLsb' 0 32])

/-- The leap-second step (45_utc.md R288): with an inserted second at the end of day 3 of the current week, whatever week that is,
UTC repeats one second at the boundary and the branches join without a step at both ends of the window; the spec marks the values as
derived. -/
def Obligations.LeapSecondStepsByOne : Prop :=
  ∀ (week : BitVec 32) (s : State),
    s.utc = { A0 := 0, A1 := 0, t_OT := 0, WN_T := 0, DeltaT_LS := 0x4032000000000000, WN_LSF := i2f week.toInt
              DN := 0x4008000000000000, DeltaT_LSF := 0x4033000000000000 } →
    ∀ x ∈ ([(259217, 259199), (259218, 259200), (259219, 259200), (259220, 259201),
            (237599, 237581), (237600, 237582), (280800, 280781), (280801, 280782)] : List (Int × Int)),
      exec (.utctime (i2f x.1) week) s = .next (respondF64 s 0x38 (i2f x.2))

/-! ## Register access -/

/-- RDST reads every register of the index map and nothing else (46_register_access.md R301; 10_state.md R44; 20_memory.md R54):
for each listed index the response is that register's 64-bit view; every other index is BAD_OPERAND; no state changes. -/
def Obligations.RdstReadsEveryRegister : Prop :=
  ∀ s : State,
    (∀ x ∈ registerTable s,
      exec (.rdst (BitVec.ofNat 16 x.1)) s = .next (s.respond 0x40 [x.2.extractLsb' 32 32, x.2.extractLsb' 0 32]))
    ∧ ∀ index : BitVec 16, (∀ x ∈ registerTable s, x.1 ≠ index.toNat) →
        exec (.rdst index) s = .next (s.raise 0x40 .badOperand)

/-- WRP writes one parameter register (46_register_access.md R302): the named register reads back the value, a flag its bit 0, every
other register of the index map and all the rest of the state are as before; a register outside groups 0x02, 0x04, 0x05, 0x06 and an
undefined index are BAD_OPERAND. -/
def Obligations.WrpWritesOneParameter : Prop :=
  ∀ (s : State) (index : BitVec 16) (value : BitVec 64),
    (regIndexWritable index.toNat = false → exec (.wrp index value) s = .next (s.raise 0x41 .badOperand))
    ∧ (regIndexWritable index.toNat = true →
        ∃ u, exec (.wrp index value) s = .next (State.respond u 0x41 [])
          ∧ u = { s with eph := u.eph, utc := u.utc, iono := u.iono, eop := u.eop }
          ∧ ∀ x ∈ registerTable u,
              if x.1 = index.toNat then
                x.2 = (if x.1 = 0x0218 ∨ x.1 = 0x0219 then value &&& 1 else value)
              else x ∈ registerTable s)
end

