-- ==== Sys2Proof/Laws/State.lean ====
section
/-! SUPPORT. One lemma per field per update of State: what each shared operation leaves in each field. -/

namespace Sys2Proof.Machine

/-! ### `State.deliver` -/

@[simp] theorem State.deliver_sync (s : State) (p : Packet) : (s.deliver p).sync = s.sync := rfl
@[simp] theorem State.deliver_sat_prn (s : State) (p : Packet) : (s.deliver p).sat_prn = s.sat_prn := rfl
@[simp] theorem State.deliver_hist (s : State) (p : Packet) : (s.deliver p).hist = s.hist := rfl
@[simp] theorem State.deliver_symbuf (s : State) (p : Packet) : (s.deliver p).symbuf = s.symbuf := rfl
@[simp] theorem State.deliver_frame (s : State) (p : Packet) : (s.deliver p).frame = s.frame := rfl
@[simp] theorem State.deliver_acc (s : State) (p : Packet) : (s.deliver p).acc = s.acc := rfl
@[simp] theorem State.deliver_asm (s : State) (p : Packet) : (s.deliver p).asm = s.asm := rfl
@[simp] theorem State.deliver_eph (s : State) (p : Packet) : (s.deliver p).eph = s.eph := rfl
@[simp] theorem State.deliver_derived (s : State) (p : Packet) : (s.deliver p).derived = s.derived := rfl
@[simp] theorem State.deliver_utc (s : State) (p : Packet) : (s.deliver p).utc = s.utc := rfl
@[simp] theorem State.deliver_iono (s : State) (p : Packet) : (s.deliver p).iono = s.iono := rfl
@[simp] theorem State.deliver_eop (s : State) (p : Packet) : (s.deliver p).eop = s.eop := rfl
@[simp] theorem State.deliver_portA (s : State) (p : Packet) : (s.deliver p).portA = s.portA := rfl
@[simp] theorem State.deliver_portB (s : State) (p : Packet) : (s.deliver p).portB = s.portB := rfl
@[simp] theorem State.deliver_out (s : State) (p : Packet) : (s.deliver p).out = s.out := rfl
@[simp] theorem State.deliver_tlm (s : State) (p : Packet) : (s.deliver p).tlm = s.tlm := rfl
@[simp] theorem State.deliver_trk (s : State) (p : Packet) : (s.deliver p).trk = s.trk := rfl
@[simp] theorem State.deliver_active (s : State) (p : Packet) : (s.deliver p).active = s.active := rfl
@[simp] theorem State.deliver_electionCount (s : State) (p : Packet) : (s.deliver p).electionCount = s.electionCount := rfl
@[simp] theorem State.deliver_params (s : State) (p : Packet) : (s.deliver p).params = s.params := rfl

/-! ### `State.respond` -/

@[simp] theorem State.respond_sync (s : State) (op : BitVec 8) (w : List Word) : (s.respond op w).sync = s.sync := rfl
@[simp] theorem State.respond_sat_prn (s : State) (op : BitVec 8) (w : List Word) : (s.respond op w).sat_prn = s.sat_prn := rfl
@[simp] theorem State.respond_hist (s : State) (op : BitVec 8) (w : List Word) : (s.respond op w).hist = s.hist := rfl
@[simp] theorem State.respond_symbuf (s : State) (op : BitVec 8) (w : List Word) : (s.respond op w).symbuf = s.symbuf := rfl
@[simp] theorem State.respond_frame (s : State) (op : BitVec 8) (w : List Word) : (s.respond op w).frame = s.frame := rfl
@[simp] theorem State.respond_acc (s : State) (op : BitVec 8) (w : List Word) : (s.respond op w).acc = s.acc := rfl
@[simp] theorem State.respond_asm (s : State) (op : BitVec 8) (w : List Word) : (s.respond op w).asm = s.asm := rfl
@[simp] theorem State.respond_eph (s : State) (op : BitVec 8) (w : List Word) : (s.respond op w).eph = s.eph := rfl
@[simp] theorem State.respond_derived (s : State) (op : BitVec 8) (w : List Word) : (s.respond op w).derived = s.derived := rfl
@[simp] theorem State.respond_utc (s : State) (op : BitVec 8) (w : List Word) : (s.respond op w).utc = s.utc := rfl
@[simp] theorem State.respond_iono (s : State) (op : BitVec 8) (w : List Word) : (s.respond op w).iono = s.iono := rfl
@[simp] theorem State.respond_eop (s : State) (op : BitVec 8) (w : List Word) : (s.respond op w).eop = s.eop := rfl
@[simp] theorem State.respond_portA (s : State) (op : BitVec 8) (w : List Word) : (s.respond op w).portA = s.portA := rfl
@[simp] theorem State.respond_portB (s : State) (op : BitVec 8) (w : List Word) : (s.respond op w).portB = s.portB := rfl
@[simp] theorem State.respond_out (s : State) (op : BitVec 8) (w : List Word) : (s.respond op w).out = s.out := rfl
@[simp] theorem State.respond_tlm (s : State) (op : BitVec 8) (w : List Word) : (s.respond op w).tlm = s.tlm := rfl
@[simp] theorem State.respond_trk (s : State) (op : BitVec 8) (w : List Word) : (s.respond op w).trk = s.trk := rfl
@[simp] theorem State.respond_active (s : State) (op : BitVec 8) (w : List Word) : (s.respond op w).active = s.active := rfl
@[simp] theorem State.respond_electionCount (s : State) (op : BitVec 8) (w : List Word) : (s.respond op w).electionCount = s.electionCount := rfl
@[simp] theorem State.respond_params (s : State) (op : BitVec 8) (w : List Word) : (s.respond op w).params = s.params := rfl

/-! ### `State.raise` -/

@[simp] theorem State.raise_sync (s : State) (op : BitVec 8) (e : CmdError) : (s.raise op e).sync = s.sync := rfl
@[simp] theorem State.raise_sat_prn (s : State) (op : BitVec 8) (e : CmdError) : (s.raise op e).sat_prn = s.sat_prn := rfl
@[simp] theorem State.raise_hist (s : State) (op : BitVec 8) (e : CmdError) : (s.raise op e).hist = s.hist := rfl
@[simp] theorem State.raise_symbuf (s : State) (op : BitVec 8) (e : CmdError) : (s.raise op e).symbuf = s.symbuf := rfl
@[simp] theorem State.raise_frame (s : State) (op : BitVec 8) (e : CmdError) : (s.raise op e).frame = s.frame := rfl
@[simp] theorem State.raise_acc (s : State) (op : BitVec 8) (e : CmdError) : (s.raise op e).acc = s.acc := rfl
@[simp] theorem State.raise_asm (s : State) (op : BitVec 8) (e : CmdError) : (s.raise op e).asm = s.asm := rfl
@[simp] theorem State.raise_eph (s : State) (op : BitVec 8) (e : CmdError) : (s.raise op e).eph = s.eph := rfl
@[simp] theorem State.raise_derived (s : State) (op : BitVec 8) (e : CmdError) : (s.raise op e).derived = s.derived := rfl
@[simp] theorem State.raise_utc (s : State) (op : BitVec 8) (e : CmdError) : (s.raise op e).utc = s.utc := rfl
@[simp] theorem State.raise_iono (s : State) (op : BitVec 8) (e : CmdError) : (s.raise op e).iono = s.iono := rfl
@[simp] theorem State.raise_eop (s : State) (op : BitVec 8) (e : CmdError) : (s.raise op e).eop = s.eop := rfl
@[simp] theorem State.raise_portA (s : State) (op : BitVec 8) (e : CmdError) : (s.raise op e).portA = s.portA := rfl
@[simp] theorem State.raise_portB (s : State) (op : BitVec 8) (e : CmdError) : (s.raise op e).portB = s.portB := rfl
@[simp] theorem State.raise_out (s : State) (op : BitVec 8) (e : CmdError) : (s.raise op e).out = s.out := rfl
@[simp] theorem State.raise_tlm (s : State) (op : BitVec 8) (e : CmdError) : (s.raise op e).tlm = s.tlm := rfl
@[simp] theorem State.raise_trk (s : State) (op : BitVec 8) (e : CmdError) : (s.raise op e).trk = s.trk := rfl
@[simp] theorem State.raise_active (s : State) (op : BitVec 8) (e : CmdError) : (s.raise op e).active = s.active := rfl
@[simp] theorem State.raise_electionCount (s : State) (op : BitVec 8) (e : CmdError) : (s.raise op e).electionCount = s.electionCount := rfl
@[simp] theorem State.raise_params (s : State) (op : BitVec 8) (e : CmdError) : (s.raise op e).params = s.params := rfl

/-! ### `State.emitOut` -/

@[simp] theorem State.emitOut_sync (s : State) (r : Symbol) : (s.emitOut r).sync = s.sync := rfl
@[simp] theorem State.emitOut_sat_prn (s : State) (r : Symbol) : (s.emitOut r).sat_prn = s.sat_prn := rfl
@[simp] theorem State.emitOut_hist (s : State) (r : Symbol) : (s.emitOut r).hist = s.hist := rfl
@[simp] theorem State.emitOut_symbuf (s : State) (r : Symbol) : (s.emitOut r).symbuf = s.symbuf := rfl
@[simp] theorem State.emitOut_frame (s : State) (r : Symbol) : (s.emitOut r).frame = s.frame := rfl
@[simp] theorem State.emitOut_acc (s : State) (r : Symbol) : (s.emitOut r).acc = s.acc := rfl
@[simp] theorem State.emitOut_asm (s : State) (r : Symbol) : (s.emitOut r).asm = s.asm := rfl
@[simp] theorem State.emitOut_eph (s : State) (r : Symbol) : (s.emitOut r).eph = s.eph := rfl
@[simp] theorem State.emitOut_derived (s : State) (r : Symbol) : (s.emitOut r).derived = s.derived := rfl
@[simp] theorem State.emitOut_utc (s : State) (r : Symbol) : (s.emitOut r).utc = s.utc := rfl
@[simp] theorem State.emitOut_iono (s : State) (r : Symbol) : (s.emitOut r).iono = s.iono := rfl
@[simp] theorem State.emitOut_eop (s : State) (r : Symbol) : (s.emitOut r).eop = s.eop := rfl
@[simp] theorem State.emitOut_portA (s : State) (r : Symbol) : (s.emitOut r).portA = s.portA := rfl
@[simp] theorem State.emitOut_portB (s : State) (r : Symbol) : (s.emitOut r).portB = s.portB := rfl
@[simp] theorem State.emitOut_respA (s : State) (r : Symbol) : (s.emitOut r).respA = s.respA := rfl
@[simp] theorem State.emitOut_respB (s : State) (r : Symbol) : (s.emitOut r).respB = s.respB := rfl
@[simp] theorem State.emitOut_out (s : State) (r : Symbol) : (s.emitOut r).out = s.out ++ [r] := rfl
@[simp] theorem State.emitOut_tlm (s : State) (r : Symbol) : (s.emitOut r).tlm = s.tlm := rfl
@[simp] theorem State.emitOut_trk (s : State) (r : Symbol) : (s.emitOut r).trk = s.trk := rfl
@[simp] theorem State.emitOut_active (s : State) (r : Symbol) : (s.emitOut r).active = s.active := rfl
@[simp] theorem State.emitOut_electionCount (s : State) (r : Symbol) : (s.emitOut r).electionCount = s.electionCount := rfl
@[simp] theorem State.emitOut_params (s : State) (r : Symbol) : (s.emitOut r).params = s.params := rfl

/-! ### `State.emitTlm` -/

@[simp] theorem State.emitTlm_sync (s : State) (m : TlmMsg) : (s.emitTlm m).sync = s.sync := rfl
@[simp] theorem State.emitTlm_sat_prn (s : State) (m : TlmMsg) : (s.emitTlm m).sat_prn = s.sat_prn := rfl
@[simp] theorem State.emitTlm_hist (s : State) (m : TlmMsg) : (s.emitTlm m).hist = s.hist := rfl
@[simp] theorem State.emitTlm_symbuf (s : State) (m : TlmMsg) : (s.emitTlm m).symbuf = s.symbuf := rfl
@[simp] theorem State.emitTlm_frame (s : State) (m : TlmMsg) : (s.emitTlm m).frame = s.frame := rfl
@[simp] theorem State.emitTlm_acc (s : State) (m : TlmMsg) : (s.emitTlm m).acc = s.acc := rfl
@[simp] theorem State.emitTlm_asm (s : State) (m : TlmMsg) : (s.emitTlm m).asm = s.asm := rfl
@[simp] theorem State.emitTlm_eph (s : State) (m : TlmMsg) : (s.emitTlm m).eph = s.eph := rfl
@[simp] theorem State.emitTlm_derived (s : State) (m : TlmMsg) : (s.emitTlm m).derived = s.derived := rfl
@[simp] theorem State.emitTlm_utc (s : State) (m : TlmMsg) : (s.emitTlm m).utc = s.utc := rfl
@[simp] theorem State.emitTlm_iono (s : State) (m : TlmMsg) : (s.emitTlm m).iono = s.iono := rfl
@[simp] theorem State.emitTlm_eop (s : State) (m : TlmMsg) : (s.emitTlm m).eop = s.eop := rfl
@[simp] theorem State.emitTlm_portA (s : State) (m : TlmMsg) : (s.emitTlm m).portA = s.portA := rfl
@[simp] theorem State.emitTlm_portB (s : State) (m : TlmMsg) : (s.emitTlm m).portB = s.portB := rfl
@[simp] theorem State.emitTlm_respA (s : State) (m : TlmMsg) : (s.emitTlm m).respA = s.respA := rfl
@[simp] theorem State.emitTlm_respB (s : State) (m : TlmMsg) : (s.emitTlm m).respB = s.respB := rfl
@[simp] theorem State.emitTlm_out (s : State) (m : TlmMsg) : (s.emitTlm m).out = s.out := rfl
@[simp] theorem State.emitTlm_tlm (s : State) (m : TlmMsg) : (s.emitTlm m).tlm = s.tlm ++ [m] := rfl
@[simp] theorem State.emitTlm_trk (s : State) (m : TlmMsg) : (s.emitTlm m).trk = s.trk := rfl
@[simp] theorem State.emitTlm_active (s : State) (m : TlmMsg) : (s.emitTlm m).active = s.active := rfl
@[simp] theorem State.emitTlm_electionCount (s : State) (m : TlmMsg) : (s.emitTlm m).electionCount = s.electionCount := rfl
@[simp] theorem State.emitTlm_params (s : State) (m : TlmMsg) : (s.emitTlm m).params = s.params := rfl

/-! ### `State.emitTrk` -/

@[simp] theorem State.emitTrk_sync (s : State) (w : Word) : (s.emitTrk w).sync = s.sync := rfl
@[simp] theorem State.emitTrk_sat_prn (s : State) (w : Word) : (s.emitTrk w).sat_prn = s.sat_prn := rfl
@[simp] theorem State.emitTrk_hist (s : State) (w : Word) : (s.emitTrk w).hist = s.hist := rfl
@[simp] theorem State.emitTrk_symbuf (s : State) (w : Word) : (s.emitTrk w).symbuf = s.symbuf := rfl
@[simp] theorem State.emitTrk_frame (s : State) (w : Word) : (s.emitTrk w).frame = s.frame := rfl
@[simp] theorem State.emitTrk_acc (s : State) (w : Word) : (s.emitTrk w).acc = s.acc := rfl
@[simp] theorem State.emitTrk_asm (s : State) (w : Word) : (s.emitTrk w).asm = s.asm := rfl
@[simp] theorem State.emitTrk_eph (s : State) (w : Word) : (s.emitTrk w).eph = s.eph := rfl
@[simp] theorem State.emitTrk_derived (s : State) (w : Word) : (s.emitTrk w).derived = s.derived := rfl
@[simp] theorem State.emitTrk_utc (s : State) (w : Word) : (s.emitTrk w).utc = s.utc := rfl
@[simp] theorem State.emitTrk_iono (s : State) (w : Word) : (s.emitTrk w).iono = s.iono := rfl
@[simp] theorem State.emitTrk_eop (s : State) (w : Word) : (s.emitTrk w).eop = s.eop := rfl
@[simp] theorem State.emitTrk_portA (s : State) (w : Word) : (s.emitTrk w).portA = s.portA := rfl
@[simp] theorem State.emitTrk_portB (s : State) (w : Word) : (s.emitTrk w).portB = s.portB := rfl
@[simp] theorem State.emitTrk_respA (s : State) (w : Word) : (s.emitTrk w).respA = s.respA := rfl
@[simp] theorem State.emitTrk_respB (s : State) (w : Word) : (s.emitTrk w).respB = s.respB := rfl
@[simp] theorem State.emitTrk_out (s : State) (w : Word) : (s.emitTrk w).out = s.out := rfl
@[simp] theorem State.emitTrk_tlm (s : State) (w : Word) : (s.emitTrk w).tlm = s.tlm := rfl
@[simp] theorem State.emitTrk_trk (s : State) (w : Word) : (s.emitTrk w).trk = s.trk ++ [w] := rfl
@[simp] theorem State.emitTrk_active (s : State) (w : Word) : (s.emitTrk w).active = s.active := rfl
@[simp] theorem State.emitTrk_electionCount (s : State) (w : Word) : (s.emitTrk w).electionCount = s.electionCount := rfl
@[simp] theorem State.emitTrk_params (s : State) (w : Word) : (s.emitTrk w).params = s.params := rfl

/-! ### `State.setSym` -/

@[simp] theorem State.setSym_sync (s : State) (i : Nat) (v : Int) : (s.setSym i v).sync = s.sync := rfl
@[simp] theorem State.setSym_sat_prn (s : State) (i : Nat) (v : Int) : (s.setSym i v).sat_prn = s.sat_prn := rfl
@[simp] theorem State.setSym_hist (s : State) (i : Nat) (v : Int) : (s.setSym i v).hist = s.hist := rfl
@[simp] theorem State.setSym_symbuf (s : State) (i : Nat) (v : Int) : (s.setSym i v).symbuf = s.symbuf.set i v := rfl
@[simp] theorem State.setSym_frame (s : State) (i : Nat) (v : Int) : (s.setSym i v).frame = s.frame := rfl
@[simp] theorem State.setSym_acc (s : State) (i : Nat) (v : Int) : (s.setSym i v).acc = s.acc := rfl
@[simp] theorem State.setSym_asm (s : State) (i : Nat) (v : Int) : (s.setSym i v).asm = s.asm := rfl
@[simp] theorem State.setSym_eph (s : State) (i : Nat) (v : Int) : (s.setSym i v).eph = s.eph := rfl
@[simp] theorem State.setSym_derived (s : State) (i : Nat) (v : Int) : (s.setSym i v).derived = s.derived := rfl
@[simp] theorem State.setSym_utc (s : State) (i : Nat) (v : Int) : (s.setSym i v).utc = s.utc := rfl
@[simp] theorem State.setSym_iono (s : State) (i : Nat) (v : Int) : (s.setSym i v).iono = s.iono := rfl
@[simp] theorem State.setSym_eop (s : State) (i : Nat) (v : Int) : (s.setSym i v).eop = s.eop := rfl
@[simp] theorem State.setSym_portA (s : State) (i : Nat) (v : Int) : (s.setSym i v).portA = s.portA := rfl
@[simp] theorem State.setSym_portB (s : State) (i : Nat) (v : Int) : (s.setSym i v).portB = s.portB := rfl
@[simp] theorem State.setSym_respA (s : State) (i : Nat) (v : Int) : (s.setSym i v).respA = s.respA := rfl
@[simp] theorem State.setSym_respB (s : State) (i : Nat) (v : Int) : (s.setSym i v).respB = s.respB := rfl
@[simp] theorem State.setSym_out (s : State) (i : Nat) (v : Int) : (s.setSym i v).out = s.out := rfl
@[simp] theorem State.setSym_tlm (s : State) (i : Nat) (v : Int) : (s.setSym i v).tlm = s.tlm := rfl
@[simp] theorem State.setSym_trk (s : State) (i : Nat) (v : Int) : (s.setSym i v).trk = s.trk := rfl
@[simp] theorem State.setSym_active (s : State) (i : Nat) (v : Int) : (s.setSym i v).active = s.active := rfl
@[simp] theorem State.setSym_electionCount (s : State) (i : Nat) (v : Int) : (s.setSym i v).electionCount = s.electionCount := rfl
@[simp] theorem State.setSym_params (s : State) (i : Nat) (v : Int) : (s.setSym i v).params = s.params := rfl

/-! ### `State.setFrameBit` -/

@[simp] theorem State.setFrameBit_sync (s : State) (p : Nat) (b : Bool) : (s.setFrameBit p b).sync = s.sync := rfl
@[simp] theorem State.setFrameBit_sat_prn (s : State) (p : Nat) (b : Bool) : (s.setFrameBit p b).sat_prn = s.sat_prn := rfl
@[simp] theorem State.setFrameBit_hist (s : State) (p : Nat) (b : Bool) : (s.setFrameBit p b).hist = s.hist := rfl
@[simp] theorem State.setFrameBit_symbuf (s : State) (p : Nat) (b : Bool) : (s.setFrameBit p b).symbuf = s.symbuf := rfl
@[simp] theorem State.setFrameBit_frame (s : State) (p : Nat) (b : Bool) : (s.setFrameBit p b).frame = s.frame.set (p - 1) b := rfl
@[simp] theorem State.setFrameBit_acc (s : State) (p : Nat) (b : Bool) : (s.setFrameBit p b).acc = s.acc := rfl
@[simp] theorem State.setFrameBit_asm (s : State) (p : Nat) (b : Bool) : (s.setFrameBit p b).asm = s.asm := rfl
@[simp] theorem State.setFrameBit_eph (s : State) (p : Nat) (b : Bool) : (s.setFrameBit p b).eph = s.eph := rfl
@[simp] theorem State.setFrameBit_derived (s : State) (p : Nat) (b : Bool) : (s.setFrameBit p b).derived = s.derived := rfl
@[simp] theorem State.setFrameBit_utc (s : State) (p : Nat) (b : Bool) : (s.setFrameBit p b).utc = s.utc := rfl
@[simp] theorem State.setFrameBit_iono (s : State) (p : Nat) (b : Bool) : (s.setFrameBit p b).iono = s.iono := rfl
@[simp] theorem State.setFrameBit_eop (s : State) (p : Nat) (b : Bool) : (s.setFrameBit p b).eop = s.eop := rfl
@[simp] theorem State.setFrameBit_portA (s : State) (p : Nat) (b : Bool) : (s.setFrameBit p b).portA = s.portA := rfl
@[simp] theorem State.setFrameBit_portB (s : State) (p : Nat) (b : Bool) : (s.setFrameBit p b).portB = s.portB := rfl
@[simp] theorem State.setFrameBit_respA (s : State) (p : Nat) (b : Bool) : (s.setFrameBit p b).respA = s.respA := rfl
@[simp] theorem State.setFrameBit_respB (s : State) (p : Nat) (b : Bool) : (s.setFrameBit p b).respB = s.respB := rfl
@[simp] theorem State.setFrameBit_out (s : State) (p : Nat) (b : Bool) : (s.setFrameBit p b).out = s.out := rfl
@[simp] theorem State.setFrameBit_tlm (s : State) (p : Nat) (b : Bool) : (s.setFrameBit p b).tlm = s.tlm := rfl
@[simp] theorem State.setFrameBit_trk (s : State) (p : Nat) (b : Bool) : (s.setFrameBit p b).trk = s.trk := rfl
@[simp] theorem State.setFrameBit_active (s : State) (p : Nat) (b : Bool) : (s.setFrameBit p b).active = s.active := rfl
@[simp] theorem State.setFrameBit_electionCount (s : State) (p : Nat) (b : Bool) : (s.setFrameBit p b).electionCount = s.electionCount := rfl
@[simp] theorem State.setFrameBit_params (s : State) (p : Nat) (b : Bool) : (s.setFrameBit p b).params = s.params := rfl

/-! ### `State.setAcc` -/

@[simp] theorem State.setAcc_sync (s : State) (raw : Int) : (s.setAcc raw).sync = s.sync := rfl
@[simp] theorem State.setAcc_sat_prn (s : State) (raw : Int) : (s.setAcc raw).sat_prn = s.sat_prn := rfl
@[simp] theorem State.setAcc_hist (s : State) (raw : Int) : (s.setAcc raw).hist = s.hist := rfl
@[simp] theorem State.setAcc_symbuf (s : State) (raw : Int) : (s.setAcc raw).symbuf = s.symbuf := rfl
@[simp] theorem State.setAcc_frame (s : State) (raw : Int) : (s.setAcc raw).frame = s.frame := rfl
@[simp] theorem State.setAcc_acc (s : State) (raw : Int) : (s.setAcc raw).acc = BitVec.ofInt 64 raw := rfl
@[simp] theorem State.setAcc_asm (s : State) (raw : Int) : (s.setAcc raw).asm = s.asm := rfl
@[simp] theorem State.setAcc_eph (s : State) (raw : Int) : (s.setAcc raw).eph = s.eph := rfl
@[simp] theorem State.setAcc_derived (s : State) (raw : Int) : (s.setAcc raw).derived = s.derived := rfl
@[simp] theorem State.setAcc_utc (s : State) (raw : Int) : (s.setAcc raw).utc = s.utc := rfl
@[simp] theorem State.setAcc_iono (s : State) (raw : Int) : (s.setAcc raw).iono = s.iono := rfl
@[simp] theorem State.setAcc_eop (s : State) (raw : Int) : (s.setAcc raw).eop = s.eop := rfl
@[simp] theorem State.setAcc_portA (s : State) (raw : Int) : (s.setAcc raw).portA = s.portA := rfl
@[simp] theorem State.setAcc_portB (s : State) (raw : Int) : (s.setAcc raw).portB = s.portB := rfl
@[simp] theorem State.setAcc_respA (s : State) (raw : Int) : (s.setAcc raw).respA = s.respA := rfl
@[simp] theorem State.setAcc_respB (s : State) (raw : Int) : (s.setAcc raw).respB = s.respB := rfl
@[simp] theorem State.setAcc_out (s : State) (raw : Int) : (s.setAcc raw).out = s.out := rfl
@[simp] theorem State.setAcc_tlm (s : State) (raw : Int) : (s.setAcc raw).tlm = s.tlm := rfl
@[simp] theorem State.setAcc_trk (s : State) (raw : Int) : (s.setAcc raw).trk = s.trk := rfl
@[simp] theorem State.setAcc_active (s : State) (raw : Int) : (s.setAcc raw).active = s.active := rfl
@[simp] theorem State.setAcc_electionCount (s : State) (raw : Int) : (s.setAcc raw).electionCount = s.electionCount := rfl
@[simp] theorem State.setAcc_params (s : State) (raw : Int) : (s.setAcc raw).params = s.params := rfl

/-! ### `State.sansResponses` -/

@[simp] theorem State.sansResponses_sync (s : State) : (s.sansResponses).sync = s.sync := rfl
@[simp] theorem State.sansResponses_sat_prn (s : State) : (s.sansResponses).sat_prn = s.sat_prn := rfl
@[simp] theorem State.sansResponses_hist (s : State) : (s.sansResponses).hist = s.hist := rfl
@[simp] theorem State.sansResponses_symbuf (s : State) : (s.sansResponses).symbuf = s.symbuf := rfl
@[simp] theorem State.sansResponses_frame (s : State) : (s.sansResponses).frame = s.frame := rfl
@[simp] theorem State.sansResponses_acc (s : State) : (s.sansResponses).acc = s.acc := rfl
@[simp] theorem State.sansResponses_asm (s : State) : (s.sansResponses).asm = s.asm := rfl
@[simp] theorem State.sansResponses_eph (s : State) : (s.sansResponses).eph = s.eph := rfl
@[simp] theorem State.sansResponses_derived (s : State) : (s.sansResponses).derived = s.derived := rfl
@[simp] theorem State.sansResponses_utc (s : State) : (s.sansResponses).utc = s.utc := rfl
@[simp] theorem State.sansResponses_iono (s : State) : (s.sansResponses).iono = s.iono := rfl
@[simp] theorem State.sansResponses_eop (s : State) : (s.sansResponses).eop = s.eop := rfl
@[simp] theorem State.sansResponses_portA (s : State) : (s.sansResponses).portA = s.portA := rfl
@[simp] theorem State.sansResponses_portB (s : State) : (s.sansResponses).portB = s.portB := rfl
@[simp] theorem State.sansResponses_respA (s : State) : (s.sansResponses).respA = [] := rfl
@[simp] theorem State.sansResponses_respB (s : State) : (s.sansResponses).respB = [] := rfl
@[simp] theorem State.sansResponses_out (s : State) : (s.sansResponses).out = s.out := rfl
@[simp] theorem State.sansResponses_tlm (s : State) : (s.sansResponses).tlm = s.tlm := rfl
@[simp] theorem State.sansResponses_trk (s : State) : (s.sansResponses).trk = s.trk := rfl
@[simp] theorem State.sansResponses_active (s : State) : (s.sansResponses).active = s.active := rfl
@[simp] theorem State.sansResponses_electionCount (s : State) : (s.sansResponses).electionCount = s.electionCount := rfl
@[simp] theorem State.sansResponses_params (s : State) : (s.sansResponses).params = s.params := rfl

/-! ### Responses of a port -/

@[simp] theorem State.deliver_responses_active (s : State) (p : Packet) :
    (s.deliver p).responses s.active = s.responses s.active ++ [p] := by
  cases h : s.active <;> simp [State.responses, State.deliver, h]

@[simp] theorem State.deliver_responses_other (s : State) (p : Packet) :
    (s.deliver p).responses (otherPort s.active) = s.responses (otherPort s.active) := by
  cases h : s.active <;> simp [State.responses, State.deliver, otherPort, h]

@[simp] theorem State.respond_responses_active (s : State) (op : BitVec 8) (w : List Word) :
    (s.respond op w).responses s.active = s.responses s.active ++ [responsePacket op .ok w] :=
  s.deliver_responses_active _

@[simp] theorem State.respond_responses_other (s : State) (op : BitVec 8) (w : List Word) :
    (s.respond op w).responses (otherPort s.active) = s.responses (otherPort s.active) :=
  s.deliver_responses_other _

@[simp] theorem State.raise_responses_active (s : State) (op : BitVec 8) (e : CmdError) :
    (s.raise op e).responses s.active = s.responses s.active ++ [responsePacket op (.error e) []] :=
  s.deliver_responses_active _

@[simp] theorem State.raise_responses_other (s : State) (op : BitVec 8) (e : CmdError) :
    (s.raise op e).responses (otherPort s.active) = s.responses (otherPort s.active) :=
  s.deliver_responses_other _

@[simp] theorem State.deliver_sansResponses (s : State) (p : Packet) :
    (s.deliver p).sansResponses = s.sansResponses := rfl

@[simp] theorem State.respond_sansResponses (s : State) (op : BitVec 8) (w : List Word) :
    (s.respond op w).sansResponses = s.sansResponses := rfl

@[simp] theorem State.raise_sansResponses (s : State) (op : BitVec 8) (e : CmdError) :
    (s.raise op e).sansResponses = s.sansResponses := rfl

/-- A response is appended on port A or on port B, as `active` says, and the other port's list is as it was. -/
theorem State.deliver_cases (s : State) (p : Packet) :
    (s.active = .A ∧ (s.deliver p).respA = s.respA ++ [p] ∧ (s.deliver p).respB = s.respB)
    ∨ (s.active = .B ∧ (s.deliver p).respB = s.respB ++ [p] ∧ (s.deliver p).respA = s.respA) := by
  cases h : s.active
  · exact .inl ⟨rfl, by simp [State.deliver, h], by simp [State.deliver, h]⟩
  · exact .inr ⟨rfl, by simp [State.deliver, h], by simp [State.deliver, h]⟩

/-! ### The response header (30_encoding.md R78) -/

/-- A field of a word whose low part `lo` of `m` bits stands under `hi`: the bits above `m` are those of `hi`. -/
theorem extract_append_high {n m : Nat} (hi : BitVec n) (lo : BitVec m) (k len : Nat) (h : m ≤ k) :
    (hi ++ lo).extractLsb' k len = hi.extractLsb' (k - m) len := by
  apply BitVec.eq_of_getLsbD_eq
  intro i _
  simp only [BitVec.getLsbD_extractLsb', BitVec.getLsbD_append]
  rw [if_neg (by omega), Nat.sub_add_comm h]

/-- A field within the low part of a word. -/
theorem extract_append_low {n m : Nat} (hi : BitVec n) (lo : BitVec m) (k len : Nat) (h : k + len ≤ m) :
    (hi ++ lo).extractLsb' k len = lo.extractLsb' k len := by
  apply BitVec.eq_of_getLsbD_eq
  intro i hi
  simp only [BitVec.getLsbD_extractLsb', BitVec.getLsbD_append]
  rw [if_pos (by omega)]

/-- The whole of a value as its own field. -/
theorem extract_full {n : Nat} (x : BitVec n) : x.extractLsb' 0 n = x := by simp

@[simp] theorem opcodeField_responseHeader (op : BitVec 8) (st : Status) (n : Nat) :
    opcodeField (responseHeader op st n) = op := by
  simp only [opcodeField, responseHeader]
  rw [extract_append_high _ _ _ _ (by omega), extract_append_high _ _ _ _ (by omega), extract_append_high _ _ _ _ (by omega)]
  exact extract_full op

@[simp] theorem opcodeField_responsePacket (op : BitVec 8) (st : Status) (w : List Word) :
    opcodeField (responsePacket op st w).header = op := opcodeField_responseHeader op st _

@[simp] theorem statusField_responsePacket (op : BitVec 8) (st : Status) (w : List Word) :
    statusField (responsePacket op st w) = st.code := by
  simp only [statusField, responsePacket, responseHeader]
  rw [extract_append_high _ _ _ _ (by omega), extract_append_high _ _ _ _ (by omega), extract_append_low _ _ _ _ (by omega)]
  exact extract_full st.code

@[simp] theorem countField_responsePacket (op : BitVec 8) (st : Status) (w : List Word) :
    countField (responsePacket op st w) = BitVec.ofNat 8 w.length := by
  simp only [countField, responsePacket, responseHeader]
  rw [extract_append_low _ _ _ _ (by omega)]
  exact extract_full _

@[simp] theorem reservedField_responsePacket (op : BitVec 8) (st : Status) (w : List Word) :
    (responsePacket op st w).header.extractLsb' 8 8 = 0 := by
  simp only [responsePacket, responseHeader]
  rw [extract_append_high _ _ _ _ (by omega), extract_append_low _ _ _ _ (by omega)]
  rfl

@[simp] theorem responsePacket_payload (op : BitVec 8) (st : Status) (w : List Word) :
    (responsePacket op st w).payload = w := rfl

end Sys2Proof.Machine
end

