-- ==== Sys2Proof/Laws/Assembler.lean ====
section
/-! SUPPORT. The Message Assembler: read after write of parameter registers, what loading a group does (43_msg_assembler.md R202 to
R204), and what `sfdec` answers and leaves for each identifier (R210 to R216). -/

namespace Sys2Proof.Machine

/-! ## Parameter registers -/

/-- What a parameter register holds of a 64-bit value: a flag its bit 0, every other register the pattern (46_register_access.md
R302). -/
def storedParam : ParamReg → BitVec 64 → BitVec 64
  | .flag _, v => flagView (v.getLsbD 0)
  | .eph _, v | .utc _, v | .iono _, v | .eop _, v => v

theorem readParam_writeParam_same (s : State) (r : ParamReg) (v : BitVec 64) :
    readParam (writeParam s r v) r = storedParam r v := by
  cases r with
  | eph r => cases r <;> rfl
  | flag r => cases r <;> rfl
  | utc r => cases r <;> rfl
  | iono r => cases r <;> rfl
  | eop r => cases r <;> rfl

theorem readEph_writeEph_ne (e : Eph) (v : F64) (r r' : EphReg) (h : r ≠ r') : readEph (writeEph e v r) r' = readEph e r' := by
  cases r <;> cases r' <;> first | rfl | exact absurd rfl h

theorem readEph_writeEphFlag (e : Eph) (b : Bool) (f : EphFlag) (r : EphReg) : readEph (writeEphFlag e b f) r = readEph e r := by
  cases f <;> cases r <;> rfl

theorem readEphFlag_writeEph (e : Eph) (v : F64) (r : EphReg) (f : EphFlag) : readEphFlag (writeEph e v r) f = readEphFlag e f := by
  cases r <;> cases f <;> rfl

theorem readEphFlag_writeEphFlag_ne (e : Eph) (b : Bool) (f f' : EphFlag) (h : f ≠ f') :
    readEphFlag (writeEphFlag e b f) f' = readEphFlag e f' := by
  cases f <;> cases f' <;> first | rfl | exact absurd rfl h

theorem readUtc_writeUtc_ne (u : Utc) (v : F64) (r r' : UtcReg) (h : r ≠ r') : readUtc (writeUtc u v r) r' = readUtc u r' := by
  cases r <;> cases r' <;> first | rfl | exact absurd rfl h

theorem readIono_writeIono_ne (i : Iono) (v : F64) (r r' : IonoReg) (h : r ≠ r') :
    readIono (writeIono i v r) r' = readIono i r' := by
  cases r <;> cases r' <;> first | rfl | exact absurd rfl h

theorem readEop_writeEop_ne (p : Eop) (v : F64) (r r' : EopReg) (h : r ≠ r') : readEop (writeEop p v r) r' = readEop p r' := by
  cases r <;> cases r' <;> first | rfl | exact absurd rfl h

/-- Writing one parameter register leaves every other as it was. -/
theorem readParam_writeParam_ne (s : State) (r r' : ParamReg) (v : BitVec 64) (h : r ≠ r') :
    readParam (writeParam s r v) r' = readParam s r' := by
  cases r with
  | eph r =>
    cases r' with
    | eph r' => exact readEph_writeEph_ne _ _ _ _ fun e => h (e ▸ rfl)
    | flag f => exact congrArg flagView (readEphFlag_writeEph _ _ _ _)
    | utc _ | iono _ | eop _ => rfl
  | flag f =>
    cases r' with
    | eph r' => exact readEph_writeEphFlag _ _ _ _
    | flag f' => exact congrArg flagView (readEphFlag_writeEphFlag_ne _ _ _ _ fun e => h (e ▸ rfl))
    | utc _ | iono _ | eop _ => rfl
  | utc r =>
    cases r' with
    | utc r' => exact readUtc_writeUtc_ne _ _ _ _ fun e => h (e ▸ rfl)
    | eph _ | flag _ | iono _ | eop _ => rfl
  | iono r =>
    cases r' with
    | iono r' => exact readIono_writeIono_ne _ _ _ _ fun e => h (e ▸ rfl)
    | eph _ | flag _ | utc _ | eop _ => rfl
  | eop r =>
    cases r' with
    | eop r' => exact readEop_writeEop_ne _ _ _ _ fun e => h (e ▸ rfl)
    | eph _ | flag _ | utc _ | iono _ => rfl

/-- A parameter write touches the four parameter files only. -/
theorem writeParam_frame (s : State) (r : ParamReg) (v : BitVec 64) :
    writeParam s r v =
      { s with
          eph := (writeParam s r v).eph, utc := (writeParam s r v).utc
          iono := (writeParam s r v).iono, eop := (writeParam s r v).eop } := by
  cases r <;> rfl

/-- The registers read depend on the four parameter files only. -/
theorem readParam_congr {s t : State} (he : t.eph = s.eph) (hu : t.utc = s.utc) (hi : t.iono = s.iono) (hp : t.eop = s.eop)
    (r : ParamReg) : readParam t r = readParam s r := by
  cases r <;> simp [readParam, he, hu, hi, hp]

/-! ## Loading a group (R202, R203, R204) -/

/-- What `loadEntry` stores: a flag the field's low bit, every other register the field converted and scaled (R204). -/
def fieldValue (frame : List Bool) (e : Entry) : BitVec 64 :=
  match e.reg with
  | .flag _ => if readField frame e.signed e.slices % 2 = 1 then 1 else 0
  | .eph _ | .utc _ | .iono _ | .eop _ => fmul (i2f (readField frame e.signed e.slices)) e.scale

theorem readParam_loadEntry_same (s : State) (e : Entry) : readParam (loadEntry s e) e.reg = fieldValue s.frame e := by
  unfold loadEntry
  rw [readParam_writeParam_same]
  cases h : e.reg with
  | flag f =>
    simp only [storedParam, loadedValue, fieldValue, h, flagView]
    by_cases hr : readField s.frame e.signed e.slices % 2 = 1 <;> simp [hr]
  | eph _ | utc _ | iono _ | eop _ => simp only [storedParam, loadedValue, fieldValue, h]

theorem readParam_loadEntry_ne (s : State) (e : Entry) (r : ParamReg) (h : e.reg ≠ r) :
    readParam (loadEntry s e) r = readParam s r := by
  unfold loadEntry
  rw [readParam_writeParam_ne _ _ _ _ h]
  exact readParam_congr rfl rfl rfl rfl r

theorem loadEntry_acc (s : State) (e : Entry) : (loadEntry s e).acc = BitVec.ofInt 64 (readField s.frame e.signed e.slices) := by
  unfold loadEntry
  rw [writeParam_frame]
  rfl

/-- A load writes `ACC` and the four parameter files only. -/
theorem loadEntry_frame (s : State) (e : Entry) :
    loadEntry s e =
      { s with
          acc := (loadEntry s e).acc
          eph := (loadEntry s e).eph, utc := (loadEntry s e).utc, iono := (loadEntry s e).iono, eop := (loadEntry s e).eop } := by
  unfold loadEntry
  rw [writeParam_frame]
  rfl

theorem loadGroup_frame (s : State) (g : List Entry) :
    loadGroup s g =
      { s with
          acc := (loadGroup s g).acc
          eph := (loadGroup s g).eph, utc := (loadGroup s g).utc, iono := (loadGroup s g).iono, eop := (loadGroup s g).eop } := by
  induction g generalizing s with
  | nil => rfl
  | cons e g ih =>
    have h := ih (loadEntry s e)
    rw [loadEntry_frame] at h
    rw [loadEntry_frame] at h
    simp only [loadGroup, List.foldl_cons] at h ⊢
    rw [← loadEntry_frame] at h
    exact h

theorem loadGroup_cons (s : State) (e : Entry) (g : List Entry) : loadGroup s (e :: g) = loadGroup (loadEntry s e) g := rfl

@[simp] theorem loadEntry_frameBits (s : State) (e : Entry) : (loadEntry s e).frame = s.frame := by rw [loadEntry_frame]

@[simp] theorem loadGroup_frameBits (s : State) (g : List Entry) : (loadGroup s g).frame = s.frame := by rw [loadGroup_frame]
@[simp] theorem loadGroup_asm (s : State) (g : List Entry) : (loadGroup s g).asm = s.asm := by rw [loadGroup_frame]
@[simp] theorem loadGroup_tlm (s : State) (g : List Entry) : (loadGroup s g).tlm = s.tlm := by rw [loadGroup_frame]
@[simp] theorem loadGroup_params (s : State) (g : List Entry) : (loadGroup s g).params = s.params := by rw [loadGroup_frame]
@[simp] theorem loadGroup_sat_prn (s : State) (g : List Entry) : (loadGroup s g).sat_prn = s.sat_prn := by rw [loadGroup_frame]
@[simp] theorem loadGroup_derived (s : State) (g : List Entry) : (loadGroup s g).derived = s.derived := by rw [loadGroup_frame]

/-- A register the group does not name is as before. -/
theorem readParam_loadGroup_ne (s : State) (g : List Entry) (r : ParamReg) (h : ∀ e ∈ g, e.reg ≠ r) :
    readParam (loadGroup s g) r = readParam s r := by
  induction g generalizing s with
  | nil => rfl
  | cons e g ih =>
    rw [loadGroup_cons, ih _ fun f hf => h f (List.mem_cons_of_mem _ hf)]
    exact readParam_loadEntry_ne s e r (h e List.mem_cons_self)

/-- A register the group names once holds its field's value. -/
theorem readParam_loadGroup_mem (s : State) (g : List Entry) (hg : noRegTwice g = true) (e : Entry) (he : e ∈ g) :
    readParam (loadGroup s g) e.reg = fieldValue s.frame e := by
  induction g generalizing s with
  | nil => cases he
  | cons f g ih =>
    simp only [noRegTwice, Bool.and_eq_true, List.all_eq_true, decide_eq_true_eq] at hg
    rw [loadGroup_cons]
    rcases List.mem_cons.1 he with rfl | hm
    · rw [readParam_loadGroup_ne _ _ _ hg.1, readParam_loadEntry_same]
    · rw [ih _ hg.2 hm, loadEntry_frameBits]

/-- `ACC` after a group holds the last field read; after an empty group it is as before (R203). -/
theorem loadGroup_acc (s : State) (g : List Entry) : (loadGroup s g).acc = lastRaw s g s.acc := by
  induction g generalizing s with
  | nil => rfl
  | cons e g ih =>
    rw [loadGroup_cons, ih]
    cases g with
    | nil => exact loadEntry_acc s e
    | cons f g =>
      simp only [lastRaw, List.getLast?_cons_cons]
      cases h : (f :: g).getLast? with
      | none => simp at h
      | some x => simp only [loadEntry_frameBits]

/-- Loading a group with no register twice is what the rule says (R202, R204). -/
theorem loadGroup_loaded (s : State) (g : List Entry) (hg : noRegTwice g = true) : groupLoaded s (loadGroup s g) g :=
  ⟨fun e he => readParam_loadGroup_mem s g hg e he, fun r hr => readParam_loadGroup_ne s g r hr⟩

/-- A group loaded depends on the frame and the parameter files only. -/
theorem groupLoaded_congr {s s' u u' : State} {g : List Entry} (h : groupLoaded s u g)
    (hf : s'.frame = s.frame) (hs : ∀ r, readParam s' r = readParam s r) (hu : ∀ r, readParam u' r = readParam u r) :
    groupLoaded s' u' g :=
  ⟨fun e he => by rw [hu, h.1 e he, hf], fun r hr => by rw [hu, hs, h.2 r hr]⟩

/-! ## `sfdec` (R202, R210 to R216, R220 to R224) -/

/-- The state `sfdec` loads a group from: the time of week read and reported, the identifier recorded. -/
def headerRead (s : State) (id : Fin 5) (asm : AsmRegs → AsmRegs) : State :=
  { s with
      acc := BitVec.ofNat 64 (readUnsigned s.frame s.params.FIELD_TABLE.towc)
      asm := asm { s.asm with last_sfid := BitVec.ofNat 3 id.val, tow_report := frameTow s.params s.frame } }

theorem setAcc_natCast (s : State) (n : Nat) : s.setAcc (n : Int) = { s with acc := BitVec.ofNat 64 n } := by
  simp [State.setAcc]

@[simp] theorem sfdec_identifier (s : State) : (sfdec s).1 = frameSfid s.params s.frame := by
  unfold sfdec
  dsimp only
  split
  · rfl
  · split
    · rfl
    · split <;> rfl

theorem sfdec_zero (s : State) (h : frameSfid s.params s.frame = 0) :
    (sfdec s).2 =
      { s with
          acc := BitVec.ofNat 64 (readUnsigned s.frame s.params.FIELD_TABLE.sfid)
          asm := { s.asm with last_sfid := 0, tow_report := 0 } } := by
  simp [sfdec, h, readHeaderField, setAcc_natCast]

theorem sfdec_one (s : State) (h : frameSfid s.params s.frame = 1) :
    (sfdec s).2 =
      loadGroup (headerRead s 1 fun a => { a with sf1_tow := frameTow s.params s.frame }) s.params.FIELD_TABLE.SF1 := by
  simp [sfdec, h, readHeaderField, setAcc_natCast, subframe1, headerRead]

/-- The state after the loads of a subframe 2, before the validation. -/
def subframe2Loaded (s : State) : State :=
  loadGroup (headerRead s 2 fun a => { a with sf2_tow := frameTow s.params s.frame }) s.params.FIELD_TABLE.SF2

theorem sfdec_two (s : State) (h : frameSfid s.params s.frame = 2) :
    (sfdec s).2 =
      if validated (subframe2Loaded s).asm then publishEphemeris (subframe2Loaded s) else subframe2Loaded s := by
  simp [sfdec, h, readHeaderField, setAcc_natCast, subframe2, subframe2Loaded, headerRead]

/-- The state of a page once its message type is read. -/
def pageRead (s : State) : State :=
  { headerRead s (frameSfid s.params s.frame) (fun a => { a with paged_tow := frameTow s.params s.frame }) with
      acc := BitVec.ofNat 64 (readUnsigned s.frame s.params.FIELD_TABLE.msgid) }

theorem sfdec_page (s : State) (h0 : frameSfid s.params s.frame ≠ 0) (h1 : frameSfid s.params s.frame ≠ 1)
    (h2 : frameSfid s.params s.frame ≠ 2) :
    (sfdec s).2 =
      let mt := readUnsigned s.frame s.params.FIELD_TABLE.msgid
      if mt = 9 ∨ mt = 26 then pageUtc (pageRead s)
      else if mt = 11 then pageEopIono (pageRead s)
      else pageRead s := by
  simp [sfdec, h0, h1, h2, readHeaderField, setAcc_natCast, pagedSubframe, pageRead, headerRead]

/-- A page of message type 9 or 26: the group loaded, one UtcModel snapshot out, the one-shot flag 0 (R213, R223). -/
theorem pageUtc_eq (s : State) :
    pageUtc s =
      { loadGroup s s.params.FIELD_TABLE.MT_UTC with
          tlm := s.tlm ++ [.utcModel (loadGroup s s.params.FIELD_TABLE.MT_UTC).utc]
          asm := { s.asm with utc_valid := false } } := by
  simp [pageUtc, publishUtc, State.emitTlm]

/-- A page of message type 11: the group loaded, one Iono snapshot out, the one-shot flag 0 (R214, R223). -/
theorem pageEopIono_eq (s : State) :
    pageEopIono s =
      { loadGroup s s.params.FIELD_TABLE.MT_EOP_IONO with
          tlm := s.tlm ++ [.iono (loadGroup s s.params.FIELD_TABLE.MT_EOP_IONO).iono]
          asm := { s.asm with iono_valid := false } } := by
  simp [pageEopIono, publishIono, State.emitTlm]

/-- What `sfdec` may write: `ACC`, the assembler, the four parameter files and the channel TLM (R202). -/
structure AssemblerFrame (s t : State) : Prop where
  frame_eq : t =
    { s with
        acc := t.acc, asm := t.asm, eph := t.eph, utc := t.utc, iono := t.iono, eop := t.eop, tlm := t.tlm }

theorem loadGroup_assemblerFrame {s s' : State} (h : AssemblerFrame s s') (g : List Entry) :
    AssemblerFrame s (loadGroup s' g) := by
  constructor
  rw [loadGroup_frame, h.frame_eq]

/-- `sfdec` writes nothing else. -/
theorem sfdec_frame (s : State) : AssemblerFrame s (sfdec s).2 := by
  by_cases h0 : frameSfid s.params s.frame = 0
  · rw [sfdec_zero s h0]; exact ⟨rfl⟩
  by_cases h1 : frameSfid s.params s.frame = 1
  · rw [sfdec_one s h1]; exact loadGroup_assemblerFrame ⟨rfl⟩ _
  by_cases h2 : frameSfid s.params s.frame = 2
  · rw [sfdec_two s h2]
    have h : AssemblerFrame s (subframe2Loaded s) := loadGroup_assemblerFrame ⟨rfl⟩ _
    split
    · exact ⟨by rw [publishEphemeris, State.emitTlm, h.frame_eq]⟩
    · exact h
  · rw [sfdec_page s h0 h1 h2]
    have h : AssemblerFrame s (pageRead s) := ⟨rfl⟩
    dsimp only
    split
    · rw [pageUtc_eq]
      exact ⟨by rw [(loadGroup_assemblerFrame h _).frame_eq]⟩
    · split
      · rw [pageEopIono_eq]
        exact ⟨by rw [(loadGroup_assemblerFrame h _).frame_eq]⟩
      · exact h

/-- What `sfdec` leaves in the assembler's registers and on TLM, whatever the frame (R202, R210 to R216, R220 to R224). -/
structure AssemblerLeaves (s t : State) (id : Fin 5) : Prop where
  sfid       : t.asm.last_sfid = BitVec.ofNat 3 id.val
  iono_valid : s.asm.iono_valid = false → t.asm.iono_valid = false
  utc_valid  : s.asm.utc_valid = false → t.asm.utc_valid = false
  tow        : t.asm.tow_report = if id = 0 then 0 else frameTow s.params s.frame
  published  : t.tlm = s.tlm ∨ ∃ m, t.tlm = s.tlm ++ [m] ∧
    match m with
    | .ephemeris prn e d =>
      prn = t.sat_prn ∧ e = t.eph ∧ d = t.derived ∧ id = 2 ∧ t.asm.sf1_tow ≠ 0 ∧ t.asm.sf2_tow ≠ 0 ∧ t.asm.paged_tow ≠ 0
    | .iono x => x = t.iono ∧ (id = 3 ∨ id = 4) ∧ t.asm.iono_valid = false
    | .utcModel x => x = t.utc ∧ (id = 3 ∨ id = 4) ∧ t.asm.utc_valid = false

theorem sfdec_leaves (s : State) : AssemblerLeaves s (sfdec s).2 (frameSfid s.params s.frame) := by
  by_cases h0 : frameSfid s.params s.frame = 0
  · rw [sfdec_zero s h0, h0]; exact ⟨rfl, id, id, rfl, .inl rfl⟩
  by_cases h1 : frameSfid s.params s.frame = 1
  · rw [sfdec_one s h1, h1]
    exact ⟨by simp [headerRead], by simp [headerRead], by simp [headerRead], by simp [headerRead],
      .inl (by simp [headerRead])⟩
  by_cases h2 : frameSfid s.params s.frame = 2
  · rw [sfdec_two s h2, h2]
    have ha : (subframe2Loaded s).asm =
        { s.asm with last_sfid := 2, tow_report := frameTow s.params s.frame, sf2_tow := frameTow s.params s.frame } := by
      simp [subframe2Loaded, headerRead]
    have ht : (subframe2Loaded s).tlm = s.tlm := by simp [subframe2Loaded, headerRead]
    split
    · rename_i hv
      simp only [validated, Bool.and_eq_true, decide_eq_true_eq] at hv
      exact ⟨by simp [publishEphemeris, ha], by simp [publishEphemeris, ha], by simp [publishEphemeris, ha],
        by simp [publishEphemeris, ha],
        .inr ⟨.ephemeris _ _ _, by simp [publishEphemeris, ht], rfl, rfl, rfl, rfl, hv.1.1, hv.1.2, hv.2⟩⟩
    · exact ⟨by simp [ha], by simp [ha], by simp [ha], by simp [ha], .inl ht⟩
  · rw [sfdec_page s h0 h1 h2]
    have h34 : frameSfid s.params s.frame = 3 ∨ frameSfid s.params s.frame = 4 := by omega
    dsimp only
    split
    · rw [pageUtc_eq]
      exact ⟨rfl, id, fun _ => rfl, by simp [h0, pageRead, headerRead],
        .inr ⟨.utcModel _, rfl, rfl, h34, rfl⟩⟩
    · split
      · rw [pageEopIono_eq]
        exact ⟨rfl, fun _ => rfl, id, by simp [h0, pageRead, headerRead], .inr ⟨.iono _, rfl, rfl, h34, rfl⟩⟩
      · exact ⟨rfl, id, id, by simp [h0, pageRead, headerRead], .inl rfl⟩

end Sys2Proof.Machine
end

