-- ==== Sys2Proof/Laws/Viterbi.lean ====
section
/-! SUPPORT. The index forms the spec gives the Convolutional Decoder: the block transpose (41_conv_decoder.md R144, R146), polarity
correction (R148), and the Viterbi decoder's metrics, survivors, end state and traceback (R150 to R156). -/

namespace Sys2Proof.Machine

/-! ## Blocks stored row by row -/

theorem flatMap_block_length {α : Type} (f : Nat → Nat → α) (n m : Nat) :
    ((List.range n).flatMap fun c => (List.range m).map (f c)).length = n * m := by
  induction n with
  | zero => simp
  | succ n ih => rw [List.range_succ, List.flatMap_append, List.length_append, ih, Nat.succ_mul]; simp

/-- A block written out row by row has the element of row `c`, column `r` at `c * m + r`. -/
theorem flatMap_block_getElem? {α : Type} (f : Nat → Nat → α) (n m c r : Nat) (hc : c < n) (hr : r < m) :
    ((List.range n).flatMap fun c => (List.range m).map (f c))[c * m + r]? = some (f c r) := by
  induction n with
  | zero => omega
  | succ n ih =>
    have hl : ((List.range n).flatMap fun c => (List.range m).map (f c)).length = n * m := flatMap_block_length f n m
    rw [List.range_succ, List.flatMap_append]
    by_cases hcn : c < n
    · have h1 : c * m + m ≤ n * m := by
        rw [← Nat.succ_mul]; exact Nat.mul_le_mul_right m hcn
      rw [List.getElem?_append_left (by rw [hl]; omega)]
      exact ih hcn
    · have : c = n := by omega
      subst this
      rw [List.getElem?_append_right (by rw [hl]; omega), hl]
      simp [hr]

theorem symAt_blockAt (buf : List Int) (w r c : Nat) : blockAt buf w r c = symAt buf (r * w + c) := by
  simp [blockAt, symAt, List.getD_eq_getElem?_getD]

@[simp] theorem deinterleave_length (buf : List Int) : (deinterleave buf).length = 584 := flatMap_block_length _ 73 8

@[simp] theorem interleave_length (buf : List Int) : (interleave buf).length = 584 := flatMap_block_length _ 8 73

/-- The de-interleaver's index formula (R144). -/
theorem symAt_deinterleave (buf : List Int) (r c : Nat) (hr : r < 8) (hc : c < 73) :
    symAt (deinterleave buf) (c * 8 + r) = symAt buf (r * 73 + c) := by
  have h : (deinterleave buf)[c * 8 + r]? = some (blockAt buf 73 r c) :=
    flatMap_block_getElem? (fun c r => blockAt buf 73 r c) 73 8 c r hc hr
  rw [← symAt_blockAt buf 73 r c, symAt, List.getD_eq_getElem?_getD, h]
  rfl

/-- The interleave function's index formula (R146). -/
theorem symAt_interleave (buf : List Int) (r c : Nat) (hr : r < 8) (hc : c < 73) :
    symAt (interleave buf) (r * 73 + c) = symAt buf (c * 8 + r) := by
  have h : (interleave buf)[r * 73 + c]? = some (blockAt buf 8 c r) :=
    flatMap_block_getElem? (fun r c => blockAt buf 8 c r) 8 73 r c hr hc
  rw [← symAt_blockAt buf 8 c r, symAt, List.getD_eq_getElem?_getD, h]
  rfl

/-- Two buffers of one length with the same elements are equal. -/
theorem symbols_ext {a b : List Int} (hl : a.length = b.length) (h : ∀ i, i < a.length → symAt a i = symAt b i) : a = b := by
  apply List.ext_getElem hl
  intro i h1 h2
  have := h i h1
  simpa [symAt, List.getD_eq_getElem?_getD, h1, h2] using this

/-- Every element of a de-interleaved buffer is an element of the buffer, or 0 where the buffer is short. -/
theorem mem_deinterleave {buf : List Int} {y : Int} (h : y ∈ deinterleave buf) : y ∈ buf ∨ y = 0 := by
  simp only [deinterleave, List.mem_flatMap, List.mem_map] at h
  obtain ⟨c, -, r, -, rfl⟩ := h
  rw [symAt_blockAt, symAt, List.getD_eq_getElem?_getD]
  cases hx : buf[r * INTLV_COLS + c]? with
  | none => exact .inr rfl
  | some x => exact .inl (List.mem_of_getElem? hx)

/-! ## Polarity correction (R148) -/

@[simp] theorem correctPolarity_length (l : List Int) : (correctPolarity l).length = l.length := by
  induction l using correctPolarity.induct with
  | case1 => rfl
  | case2 => rfl
  | case3 y0 y1 rest ih => simp [correctPolarity, ih]

theorem symAt_correctPolarity (l : List Int) (i : Nat) :
    symAt (correctPolarity l) i = if i % 2 = 1 then -symAt l i else symAt l i := by
  induction l using correctPolarity.induct generalizing i with
  | case1 => simp [symAt, correctPolarity]
  | case2 y =>
    rcases i with _ | i
    · simp [symAt, correctPolarity]
    · simp [symAt, correctPolarity]
  | case3 y0 y1 rest ih =>
    rcases i with _ | _ | i
    · rfl
    · rfl
    · rw [show (i + 1 + 1) % 2 = i % 2 by omega]
      exact ih i

theorem correctPolarity_involutive (l : List Int) : correctPolarity (correctPolarity l) = l := by
  induction l using correctPolarity.induct with
  | case1 => rfl
  | case2 => rfl
  | case3 y0 y1 rest ih => simp [correctPolarity, ih]

theorem mem_correctPolarity {l : List Int} {y : Int} (h : y ∈ correctPolarity l) : y ∈ l ∨ -y ∈ l := by
  induction l using correctPolarity.induct with
  | case1 => cases h
  | case2 => exact .inl h
  | case3 y0 y1 rest ih =>
    simp only [correctPolarity, List.mem_cons] at h ⊢
    rcases h with rfl | rfl | h
    · exact .inl (.inl rfl)
    · exact .inr (.inr (.inl (by simp)))
    · rcases ih h with h | h
      · exact .inl (.inr (.inr h))
      · exact .inr (.inr (.inr h))

/-! ## Pairs of symbols -/

theorem inPairs_getElem? {α : Type} (l : List α) (j : Nat) (h : 2 * j + 1 < l.length) :
    (inPairs l)[j]? = some (l[2 * j], l[2 * j + 1]) := by
  induction l using inPairs.induct generalizing j with
  | case1 a b rest ih =>
    cases j with
    | zero => rfl
    | succ j =>
      have h' : 2 * j + 1 < rest.length := by simp at h; omega
      simpa [inPairs, Nat.mul_add] using ih j h'
  | case2 l hl =>
    rcases l with _ | ⟨a, _ | ⟨b, rest⟩⟩
    · simp at h
    · simp at h
    · exact absurd rfl (hl a b rest)

theorem inPairs_length {α : Type} (l : List α) : (inPairs l).length = l.length / 2 := by
  induction l using inPairs.induct with
  | case1 a b rest ih => simp [inPairs, ih]; omega
  | case2 l hl =>
    rcases l with _ | ⟨a, _ | ⟨b, rest⟩⟩
    · simp [inPairs]
    · simp [inPairs]
    · exact absurd rfl (hl a b rest)

/-- Pair `k` of a buffer is its symbols `2k` and `2k + 1` (R147). -/
theorem inPairs_symAt (buf : List Int) (k : Nat) (h : 2 * k + 1 < buf.length) :
    (inPairs buf)[k]? = some (symAt buf (2 * k), symAt buf (2 * k + 1)) := by
  rw [inPairs_getElem? buf k h]
  simp [symAt, List.getD_eq_getElem?_getD, show 2 * k < buf.length by omega, h]

/-! ## Metrics (R152) -/

theorem metricLess_asymm {a b : Metric} (h : metricLess a b = true) : metricLess b a = false := by
  cases a <;> cases b <;> simp_all [metricLess]; omega

theorem metricLess_irrefl (a : Metric) : metricLess a a = false := by cases a <;> simp [metricLess]

/-- Not less either way is a transitive bound: from `b` not below `a` and `c` not below `b`, `c` is not below `a`. -/
theorem metricLess_trans_le {a b c : Metric} (h1 : metricLess b a = false) (h2 : metricLess c b = false) :
    metricLess c a = false := by
  cases a <;> cases b <;> cases c <;> simp_all [metricLess]; omega

theorem metricLess_of_lt_of_le {a b c : Metric} (h1 : metricLess a b = true) (h2 : metricLess c b = false) :
    metricLess a c = true := by
  cases a <;> cases b <;> cases c <;> simp_all [metricLess]; omega

/-! ## One step of the trellis (R153) -/

@[simp] theorem trellis_length : trellis.length = 64 := by simp [trellis]

theorem predecessorMetrics_getElem? (pm : List Metric) (hl : pm.length = 64) (s : Nat) (hs : s < 64) :
    (predecessorMetrics pm)[s]? = some (metricAt pm (s % 32 * 2), metricAt pm (s % 32 * 2 + 1)) := by
  have hp : (inPairs pm).length = 32 := by rw [inPairs_length, hl]
  have key : ∀ j, j < 32 → (inPairs pm)[j]? = some (metricAt pm (j * 2), metricAt pm (j * 2 + 1)) := by
    intro j hj
    rw [inPairs_getElem? pm j (by omega)]
    simp [metricAt, List.getD_eq_getElem?_getD, hl, show j * 2 < 64 by omega, show j * 2 + 1 < 64 by omega, Nat.mul_comm]
  unfold predecessorMetrics
  by_cases h : s < 32
  · rw [List.getElem?_append_left (by omega), key s h, Nat.mod_eq_of_lt h]
  · rw [List.getElem?_append_right (by omega), hp, key _ (by omega), show s % 32 = s - 32 by omega]

/-- The step for one state, as R153 words it. -/
theorem trellisStep_getElem? (pm : List Metric) (y : Int × Int) (hl : pm.length = 64) (s : Nat) (hs : s < 64) :
    (trellisStep pm y)[s]? =
      some (addCompareSelect y (metricAt pm (s % 32 * 2), metricAt pm (s % 32 * 2 + 1)) (branchBits s)) := by
  unfold trellisStep
  rw [List.getElem?_zipWith, predecessorMetrics_getElem? pm hl s hs]
  simp [trellis, hs]

theorem trellisStep_length (pm : List Metric) (y : Int × Int) (hl : pm.length = 64) : (trellisStep pm y).length = 64 := by
  simp [trellisStep, predecessorMetrics, inPairs_length, hl]

/-- A list of metrics holds the path metrics before step `k`. -/
structure HoldsMetrics (buf : List Int) (k : Nat) (pm : List Metric) : Prop where
  length : pm.length = 64
  value  : ∀ s, s < 64 → metricAt pm s = pathMetric buf k s

/-- A survivor memory, the last step first, holds the survivors of the steps below `k`. -/
structure HoldsSurvivors (buf : List Int) (k : Nat) (sel : List (List Bool)) : Prop where
  length : sel.length = k
  value  : ∀ i, i < k → ∀ s, s < 64 → ((sel[i]?).getD []).getD s false = survivor buf (k - 1 - i) s

theorem startMetrics_hold (buf : List Int) : HoldsMetrics buf 0 startMetrics := by
  refine ⟨rfl, fun s hs => ?_⟩
  rcases s with _ | s
  · rfl
  · show (List.replicate 63 none).getD s none = none
    rw [List.getD_eq_getElem?_getD, List.getElem?_replicate]
    split <;> rfl

theorem trellisStep_holds (buf : List Int) (k : Nat) (pm : List Metric) (h : HoldsMetrics buf k pm) :
    HoldsMetrics buf (k + 1) ((trellisStep pm (symAt buf (2 * k), symAt buf (2 * k + 1))).map Prod.fst)
    ∧ ∀ s, s < 64 →
        ((trellisStep pm (symAt buf (2 * k), symAt buf (2 * k + 1))).map Prod.snd).getD s false = survivor buf k s := by
  have key : ∀ s, s < 64 →
      addCompareSelect (symAt buf (2 * k), symAt buf (2 * k + 1)) (metricAt pm (s % 32 * 2), metricAt pm (s % 32 * 2 + 1))
        (branchBits s) = (pathMetric buf (k + 1) s, survivor buf k s) := by
    intro s hs
    rw [h.value _ (by omega), h.value _ (by omega)]
    have hacs : ∀ m0 m1 : Metric,
        (if metricLess m1 m0 = true then (m1, true) else (m0, false))
          = (if metricLess m1 m0 = true then m1 else m0, metricLess m1 m0) := by
      intro m0 m1
      cases metricLess m1 m0 <;> rfl
    exact hacs _ _
  refine ⟨⟨by simp [trellisStep_length _ _ h.length], fun s hs => ?_⟩, fun s hs => ?_⟩
  · rw [metricAt, List.getD_eq_getElem?_getD, List.getElem?_map, trellisStep_getElem? _ _ h.length s hs, key s hs]
    rfl
  · rw [List.getD_eq_getElem?_getD, List.getElem?_map, trellisStep_getElem? _ _ h.length s hs, key s hs]
    rfl

/-- The forward pass over the pairs from step `k` on (R153). -/
theorem forward_holds (buf : List Int) (ys : List (Int × Int)) (k : Nat) (pm : List Metric) (sel : List (List Bool))
    (hy : ∀ j, j < ys.length → ys[j]? = some (symAt buf (2 * (k + j)), symAt buf (2 * (k + j) + 1)))
    (hp : HoldsMetrics buf k pm) (hs : HoldsSurvivors buf k sel) :
    HoldsMetrics buf (k + ys.length) (forward ys pm sel).1 ∧ HoldsSurvivors buf (k + ys.length) (forward ys pm sel).2 := by
  induction ys generalizing k pm sel with
  | nil => exact ⟨hp, hs⟩
  | cons y ys ih =>
    have h0 : y = (symAt buf (2 * k), symAt buf (2 * k + 1)) := by simpa using hy 0 (by simp)
    have hstep := trellisStep_holds buf k pm hp
    rw [← h0] at hstep
    have := ih (k + 1) _ (((trellisStep pm y).map Prod.snd) :: sel)
      (fun j hj => by
        have := hy (j + 1) (by simpa using hj)
        simpa [show k + (j + 1) = k + 1 + j by omega] using this)
      hstep.1
      ⟨by simp [hs.length], fun i hi s hs64 => by
        cases i with
        | zero => simpa using hstep.2 s hs64
        | succ i =>
          simpa [show k - (i + 1) = k - 1 - i by omega] using hs.value i (by omega) s hs64⟩
    simpa [forward, show k + 1 + ys.length = k + (ys.length + 1) by omega] using this

/-! ## The end state (R154) -/

/-- The end state is a state of least metric, and the least of them. -/
theorem bestState_spec (pm : List Metric) (n : Nat) :
    bestState pm (n + 1) < n + 1
    ∧ (∀ x, x < n + 1 → metricLess (metricAt pm x) (metricAt pm (bestState pm (n + 1))) = false)
    ∧ ∀ x, x < bestState pm (n + 1) → metricLess (metricAt pm (bestState pm (n + 1))) (metricAt pm x) = true := by
  induction n with
  | zero =>
    have h : bestState pm 1 = 0 := by rw [bestState]; split <;> rfl
    rw [h]
    exact ⟨by omega, fun x hx => by rw [show x = 0 by omega]; exact metricLess_irrefl _, fun x hx => by omega⟩
  | succ n ih =>
    obtain ⟨hlt, hle, hmin⟩ := ih
    by_cases hm : metricLess (metricAt pm (n + 1)) (metricAt pm (bestState pm (n + 1))) = true
    · have h : bestState pm (n + 1 + 1) = n + 1 := by rw [bestState, if_pos hm]
      rw [h]
      refine ⟨by omega, fun x hx => ?_, fun x hx => metricLess_of_lt_of_le hm (hle x hx)⟩
      by_cases hx' : x = n + 1
      · rw [hx']; exact metricLess_irrefl _
      · exact metricLess_trans_le (metricLess_asymm hm) (hle x (by omega))
    · have h : bestState pm (n + 1 + 1) = bestState pm (n + 1) := by rw [bestState, if_neg hm]
      rw [h]
      refine ⟨by omega, fun x hx => ?_, hmin⟩
      by_cases hx' : x = n + 1
      · rw [hx']; simpa using hm
      · exact hle x (by omega)

/-! ## The traceback (R155) -/

theorem predecessor_lt (s : Nat) (b : Bool) : predecessor s b < 64 := by
  unfold predecessor; cases b <;> simp <;> omega

@[simp] theorem traceback_length (sel : List (List Bool)) (s : Nat) (bits : List Bool) :
    (traceback sel s bits).length = sel.length + bits.length := by
  induction sel generalizing s bits with
  | nil => simp [traceback]
  | cons x rest ih => simp [traceback, ih]; omega

theorem tracedState_lt (buf : List Int) (e : Nat) (he : e < 64) (j : Nat) : tracedState buf e j < 64 := by
  cases j with
  | zero => exact he
  | succ j => exact predecessor_lt _ _

/-- Bit `i` from the end of what a traceback puts in front: the entering bit of the state `i` steps back. -/
theorem traceback_getElem? (sel : List (List Bool)) (state : Nat → Nat) (bits : List Bool) (s j : Nat)
    (h0 : state j = s) (hstep : ∀ i, i < sel.length →
      state (j + i + 1) = predecessor (state (j + i)) (((sel[i]?).getD []).getD (state (j + i)) false))
    (i : Nat) (hi : i < sel.length) :
    (traceback sel s bits)[sel.length - 1 - i]? = some (enteringBit (state (j + i))) := by
  induction sel generalizing s j bits i with
  | nil => simp at hi
  | cons x rest ih =>
    have hs1 : state (j + 1) = predecessor s (x.getD s false) := by
      have := hstep 0 (by simp)
      simpa [h0] using this
    have hlen : (traceback rest (predecessor s (x.getD s false)) (enteringBit s :: bits)).length = rest.length + bits.length + 1 := by
      simp; omega
    simp only [traceback, List.length_cons]
    cases i with
    | zero =>
      have hgen : ∀ (sel : List (List Bool)) (s : Nat) (bits : List Bool),
          (traceback sel s bits).drop sel.length = bits := by
        intro sel
        induction sel with
        | nil => intro s bits; rfl
        | cons x rest ih2 =>
          intro s bits
          have h := ih2 (predecessor s (x.getD s false)) (enteringBit s :: bits)
          have h2 := congrArg (List.drop 1) h
          rw [List.drop_drop] at h2
          simpa [traceback, Nat.add_comm] using h2
      have h := hgen rest (predecessor s (x.getD s false)) (enteringBit s :: bits)
      have h2 := congrArg (fun l => l[0]?) h
      simp only [List.getElem?_drop] at h2
      simpa [h0] using h2
    | succ i =>
      have hi' : i < rest.length := by simpa using hi
      have := ih (bits := enteringBit s :: bits) (s := predecessor s (x.getD s false)) (j := j + 1) hs1
        (fun i hi => by
          have := hstep (i + 1) (by simpa using hi)
          simpa [show j + (i + 1) = j + 1 + i by omega] using this) i hi'
      rw [show rest.length + 1 - 1 - (i + 1) = rest.length - 1 - i by omega,
        show j + (i + 1) = j + 1 + i by omega]
      exact this

/-! ## The whole decoder (R152 to R156) -/

theorem forward_length (ys : List (Int × Int)) (pm : List Metric) (sel : List (List Bool)) :
    (forward ys pm sel).2.length = ys.length + sel.length := by
  induction ys generalizing pm sel with
  | nil => simp [forward]
  | cons y ys ih => simp [forward, ih]; omega

/-- Half as many bits as symbols, whatever they are (R156, R157). -/
@[simp] theorem viterbi_length (buf : List Int) : (viterbi buf).length = buf.length / 2 := by
  simp [viterbi, viterbiPairs, forward_length, inPairs_length]

/-- The decoder in the spec's indices: its end state is the least state of least metric, and bit `k` is the bit that entered the
state reached after `291 - k` steps back (R152 to R156). -/
theorem viterbi_spec (buf : List Int) (hl : buf.length = 584) :
    ∃ e, e < 64
      ∧ (∀ x, x < 64 → metricLess (pathMetric buf 292 x) (pathMetric buf 292 e) = false)
      ∧ (∀ x, x < e → metricLess (pathMetric buf 292 e) (pathMetric buf 292 x) = true)
      ∧ ∀ k, k < 292 → (viterbi buf)[k]? = some (enteringBit (tracedState buf e (291 - k))) := by
  have hpl : (inPairs buf).length = 292 := by rw [inPairs_length, hl]
  obtain ⟨hm, hs⟩ := forward_holds buf (inPairs buf) 0 startMetrics []
    (fun j hj => by
      have := inPairs_symAt buf j (by omega)
      simpa using this)
    (startMetrics_hold buf) ⟨rfl, fun i hi => by omega⟩
  rw [hpl, Nat.zero_add] at hm hs
  obtain ⟨hlt, hle, hmin⟩ := bestState_spec (forward (inPairs buf) startMetrics []).1 63
  refine ⟨bestState (forward (inPairs buf) startMetrics []).1 64, hlt, fun x hx => ?_, fun x hx => ?_, fun k hk => ?_⟩
  · rw [← hm.value x hx, ← hm.value _ hlt]; exact hle x hx
  · have hx64 : x < 64 := Nat.lt_trans hx hlt
    rw [← hm.value _ hlt, ← hm.value x hx64]; exact hmin x hx
  · have h := traceback_getElem? (forward (inPairs buf) startMetrics []).2
      (tracedState buf (bestState (forward (inPairs buf) startMetrics []).1 64)) []
      (bestState (forward (inPairs buf) startMetrics []).1 64) 0 rfl
      (fun i hi => by
        rw [hs.length] at hi
        rw [Nat.zero_add, hs.value i hi _ (tracedState_lt buf _ hlt i)]
        rfl)
      (291 - k) (by rw [hs.length]; omega)
    rw [hs.length, show 292 - 1 - (291 - k) = k by omega, Nat.zero_add] at h
    exact h

end Sys2Proof.Machine
end

