-- ==== Sys2Proof/Laws/FrameSync.lean ====
section
/-! SUPPORT. The Frame Synchronizer: the history, the correlator, what a decode attempt does, and one SYM cycle stage by stage
(40_frame_sync.md R102 to R121). -/

namespace Sys2Proof.Machine

/-! ## History and sign (R103) -/

theorem signOf_eq (p : BitVec 32) : signOf p = signOfInt p.toInt := by
  simp only [signOf, signOfInt, BitVec.msb_eq_toInt, decide_eq_true_eq]

theorem pushHist_eq (h : List Sign) (x : Sign) : pushHist h x = (h ++ [x]).drop ((h ++ [x]).length - 601) := by
  unfold pushHist
  split
  · rename_i hl
    have hl' : h.length < 601 := hl
    rw [show (h ++ [x]).length - 601 = 0 by rw [List.length_append, List.length_singleton]; omega, List.drop_zero]
  · rename_i hl
    have hl' : ¬ h.length < 601 := hl
    rw [List.drop_append_of_le_length (by rw [List.length_append, List.length_singleton]; omega)]
    simp [HIST_CAP]

theorem historyAfter_eq (s : State) (r : Symbol) : historyAfter s r = pushHist s.hist (signOf r.prompt_I) := by
  rw [pushHist_eq, signOf_eq]; rfl

theorem pushHist_length (h : List Sign) (x : Sign) : (pushHist h x).length = min (h.length + 1) 601 := by
  rw [pushHist_eq]; simp; omega

/-! ## The correlator (R107, R108) -/

theorem preambleSamples_eq : preambleSamples = preambleSigns.map signValue := by decide

/-- The sum of the products of two sign lists: within their length, of its parity, at a bound only for full agreement. -/
theorem signProduct_spec (a p : List Sign) (hl : a.length = p.length) :
    -(p.length : Int) ≤ ((a.map signValue).zipWith (· * ·) (p.map signValue)).sum
    ∧ ((a.map signValue).zipWith (· * ·) (p.map signValue)).sum ≤ p.length
    ∧ (((a.map signValue).zipWith (· * ·) (p.map signValue)).sum - p.length) % 2 = 0
    ∧ (((a.map signValue).zipWith (· * ·) (p.map signValue)).sum = p.length ↔ a = p)
    ∧ (((a.map signValue).zipWith (· * ·) (p.map signValue)).sum = -(p.length : Int) ↔ a = p.map oppositeSign) := by
  induction a generalizing p with
  | nil =>
    cases p with
    | nil => simp
    | cons _ _ => simp at hl
  | cons x a ih =>
    cases p with
    | nil => simp at hl
    | cons q p =>
      obtain ⟨h1, h2, h3, h4, h5⟩ := ih p (by simpa using hl)
      simp only [List.map_cons, List.zipWith_cons_cons, List.sum_cons, List.length_cons, List.cons.injEq]
      have hx : (x = q ∧ x ≠ oppositeSign q ∧ signValue x * signValue q = 1)
          ∨ (x ≠ q ∧ x = oppositeSign q ∧ signValue x * signValue q = -1) := by
        cases x <;> cases q <;> simp [signValue, oppositeSign]
      rcases hx with ⟨ha, hb, hv⟩ | ⟨ha, hb, hv⟩
      · rw [hv]
        refine ⟨by omega, by omega, by omega, ?_, ?_⟩
        · rw [← h4]; simp only [ha, true_and]; omega
        · simp only [hb, false_and, iff_false]; omega
      · rw [hv]
        refine ⟨by omega, by omega, by omega, ?_, ?_⟩
        · simp only [ha, false_and, iff_false]; omega
        · rw [← h5]; simp only [hb, true_and]; omega

theorem correlation_spec (h : List Sign) (hl : 16 ≤ h.length) :
    -16 ≤ correlation h ∧ correlation h ≤ 16 ∧ correlation h % 2 = 0
    ∧ (correlation h = 16 ↔ h.drop (h.length - 16) = preambleSigns)
    ∧ (correlation h = -16 ↔ h.drop (h.length - 16) = preambleSigns.map oppositeSign) := by
  have := signProduct_spec (h.drop (h.length - 16)) preambleSigns (by simp [preambleSigns]; omega)
  rw [← preambleSamples_eq] at this
  have hp : (preambleSigns.length : Int) = 16 := rfl
  rw [hp] at this
  obtain ⟨h1, h2, h3, h4, h5⟩ := this
  exact ⟨h1, h2, by
    have hc : correlation h = ((h.drop (h.length - 16)).map signValue |>.zipWith (· * ·) preambleSamples).sum := rfl
    omega, h4, h5⟩

/-- A hit of the correlator is a preamble in one polarity, and the sign of the correlation tells which (R107). -/
theorem preambleHit_eq (h : List Sign) :
    preambleHit h = if 16 ≤ h.length ∧ isHit h then some (decide (correlation h < 0)) else none := by
  unfold preambleHit
  by_cases hl : h.length < 16
  · rw [if_pos hl, if_neg (by omega)]
  · rw [if_neg hl]
    obtain ⟨h1, h2, -, h4, h5⟩ := correlation_spec h (by omega)
    by_cases ha : h.drop (h.length - 16) = preambleSigns
    · have hc := h4.2 ha
      rw [if_pos ha, if_pos ⟨by omega, by simp [isHit, hc, CORR_THRESHOLD]⟩]
      simp [hc]
    · by_cases hb : h.drop (h.length - 16) = preambleSigns.map oppositeSign
      · have hc := h5.2 hb
        rw [if_neg ha, if_pos hb, if_pos ⟨by omega, by simp [isHit, hc, CORR_THRESHOLD]⟩]
        simp [hc]
      · rw [if_neg ha, if_neg hb, if_neg]
        rintro ⟨-, hit⟩
        have hit : 16 ≤ (correlation h).natAbs := of_decide_eq_true hit
        rw [← h4] at ha
        rw [← h5] at hb
        omega

/-! ## The window (R109, R110) -/

theorem window_length (h : List Sign) (hl : 600 ≤ h.length) : (window h).length = 584 := by
  simp [window, SUBFRAME_SYMBOLS, FRAME_SYMBOLS]; omega

theorem windowSymbols_length (inv : Bool) (h : List Sign) (hl : 600 ≤ h.length) : (windowSymbols inv h).length = 584 := by
  simp [windowSymbols, window_length h hl]

theorem mem_windowSymbols {inv : Bool} {h : List Sign} {y : Int} (hy : y ∈ windowSymbols inv h) : y = 1 ∨ y = -1 := by
  simp only [windowSymbols, List.mem_map] at hy
  obtain ⟨x, -, rfl⟩ := hy
  cases inv <;> cases x <;> simp [signValue]

/-! ## The message part of a state, and the rest

A decode reads and writes the message part only: buffers, accumulator, assembler, parameters, publications. -/

/-- The message part of `s` with everything else of `o`. -/
def withRest (s o : State) : State :=
  { o with
      symbuf := s.symbuf, frame := s.frame, acc := s.acc, asm := s.asm, eph := s.eph, utc := s.utc, iono := s.iono, eop := s.eop
      tlm := s.tlm, params := s.params, sat_prn := s.sat_prn, derived := s.derived }

theorem loadEntry_withRest (s o : State) (e : Entry) : loadEntry (withRest s o) e = withRest (loadEntry s e) o := by
  unfold loadEntry
  cases e.reg <;> rfl

theorem loadGroup_withRest (s o : State) (g : List Entry) : loadGroup (withRest s o) g = withRest (loadGroup s g) o := by
  induction g generalizing s with
  | nil => rfl
  | cons e g ih => rw [loadGroup_cons, loadGroup_cons, loadEntry_withRest, ih]

/-- A decode does not look at the rest of the state and leaves it as it is. -/
theorem sfdec_withRest (s o : State) : (sfdec (withRest s o)).2 = withRest (sfdec s).2 o := by
  have hp : (withRest s o).params = s.params := rfl
  have hf : (withRest s o).frame = s.frame := rfl
  by_cases h0 : frameSfid s.params s.frame = 0
  · rw [sfdec_zero s h0, sfdec_zero (withRest s o) h0]; rfl
  by_cases h1 : frameSfid s.params s.frame = 1
  · rw [sfdec_one s h1, sfdec_one (withRest s o) h1, ← loadGroup_withRest]; rfl
  by_cases h2 : frameSfid s.params s.frame = 2
  · have hl : subframe2Loaded (withRest s o) = withRest (subframe2Loaded s) o := by
      unfold subframe2Loaded; rw [← loadGroup_withRest]; rfl
    rw [sfdec_two s h2, sfdec_two (withRest s o) h2, hl]
    show (if validated (subframe2Loaded s).asm = true then _ else _) = _
    split <;> rfl
  · have hl : pageRead (withRest s o) = withRest (pageRead s) o := rfl
    rw [sfdec_page s h0 h1 h2, sfdec_page (withRest s o) h0 h1 h2, hl]
    dsimp only
    rw [hp, hf]
    split
    · rw [pageUtc_eq, pageUtc_eq, loadGroup_withRest]; rfl
    · split
      · rw [pageEopIono_eq, pageEopIono_eq, loadGroup_withRest]; rfl
      · rfl

/-- The state the Message Assembler starts from in `cdec`: the symbols corrected, the frame decoded (41_conv_decoder.md R165). -/
def stagesDone (s : State) : State :=
  { s with
      symbuf := correctPolarity (deinterleave s.symbuf)
      frame := viterbi (correctPolarity (deinterleave s.symbuf)) }

theorem cdec_eq (s : State) : cdec s = sfdec (stagesDone s) := rfl

theorem stagesDone_withRest (s o : State) : stagesDone (withRest s o) = withRest (stagesDone s) o := by
  simp only [stagesDone, withRest]

theorem cdec_withRest (s o : State) : (cdec (withRest s o)).2 = withRest (cdec s).2 o := by
  rw [cdec_eq, cdec_eq, stagesDone_withRest, sfdec_withRest]

/-- What `cdec` may write (41_conv_decoder.md R165). -/
structure DecoderFrame (s t : State) : Prop where
  frame_eq : t =
    { s with
        symbuf := t.symbuf, frame := t.frame, acc := t.acc, asm := t.asm, eph := t.eph, utc := t.utc, iono := t.iono
        eop := t.eop, tlm := t.tlm }

theorem cdec_frame (s : State) : DecoderFrame s (cdec s).2 := by
  rw [cdec_eq]
  have h := (sfdec_frame (stagesDone s)).frame_eq
  constructor
  rw [h]
  simp only [stagesDone]

theorem cdec_symbuf (s : State) : (cdec s).2.symbuf = correctPolarity (deinterleave s.symbuf) := by
  rw [cdec_eq, (sfdec_frame (stagesDone s)).frame_eq]
  simp only [stagesDone]

theorem cdec_frameBits (s : State) : (cdec s).2.frame = viterbi (correctPolarity (deinterleave s.symbuf)) := by
  rw [cdec_eq, (sfdec_frame (stagesDone s)).frame_eq]
  simp only [stagesDone]

@[simp] theorem cdec_identifier (s : State) :
    (cdec s).1 = frameSfid s.params (viterbi (correctPolarity (deinterleave s.symbuf))) := by
  rw [cdec_eq, sfdec_identifier]
  simp only [stagesDone]

/-- The time of week `cdec` reports is the decoded frame's. -/
theorem cdec_leaves (s : State) : AssemblerLeaves (stagesDone s) (cdec s).2 (cdec s).1 := by
  rw [cdec_eq, sfdec_identifier]
  exact sfdec_leaves (stagesDone s)

/-! ## Steps 1 to 4 (R103 to R106) -/

/-- The state at step 5: the sign pushed, the symbol counted, `flag_preamble` 0, the watchdog run. -/
def atStepFive (r : Symbol) (s : State) : State := (watchdog (acceptSymbol r s)).2

/-- Whether this cycle's watchdog emits the alarm (R106). -/
def alarms (s : State) : Bool :=
  !s.sync.alarm_sent && decide (12000 < (s.sync.sample_counter + 1 - s.sync.last_valid_preamble).toNat)

theorem watchdog_fst (r : Symbol) (s : State) : (watchdog (acceptSymbol r s)).1 = alarms s := by
  unfold watchdog
  split
  · rename_i h; exact h.symm
  · rename_i h; simp only [Bool.not_eq_true] at h; exact h.symm

theorem atStepFive_eq (r : Symbol) (s : State) :
    atStepFive r s =
      { s with
          hist := historyAfter s r
          trk := if alarms s then s.trk ++ [s.params.ALARM_CODE] else s.trk
          sync := { s.sync with
            sample_counter := s.sync.sample_counter + 1, flag_preamble := false
            alarm_sent := if alarms s then true else s.sync.alarm_sent } } := by
  rw [historyAfter_eq]
  unfold atStepFive watchdog
  have hw : watchdogFires (acceptSymbol r s).sync = alarms s := rfl
  rw [hw]
  cases alarms s <;> rfl

/-! ## Step 5 (R110, R112 to R118) -/

/-- The polarity of the attempt of step 5, from the state at step 5. -/
def attemptNow (w : State) : Option Bool :=
  if w.hist.length < 600 then none
  else match w.sync.stat with
    | .noPreamble => preambleHit w.hist
    | .possibleLock =>
      if 600 < w.hist.length ∧ w.sync.sample_counter - w.sync.preamble_index = 600 then preambleHit w.hist else none
    | .locked => if w.sync.sample_counter = w.sync.preamble_index + 600 then some w.sync.polarity_lock else none

theorem attemptOf_eq (r : Symbol) (s : State) : attemptOf s r = attemptNow (atStepFive r s) := by
  rw [atStepFive_eq]
  cases h : s.sync.stat <;> simp only [attemptOf, attemptNow, h]

/-- The synchronizer registers after step 5, from those before it, the hit, the length of the history, and whether an attempt
succeeded (R113 to R118). -/
def nextSync (y : SyncRegs) (hit : Option Bool) (len : Nat) (ok : Bool) : SyncRegs :=
  match y.stat with
  | .noPreamble =>
    match hit with
    | none => y
    | some _ => { y with preamble_index := y.sample_counter, stat := .possibleLock }
  | .possibleLock =>
    match hit with
    | none => y
    | some inv =>
      if len ≤ 600 then y
      else if (y.sample_counter - y.preamble_index).toNat = 600 then
        { y with polarity_lock := inv, preamble_index := y.sample_counter, stat := .locked, fail_count := 0 }
      else if 600 < (y.sample_counter - y.preamble_index).toNat then { y with stat := .noPreamble, tow_known := false }
      else y
  | .locked =>
    if y.sample_counter = y.preamble_index + 600 then
      if ok then lockedSuccess { y with preamble_index := y.sample_counter }
      else lockedFailure { y with preamble_index := y.sample_counter }
    else y

theorem attempt_eq (inv : Bool) (w : State) :
    attempt inv w =
      if w.hist.length < 600 then (none, w)
      else (some (cdec { w with symbuf := windowSymbols inv w.hist }).1,
        (cdec { w with symbuf := windowSymbols inv w.hist }).2) := by
  unfold attempt
  rfl

/-- A decode leaves the synchronizer as it is. -/
theorem cdec_sync (s : State) : (cdec s).2.sync = s.sync := by rw [(cdec_frame s).frame_eq]

/-- A decode does not depend on the synchronizer. -/
theorem cdec_setSync (s : State) (y : SyncRegs) :
    (cdec { s with sync := y }).1 = (cdec s).1 ∧ (cdec { s with sync := y }).2 = { (cdec s).2 with sync := y } := by
  have hs : { s with sync := y } = withRest s { s with sync := y } := rfl
  refine ⟨by rw [cdec_identifier, cdec_identifier], ?_⟩
  rw [hs, cdec_withRest, (cdec_frame s).frame_eq]
  simp only [withRest]

/-- Step 5 as a whole: at most one decode, of the window of the history, and the synchronizer's next registers. -/
theorem dispatchStat_eq (w : State) :
    dispatchStat w =
      match attemptNow w with
      | none => (none, { w with sync := nextSync w.sync (preambleHit w.hist) w.hist.length false })
      | some inv =>
        let c := cdec { w with symbuf := windowSymbols inv w.hist }
        (some c.1, { c.2 with sync := nextSync w.sync (preambleHit w.hist) w.hist.length (decide (c.1 ≠ 0)) }) := by
  unfold dispatchStat attemptNow nextSync
  cases hst : w.sync.stat with
  | noPreamble =>
    simp only [noPreambleArm]
    rw [preambleHit_eq]
    by_cases hit : 16 ≤ w.hist.length ∧ isHit w.hist = true
    · rw [if_pos hit]
      have hp : PREAMBLE_LEN ≤ w.hist.length ∧ isHit w.hist = true := hit
      rw [if_pos hp, attempt_eq]
      by_cases hl : w.hist.length < 600
      · simp [hl]
      · obtain ⟨h1, h2⟩ := cdec_setSync { w with symbuf := windowSymbols (decide (correlation w.hist < 0)) w.hist }
          { w.sync with preamble_index := w.sync.sample_counter }
        simp only [hl, if_false]
        rw [h1, h2]
    · have hp : ¬ (PREAMBLE_LEN ≤ w.hist.length ∧ isHit w.hist = true) := hit
      rw [if_neg hit, if_neg hp]
      simp only [ite_self]
  | possibleLock =>
    simp only [possibleLockArm]
    rw [preambleHit_eq]
    by_cases hit : 16 ≤ w.hist.length ∧ isHit w.hist = true
    · rw [if_pos hit]
      by_cases hl : 600 < w.hist.length
      · have hp : REQUIRED_SYMBOLS < w.hist.length ∧ isHit w.hist = true := ⟨hl, hit.2⟩
        have hlt : ¬ w.hist.length < 600 := by omega
        have hle : ¬ w.hist.length ≤ 600 := by omega
        rw [if_pos hp]
        have hd : (w.sync.sample_counter - w.sync.preamble_index).toNat = 600
            ↔ w.sync.sample_counter - w.sync.preamble_index = 600 := by
          rw [← BitVec.toNat_inj]; rfl
        by_cases h600 : (w.sync.sample_counter - w.sync.preamble_index).toNat = 600
        · have hs : (w.sync.sample_counter - w.sync.preamble_index).toNat = SUBFRAME_SYMBOLS := h600
          rw [if_pos hs, enterLocked, attempt_eq]
          have hc := cdec_sync { w with symbuf := windowSymbols (decide (correlation w.hist < 0)) w.hist }
          simp only [hlt, hle, if_false, if_true, hl, hd.1 h600, and_self]
          generalize cdec { w with symbuf := windowSymbols (decide (correlation w.hist < 0)) w.hist } = c at hc ⊢
          rw [hc]
          rfl
        · have hs : ¬ (w.sync.sample_counter - w.sync.preamble_index).toNat = SUBFRAME_SYMBOLS := h600
          have hn : ¬ (600 < w.hist.length ∧ w.sync.sample_counter - w.sync.preamble_index = 600) :=
            fun h => h600 (hd.2 h.2)
          rw [if_neg hs]
          simp only [hlt, hle, if_false, h600, hn]
          by_cases hgt : 600 < (w.sync.sample_counter - w.sync.preamble_index).toNat
          · have hg : SUBFRAME_SYMBOLS < (w.sync.sample_counter - w.sync.preamble_index).toNat := hgt
            rw [if_pos hg, if_pos hgt]
          · have hg : ¬ SUBFRAME_SYMBOLS < (w.sync.sample_counter - w.sync.preamble_index).toNat := hgt
            rw [if_neg hg, if_neg hgt]
      · have hp : ¬ (REQUIRED_SYMBOLS < w.hist.length ∧ isHit w.hist = true) := fun h => hl h.1
        have hn : ¬ (600 < w.hist.length ∧ w.sync.sample_counter - w.sync.preamble_index = 600) := fun h => hl h.1
        have hle : w.hist.length ≤ 600 := by omega
        rw [if_neg hp]
        simp only [hn, hle, if_false, if_true, ite_self]
    · rw [if_neg hit]
      have hp : ¬ (REQUIRED_SYMBOLS < w.hist.length ∧ isHit w.hist = true) := fun h => hit ⟨by
        have : 600 < w.hist.length := h.1
        omega, h.2⟩
      rw [if_neg hp]
      simp only [ite_self]
  | locked =>
    simp only [lockedArm]
    by_cases hn : w.sync.sample_counter = w.sync.preamble_index + 600
    · rw [attempt_eq]
      by_cases hl : w.hist.length < 600
      · simp only [if_pos hn, if_pos hl, hst]
        rfl
      · have hc := cdec_sync { w with symbuf := windowSymbols w.sync.polarity_lock w.hist }
        simp only [if_pos hn, if_neg hl]
        generalize cdec { w with symbuf := windowSymbols w.sync.polarity_lock w.hist } = c at hc ⊢
        rw [hc]
        simp only [hst]
        rfl
    · rw [if_neg hn]
      simp only [hn, if_false, ite_self]

/-! ## Steps 6 and 7 (R119 to R121) -/

/-- The synchronizer registers after step 6. -/
def towSync (period : BitVec 32) (towReport : BitVec 32) (y : SyncRegs) : SyncRegs :=
  if y.flag_preamble then
    if towReport ≠ 0 then
      { y with tow_current_ms := towMs towReport, tow_preamble_ms := towMs towReport, tow_known := true }
    else y
  else if y.tow_known then { y with tow_current_ms := y.tow_current_ms + period }
  else y

theorem towBookkeeping_eq (s : State) :
    towBookkeeping s = { s with sync := towSync s.params.SYMBOL_PERIOD_MS s.asm.tow_report s.sync } := by
  unfold towBookkeeping towSync
  split
  · split <;> rfl
  · split <;> rfl

theorem output_eq (r : Symbol) (s : State) :
    output r s =
      (s.sync.tow_known, { s with out := if s.sync.tow_known then s.out ++ [outputRecord s.sync r] else s.out }) := by
  unfold output
  cases s.sync.tow_known <;> rfl

/-- The state after step 5. -/
def afterStepFive (r : Symbol) (s : State) : State := (dispatchStat (atStepFive r s)).2

/-- A whole cycle: what steps 6 and 7 make of the state after step 5. -/
theorem symCycle_eq (r : Symbol) (s : State) :
    symCycle r s =
      let d := afterStepFive r s
      let y := towSync d.params.SYMBOL_PERIOD_MS d.asm.tow_report d.sync
      (⟨y.tow_known, alarms s, (dispatchStat (atStepFive r s)).1⟩,
       { d with sync := y, out := if y.tow_known then d.out ++ [outputRecord y r] else d.out }) := by
  unfold symCycle
  dsimp only
  rw [watchdog_fst, towBookkeeping_eq, output_eq]
  rfl

/-! ## What a cycle leaves -/

/-- Step 5 writes the synchronizer and what a decode writes. -/
theorem dispatchStat_frame (w : State) :
    (dispatchStat w).2 =
      { w with
          sync := (dispatchStat w).2.sync, symbuf := (dispatchStat w).2.symbuf, frame := (dispatchStat w).2.frame
          acc := (dispatchStat w).2.acc, asm := (dispatchStat w).2.asm, eph := (dispatchStat w).2.eph
          utc := (dispatchStat w).2.utc, iono := (dispatchStat w).2.iono, eop := (dispatchStat w).2.eop
          tlm := (dispatchStat w).2.tlm } := by
  rw [dispatchStat_eq]
  split
  · rfl
  · rename_i inv _
    have h := (cdec_frame { w with symbuf := windowSymbols inv w.hist }).frame_eq
    generalize cdec { w with symbuf := windowSymbols inv w.hist } = c at h ⊢
    dsimp only
    rw [h]

@[simp] theorem afterStepFive_hist (r : Symbol) (s : State) : (afterStepFive r s).hist = historyAfter s r := by
  rw [afterStepFive, dispatchStat_frame, atStepFive_eq]

@[simp] theorem afterStepFive_trk (r : Symbol) (s : State) :
    (afterStepFive r s).trk = if alarms s then s.trk ++ [s.params.ALARM_CODE] else s.trk := by
  rw [afterStepFive, dispatchStat_frame, atStepFive_eq]

@[simp] theorem afterStepFive_sat_prn (r : Symbol) (s : State) : (afterStepFive r s).sat_prn = s.sat_prn := by
  rw [afterStepFive, dispatchStat_frame, atStepFive_eq]

@[simp] theorem afterStepFive_derived (r : Symbol) (s : State) : (afterStepFive r s).derived = s.derived := by
  rw [afterStepFive, dispatchStat_frame, atStepFive_eq]

@[simp] theorem afterStepFive_params (r : Symbol) (s : State) : (afterStepFive r s).params = s.params := by
  rw [afterStepFive, dispatchStat_frame, atStepFive_eq]

@[simp] theorem afterStepFive_out (r : Symbol) (s : State) : (afterStepFive r s).out = s.out := by
  rw [afterStepFive, dispatchStat_frame, atStepFive_eq]

@[simp] theorem afterStepFive_portA (r : Symbol) (s : State) : (afterStepFive r s).portA = s.portA := by
  rw [afterStepFive, dispatchStat_frame, atStepFive_eq]

@[simp] theorem afterStepFive_portB (r : Symbol) (s : State) : (afterStepFive r s).portB = s.portB := by
  rw [afterStepFive, dispatchStat_frame, atStepFive_eq]

@[simp] theorem afterStepFive_respA (r : Symbol) (s : State) : (afterStepFive r s).respA = s.respA := by
  rw [afterStepFive, dispatchStat_frame, atStepFive_eq]

@[simp] theorem afterStepFive_respB (r : Symbol) (s : State) : (afterStepFive r s).respB = s.respB := by
  rw [afterStepFive, dispatchStat_frame, atStepFive_eq]

@[simp] theorem afterStepFive_active (r : Symbol) (s : State) : (afterStepFive r s).active = s.active := by
  rw [afterStepFive, dispatchStat_frame, atStepFive_eq]

@[simp] theorem afterStepFive_electionCount (r : Symbol) (s : State) :
    (afterStepFive r s).electionCount = s.electionCount := by
  rw [afterStepFive, dispatchStat_frame, atStepFive_eq]

/-- The identifier an attempt of this cycle returns is that of its window. -/
theorem cdec_window_identifier (r : Symbol) (s : State) (inv : Bool) :
    (cdec { atStepFive r s with symbuf := windowSymbols inv (atStepFive r s).hist }).1
      = windowIdentifier s inv (historyAfter s r) := by
  rw [cdec_identifier, atStepFive_eq]
  simp only [windowIdentifier]

/-- The synchronizer after step 5 (R113 to R118). -/
theorem afterStepFive_sync (r : Symbol) (s : State) :
    (afterStepFive r s).sync =
      nextSync (atStepFive r s).sync (preambleHit (historyAfter s r)) (historyAfter s r).length
        (match attemptOf s r with
          | none => false
          | some inv => decide (windowIdentifier s inv (historyAfter s r) ≠ 0)) := by
  have hh : (atStepFive r s).hist = historyAfter s r := by rw [atStepFive_eq]
  rw [afterStepFive, dispatchStat_eq, attemptOf_eq]
  cases h : attemptNow (atStepFive r s) with
  | none => simp only [hh]
  | some inv =>
    simp only [cdec_window_identifier]
    rw [hh]

/-- The identifier step 5 reports. -/
theorem dispatchStat_fst (r : Symbol) (s : State) :
    (dispatchStat (atStepFive r s)).1 = (attemptOf s r).map fun inv => windowIdentifier s inv (historyAfter s r) := by
  rw [dispatchStat_eq, attemptOf_eq]
  cases h : attemptNow (atStepFive r s) with
  | none => rfl
  | some inv => simp only [Option.map_some, cdec_window_identifier]

/-- A cycle without an attempt leaves everything a decode may write as it was. -/
theorem afterStepFive_untouched (r : Symbol) (s : State) (h : attemptOf s r = none) : decoderUntouched s (afterStepFive r s) := by
  rw [attemptOf_eq] at h
  rw [afterStepFive, dispatchStat_eq, h]
  dsimp only
  rw [atStepFive_eq]
  exact ⟨rfl, rfl, rfl, rfl, rfl, rfl, rfl, rfl, rfl⟩

/-- The attempt of a cycle leaves what `cdec` makes of the window in the state before the cycle. -/
theorem afterStepFive_ran (r : Symbol) (s : State) (inv : Bool) (h : attemptOf s r = some inv) :
    decoderRan s (afterStepFive r s) inv (historyAfter s r) := by
  rw [attemptOf_eq] at h
  rw [afterStepFive, dispatchStat_eq, h]
  have hw : { atStepFive r s with symbuf := windowSymbols inv (atStepFive r s).hist }
      = withRest { s with symbuf := windowSymbols inv (historyAfter s r) } (atStepFive r s) := by
    rw [atStepFive_eq]
    simp only [withRest]
  dsimp only
  rw [hw, cdec_withRest]
  exact ⟨rfl, rfl, rfl, rfl, rfl, rfl, rfl, rfl, rfl⟩

end Sys2Proof.Machine
end

