-- ==== Sys2Proof/Laws/Buffers.lean ====
section
/-! SUPPORT. The form of the three element spaces (10_state.md R34, R35, R36) and that every operation over them keeps it. -/

namespace Sys2Proof.Machine

theorem spacesWf_iff (s : State) :
    s.spacesWf = true ↔
      s.symbuf.length = 584 ∧ (∀ y ∈ s.symbuf, -127 ≤ y ∧ y ≤ 127) ∧ s.frame.length = 292 ∧ s.hist.length ≤ 601 := by
  simp only [State.spacesWf, Bool.and_eq_true, decide_eq_true_eq, List.all_eq_true, and_assoc]
  exact Iff.rfl

/-- The form depends on the three spaces only. -/
theorem spacesWf_congr {s t : State} (hy : t.symbuf = s.symbuf) (hf : t.frame = s.frame) (hh : t.hist = s.hist) :
    t.spacesWf = s.spacesWf := by simp only [State.spacesWf, hy, hf, hh]

theorem softOfOperand_range (b : BitVec 8) : -127 ≤ softOfOperand b ∧ softOfOperand b ≤ 127 := by
  have h1 := BitVec.le_toInt b
  have h2 := BitVec.toInt_lt (x := b)
  unfold softOfOperand
  split <;> simp at h1 h2 <;> omega

/-- A soft symbol read is in range, and 0 outside the buffer. -/
theorem symAt_range {buf : List Int} (h : ∀ y ∈ buf, -127 ≤ y ∧ y ≤ 127) (i : Nat) : -127 ≤ symAt buf i ∧ symAt buf i ≤ 127 := by
  rw [symAt, List.getD_eq_getElem?_getD]
  cases hx : buf[i]? with
  | none => simp
  | some x => exact h x (List.mem_of_getElem? hx)

theorem setSym_spacesWf (s : State) (i : Nat) (v : Int) (h : s.spacesWf = true) (hv : -127 ≤ v ∧ v ≤ 127) :
    (s.setSym i v).spacesWf = true := by
  rw [spacesWf_iff] at h ⊢
  refine ⟨by simpa using h.1, fun y hy => ?_, h.2.2.1, h.2.2.2⟩
  rcases List.mem_or_eq_of_mem_set hy with hm | rfl
  · exact h.2.1 y hm
  · exact hv

theorem setFrameBit_spacesWf (s : State) (p : Nat) (b : Bool) (h : s.spacesWf = true) : (s.setFrameBit p b).spacesWf = true := by
  rw [spacesWf_iff] at h ⊢
  exact ⟨h.1, h.2.1, by simpa using h.2.2.1, h.2.2.2⟩

theorem deinterleave_range {buf : List Int} (h : ∀ y ∈ buf, -127 ≤ y ∧ y ≤ 127) : ∀ y ∈ deinterleave buf, -127 ≤ y ∧ y ≤ 127 := by
  intro y hy
  rcases mem_deinterleave hy with hm | rfl
  · exact h y hm
  · omega

theorem correctPolarity_range {buf : List Int} (h : ∀ y ∈ buf, -127 ≤ y ∧ y ≤ 127) :
    ∀ y ∈ correctPolarity buf, -127 ≤ y ∧ y ≤ 127 := by
  intro y hy
  rcases mem_correctPolarity hy with hm | hm
  · exact h y hm
  · have := h _ hm; omega

theorem windowSymbols_range (inv : Bool) (h : List Sign) : ∀ y ∈ windowSymbols inv h, -127 ≤ y ∧ y ≤ 127 := by
  intro y hy
  rcases mem_windowSymbols hy with rfl | rfl <;> omega

theorem deint_spacesWf (s : State) (h : s.spacesWf = true) : State.spacesWf { s with symbuf := deinterleave s.symbuf } = true := by
  rw [spacesWf_iff] at h ⊢
  exact ⟨deinterleave_length _, deinterleave_range h.2.1, h.2.2⟩

theorem polcor_spacesWf (s : State) (h : s.spacesWf = true) :
    State.spacesWf { s with symbuf := correctPolarity s.symbuf } = true := by
  rw [spacesWf_iff] at h ⊢
  exact ⟨(correctPolarity_length _).trans h.1, correctPolarity_range h.2.1, h.2.2⟩

theorem vit_spacesWf (s : State) (h : s.spacesWf = true) : State.spacesWf { s with frame := viterbi s.symbuf } = true := by
  rw [spacesWf_iff] at h ⊢
  refine ⟨h.1, h.2.1, ?_, h.2.2.2⟩
  rw [viterbi_length, h.1]

/-- A decode of any buffer in range leaves the form, whatever stood in FRAME. -/
theorem cdec_spacesWf (s : State) (hy : ∀ y ∈ s.symbuf, -127 ≤ y ∧ y ≤ 127) (hh : s.hist.length ≤ 601) :
    (cdec s).2.spacesWf = true := by
  have hist : (cdec s).2.hist = s.hist := by rw [(cdec_frame s).frame_eq]
  rw [spacesWf_iff, cdec_symbuf, cdec_frameBits, hist]
  refine ⟨by simp, correctPolarity_range (deinterleave_range hy), by simp, hh⟩

theorem sfdec_spacesWf (s : State) (h : s.spacesWf = true) : (sfdec s).2.spacesWf = true := by
  rw [(sfdec_frame s).frame_eq]
  exact h

/-- A SYM cycle keeps the form. -/
theorem afterStepFive_spacesWf (r : Symbol) (s : State) (h : s.spacesWf = true) : (afterStepFive r s).spacesWf = true := by
  have hh : (historyAfter s r).length ≤ 601 := by rw [historyAfter_eq, pushHist_length]; omega
  cases ha : attemptOf s r with
  | none =>
    have hd := afterStepFive_untouched r s ha
    rw [spacesWf_iff] at h ⊢
    rw [hd.1, hd.2.1, afterStepFive_hist]
    exact ⟨h.1, h.2.1, h.2.2.1, hh⟩
  | some inv =>
    have hd := afterStepFive_ran r s inv ha
    unfold decoderRan at hd
    rw [spacesWf_iff] at h
    have hw : ∀ y ∈ ({ s with symbuf := windowSymbols inv (historyAfter s r) } : State).symbuf, -127 ≤ y ∧ y ≤ 127 := by
      dsimp only
      exact windowSymbols_range inv (historyAfter s r)
    have hc := cdec_spacesWf _ hw h.2.2.2
    rw [spacesWf_iff] at hc ⊢
    rw [hd.1, hd.2.1, afterStepFive_hist]
    exact ⟨hc.1, hc.2.1, hc.2.2.1, hh⟩

theorem symCycle_spacesWf (r : Symbol) (s : State) (h : s.spacesWf = true) : (symCycle r s).2.spacesWf = true := by
  have h' := afterStepFive_spacesWf r s h
  rw [symCycle_eq]
  exact (spacesWf_congr rfl rfl rfl).trans h'

end Sys2Proof.Machine
end

