-- ==== Sys2Proof/Laws/Decode.lean ====
section
/-! SUPPORT. Lemmas of the encoding: header fields, the opcode map in both directions, the operands of a payload, and what a
successful decoding says of its packet (30_encoding.md R71 to R76). -/

namespace Sys2Proof

open Sys2Proof.Machine

/-! ## Header fields (R71) -/

@[simp] theorem opcodeField_headerOf (c : BitVec 8) (a : BitVec 16) (b : BitVec 8) : opcodeField (headerOf c a b) = c := by
  simp only [opcodeField, headerOf]
  rw [extract_append_high _ _ _ _ (by omega), extract_append_high _ _ _ _ (by omega)]
  exact extract_full c

@[simp] theorem fieldA_headerOf (c : BitVec 8) (a : BitVec 16) (b : BitVec 8) : fieldA (headerOf c a b) = a := by
  simp only [fieldA, headerOf]
  rw [extract_append_high _ _ _ _ (by omega), extract_append_low _ _ _ _ (by omega)]
  exact extract_full a

@[simp] theorem fieldB_headerOf (c : BitVec 8) (a : BitVec 16) (b : BitVec 8) : fieldB (headerOf c a b) = b := by
  simp only [fieldB, headerOf]
  rw [extract_append_low _ _ _ _ (by omega)]
  exact extract_full b

/-- A value is its high field above its low field. -/
theorem append_extracts {n : Nat} (x : BitVec n) (m k : Nat) (h : k + m = n) :
    (x.extractLsb' m k ++ x.extractLsb' 0 m).cast h = x := by
  apply BitVec.eq_of_getLsbD_eq
  intro i hi
  simp only [BitVec.getLsbD_cast, BitVec.getLsbD_append, BitVec.getLsbD_extractLsb']
  split
  · rename_i hm
    simp only [hm, decide_true, Bool.true_and, Nat.zero_add]
  · simp only [show i - m < k by omega, decide_true, Bool.true_and]
    congr 1
    omega

/-- A header word is made of its three fields. -/
theorem headerOf_fields (h : Word) : headerOf (opcodeField h) (fieldA h) (fieldB h) = h := by
  apply BitVec.eq_of_getLsbD_eq
  intro i hi
  simp only [headerOf, opcodeField, fieldA, fieldB, BitVec.getLsbD_append, BitVec.getLsbD_extractLsb']
  split
  · rename_i h8
    simp [h8]
  · split
    · rename_i h16
      simp only [h16, decide_true, Bool.true_and]
      congr 1
      omega
    · simp only [show i - 8 - 16 < 8 by omega, decide_true, Bool.true_and]
      congr 1
      omega

/-! ## 64-bit operands (20_memory.md R55) -/

@[simp] theorem payload64_words64 (v : BitVec 64) (rest : List Word) : payload64 (words64 v ++ rest) 1 = v :=
  append_extracts v 32 32 rfl

@[simp] theorem words64_append (a b : Word) : words64 (a ++ b) = [a, b] := by
  simp only [words64]
  rw [extract_append_high _ _ _ _ (by omega), extract_append_low _ _ _ _ (by omega)]
  simp only [extract_full, Nat.sub_self]

@[simp] theorem words64_join (v : BitVec 64) : v.extractLsb' 32 32 ++ v.extractLsb' 0 32 = v := append_extracts v 32 32 rfl

/-! ## The opcode map (R75) -/

theorem Op.mem_all (o : Op) : o ∈ Op.all := by cases o <;> decide

@[simp] theorem Op.ofCode_code (o : Op) : Op.ofCode o.code = some o := by cases o <;> decide

theorem Op.code_of_ofCode {c : BitVec 8} {o : Op} (h : Op.ofCode c = some o) : o.code = c := by
  have := List.find?_some h
  simpa using this

/-! ## A command's own encoding -/

@[simp] theorem encode_op_length (i : Instr) : i.encPayload.length = i.op.format.payloadWords := by cases i <;> rfl

theorem encA_of_unused (i : Instr) (h : i.op.format.usesA = false) : i.encA = 0 := by cases i <;> first | rfl | cases h

theorem encB_of_unused (i : Instr) (h : i.op.format.usesB = false) : i.encB = 0 := by cases i <;> first | rfl | cases h

/-- A Symbol's eight words give the Symbol back (R74). -/
@[simp] theorem symbolOfPayload_words (r : Symbol) : symbolOfPayload r.words = r := by
  cases r
  simp [symbolOfPayload, Symbol.words, payload64, payloadWord, words64]

/-- The operands a command's packet carries are its own (R73, R74). -/
theorem instrOf_encoded (i : Instr) : instrOf i.op i.encA i.encB i.encPayload = i := by
  cases i <;> simp [instrOf, Instr.op, Instr.encA, Instr.encB, Instr.encPayload, payload64, payloadWord, words64]

/-- What a packet that decodes to a command is: its opcode is on the map, its length is the format's, its unused fields are zero,
and the command is made of its fields (R76). -/
theorem decode_ok {p : Packet} {i : Instr} (h : decode p = .ok i) :
    ∃ o, Op.ofCode (opcodeField p.header) = some o ∧ p.payload.length = o.format.payloadWords
      ∧ (o.format.usesA = false → fieldA p.header = 0) ∧ (o.format.usesB = false → fieldB p.header = 0)
      ∧ i = instrOf o (fieldA p.header) (fieldB p.header) p.payload := by
  unfold decode at h
  split at h
  · cases h
  · rename_i o ho
    split at h
    · cases h
    · split at h
      · cases h
      · split at h
        · cases h
        · rename_i hl ha hb
          exact ⟨o, ho, Decidable.of_not_not hl, fun hu => Decidable.byContradiction fun hne => ha ⟨hu, hne⟩,
            fun hu => Decidable.byContradiction fun hne => hb ⟨hu, hne⟩, by injection h with h; exact h.symm⟩

/-! ## A payload's words from its operands -/

theorem words64_payload64 {ws : List Word} (h : ws.length = 2) : words64 (payload64 ws 1) = ws := by
  match ws, h with
  | [a, b], _ => exact words64_append a b

theorem words_of_three {ws : List Word} (h : ws.length = 3) : words64 (payload64 ws 1) ++ [payloadWord ws 3] = ws := by
  match ws, h with
  | [a, b, c], _ =>
    show words64 (a ++ b) ++ [c] = [a, b, c]
    rw [words64_append]
    rfl

theorem symbol_words_of_eight {ws : List Word} (h : ws.length = 8) : (symbolOfPayload ws).words = ws := by
  rcases ws with _ | ⟨a, _ | ⟨b, _ | ⟨c, ws⟩⟩⟩
  · cases h
  · cases h
  · cases h
  · rcases ws with _ | ⟨d, _ | ⟨e, _ | ⟨f, _ | ⟨g, _ | ⟨i, _ | ⟨j, ws⟩⟩⟩⟩⟩⟩
    · cases h
    · cases h
    · cases h
    · cases h
    · cases h
    · show [a] ++ words64 (b ++ c) ++ words64 (d ++ e) ++ [f, g, i] = _
      rw [words64_append, words64_append]
      rfl
    · simp only [List.length_cons] at h; omega

/-- A packet that decodes to a command carries that command's payload words (R74). -/
theorem encPayload_instrOf (o : Op) (a : BitVec 16) (b : BitVec 8) (ws : List Word) (h : ws.length = o.format.payloadWords) :
    (instrOf o a b ws).encPayload = ws := by
  have nil : ∀ {l : List Word}, l.length = 0 → [] = l := fun h => (List.eq_nil_of_length_eq_zero h).symm
  cases o with
  | sym => exact symbol_words_of_eight h
  | chkt | clkrel | clkdrift | satpos | wrp => exact words64_payload64 h
  | utctime => exact words_of_three h
  | nop | reset | setsat | sbw | sbr | deint | polcor | vit | cdec | fbw | rdu | rds | rdc | rdb | sfdec | rdst => exact nil h

@[simp] theorem instrOf_op (o : Op) (a : BitVec 16) (b : BitVec 8) (ws : List Word) : (instrOf o a b ws).op = o := by
  cases o <;> rfl

end Sys2Proof
end

