-- ==== Sys2Proof/Laws/PerInstr.lean ====
section
/-! SUPPORT. Facts stated per instruction: `PacketShape` says that a command's encoding has the shape its format asks for, and that
its opcode byte selects it. -/

namespace Sys2Proof.Laws.PacketShape

/-- The encoding's payload has the length of the command's format, its opcode byte selects the command's row, and a header field the
format does not use is zero (30_encoding.md R71, R72, R75). -/
def Statement (i : Instr) : Prop :=
  (encode i).payload.length = i.op.format.payloadWords
  ∧ Op.ofCode (opcodeField (encode i).header) = some i.op
  ∧ (i.op.format.usesA = false → fieldA (encode i).header = 0)
  ∧ (i.op.format.usesB = false → fieldB (encode i).header = 0)

/-- The shape follows from the encoder's fields, command by command. -/
theorem of_fields (i : Instr) (hl : i.encPayload.length = i.op.format.payloadWords)
    (ha : i.op.format.usesA = false → i.encA = 0) (hb : i.op.format.usesB = false → i.encB = 0) : Statement i :=
  ⟨hl, by simp [encode], fun h => by simpa [encode] using ha h, fun h => by simpa [encode] using hb h⟩

theorem nop : Statement .nop := of_fields _ rfl (fun _ => rfl) (fun _ => rfl)
theorem reset : Statement .reset := of_fields _ rfl (fun _ => rfl) (fun _ => rfl)
theorem setsat (prn : BitVec 16) : Statement (.setsat prn) := of_fields _ rfl (fun h => nomatch h) (fun _ => rfl)
theorem sym (symbol : Symbol) : Statement (.sym symbol) := of_fields _ rfl (fun _ => rfl) (fun _ => rfl)
theorem sbw (index : BitVec 16) (value : BitVec 8) : Statement (.sbw index value) := of_fields _ rfl (fun h => nomatch h) (fun h => nomatch h)
theorem sbr (index : BitVec 16) : Statement (.sbr index) := of_fields _ rfl (fun h => nomatch h) (fun _ => rfl)
theorem deint : Statement .deint := of_fields _ rfl (fun _ => rfl) (fun _ => rfl)
theorem polcor : Statement .polcor := of_fields _ rfl (fun _ => rfl) (fun _ => rfl)
theorem vit : Statement .vit := of_fields _ rfl (fun _ => rfl) (fun _ => rfl)
theorem cdec : Statement .cdec := of_fields _ rfl (fun _ => rfl) (fun _ => rfl)
theorem fbw (position : BitVec 16) (bit : BitVec 8) : Statement (.fbw position bit) := of_fields _ rfl (fun h => nomatch h) (fun h => nomatch h)
theorem rdu (start : BitVec 16) (length : BitVec 8) : Statement (.rdu start length) := of_fields _ rfl (fun h => nomatch h) (fun h => nomatch h)
theorem rds (start : BitVec 16) (length : BitVec 8) : Statement (.rds start length) := of_fields _ rfl (fun h => nomatch h) (fun h => nomatch h)
theorem rdc (start : BitVec 16) (length : BitVec 8) : Statement (.rdc start length) := of_fields _ rfl (fun h => nomatch h) (fun h => nomatch h)
theorem rdb (start : BitVec 16) : Statement (.rdb start) := of_fields _ rfl (fun h => nomatch h) (fun _ => rfl)
theorem sfdec : Statement .sfdec := of_fields _ rfl (fun _ => rfl) (fun _ => rfl)
theorem chkt (t : F64) : Statement (.chkt t) := of_fields _ rfl (fun _ => rfl) (fun _ => rfl)
theorem clkrel (t : F64) : Statement (.clkrel t) := of_fields _ rfl (fun _ => rfl) (fun _ => rfl)
theorem clkdrift (t : F64) : Statement (.clkdrift t) := of_fields _ rfl (fun _ => rfl) (fun _ => rfl)
theorem satpos (t : F64) : Statement (.satpos t) := of_fields _ rfl (fun _ => rfl) (fun _ => rfl)
theorem utctime (t : F64) (week : BitVec 32) : Statement (.utctime t week) := of_fields _ rfl (fun _ => rfl) (fun _ => rfl)
theorem rdst (index : BitVec 16) : Statement (.rdst index) := of_fields _ rfl (fun h => nomatch h) (fun _ => rfl)
theorem wrp (index : BitVec 16) (value : BitVec 64) : Statement (.wrp index value) := of_fields _ rfl (fun h => nomatch h) (fun _ => rfl)

end Sys2Proof.Laws.PacketShape
end

