-- ==== Sys2Proof/Laws/Step.lean ====
section
/-! SUPPORT. What every command and every step does, said once: a command leaves a state with the queues, the other bookkeeping of the
streams and the parameters as they were, and delivers one response; a step takes one packet (20_memory.md R60, R61, R63;
30_encoding.md R78). -/

namespace Sys2Proof.Machine

/-- The fields no command writes beside its response: the queues, the responses so far, the active port, the arbiter's counter and
the parameters. -/
structure StreamsKept (s u : State) : Prop where
  portA  : u.portA = s.portA
  portB  : u.portB = s.portB
  respA  : u.respA = s.respA
  respB  : u.respB = s.respB
  active : u.active = s.active
  count  : u.electionCount = s.electionCount
  params : u.params = s.params

theorem StreamsKept.refl (s : State) : StreamsKept s s := ⟨rfl, rfl, rfl, rfl, rfl, rfl, rfl⟩

theorem sfdec_streams (s : State) : StreamsKept s (sfdec s).2 := by
  rw [(sfdec_frame s).frame_eq]; exact ⟨rfl, rfl, rfl, rfl, rfl, rfl, rfl⟩

theorem cdec_streams (s : State) : StreamsKept s (cdec s).2 := by
  rw [(cdec_frame s).frame_eq]; exact ⟨rfl, rfl, rfl, rfl, rfl, rfl, rfl⟩

theorem symCycle_streams (r : Symbol) (s : State) : StreamsKept s (symCycle r s).2 := by
  rw [symCycle_eq]
  exact ⟨by simp, by simp, by simp, by simp, by simp, by simp, by simp⟩

theorem writeParam_streams (s : State) (r : ParamReg) (v : BitVec 64) : StreamsKept s (writeParam s r v) := by
  rw [writeParam_frame]; exact ⟨rfl, rfl, rfl, rfl, rfl, rfl, rfl⟩

/-! ## The index map (10_state.md R44; 20_memory.md R54) -/

theorem lookup_isSome_of_ranges {α : Type} (l : List (Nat × α)) (i : Nat) :
    (l.lookup i).isSome = l.any (fun x => x.1 == i) := by
  induction l with
  | nil => rfl
  | cons x l ih =>
    rcases x with ⟨k, v⟩
    simp only [List.lookup_cons, List.any_cons]
    rw [show (k == i) = (i == k) from BEq.comm]
    cases i == k <;> simp [ih]

theorem ephIndexMap_any (i : Nat) : ephIndexMap.any (fun x => x.1 == i) = decide (0x0200 ≤ i ∧ i ≤ 0x0219) := by
  rw [Bool.eq_iff_iff]
  simp only [ephIndexMap, List.any_cons, List.any_nil, Bool.or_eq_true, beq_iff_eq, decide_eq_true_eq, Bool.or_false]
  omega

theorem utcIndexMap_any (i : Nat) : utcIndexMap.any (fun x => x.1 == i) = decide (0x0400 ≤ i ∧ i ≤ 0x0407) := by
  rw [Bool.eq_iff_iff]
  simp only [utcIndexMap, List.any_cons, List.any_nil, Bool.or_eq_true, beq_iff_eq, decide_eq_true_eq, Bool.or_false]
  omega

theorem ionoIndexMap_any (i : Nat) : ionoIndexMap.any (fun x => x.1 == i) = decide (0x0500 ≤ i ∧ i ≤ 0x0507) := by
  rw [Bool.eq_iff_iff]
  simp only [ionoIndexMap, List.any_cons, List.any_nil, Bool.or_eq_true, beq_iff_eq, decide_eq_true_eq, Bool.or_false]
  omega

theorem eopIndexMap_any (i : Nat) : eopIndexMap.any (fun x => x.1 == i) = decide (0x0600 ≤ i ∧ i ≤ 0x0606) := by
  rw [Bool.eq_iff_iff]
  simp only [eopIndexMap, List.any_cons, List.any_nil, Bool.or_eq_true, beq_iff_eq, decide_eq_true_eq, Bool.or_false]
  omega

/-- The parameter registers' indices are the writable ranges. -/
theorem paramOfIndex_isSome (index : BitVec 16) : (paramOfIndex index).isSome = regIndexWritable index.toNat := by
  unfold paramOfIndex
  rw [lookup_isSome_of_ranges, Bool.eq_iff_iff]
  simp only [paramIndexMap, List.any_append, ephIndexMap_any, utcIndexMap_any, ionoIndexMap_any, eopIndexMap_any, regIndexWritable,
    Bool.or_eq_true, Bool.and_eq_true, decide_eq_true_eq]

/-- The indices of the map are the defined ranges. -/
theorem regOfIndex_isSome (index : BitVec 16) : (regOfIndex index).isSome = regIndexDefined index.toNat := by
  have hc : (coreIndexMap.lookup index.toNat).isSome = decide (index.toNat ≤ 0x000E) := by
    rw [lookup_isSome_of_ranges, Bool.eq_iff_iff]
    simp only [coreIndexMap, List.any_cons, List.any_nil, Bool.or_eq_true, beq_iff_eq, decide_eq_true_eq, Bool.or_false]
    omega
  have ha : (asmIndexMap.lookup index.toNat).isSome = decide (0x0100 ≤ index.toNat ∧ index.toNat ≤ 0x0106) := by
    rw [lookup_isSome_of_ranges, Bool.eq_iff_iff]
    simp only [asmIndexMap, List.any_cons, List.any_nil, Bool.or_eq_true, beq_iff_eq, decide_eq_true_eq, Bool.or_false]
    omega
  have hd : (derivedIndexMap.lookup index.toNat).isSome = decide (0x0300 ≤ index.toNat ∧ index.toNat ≤ 0x0307) := by
    rw [lookup_isSome_of_ranges, Bool.eq_iff_iff]
    simp only [derivedIndexMap, List.any_cons, List.any_nil, Bool.or_eq_true, beq_iff_eq, decide_eq_true_eq, Bool.or_false]
    omega
  have hp := paramOfIndex_isSome index
  unfold paramOfIndex at hp
  have hor : (regOfIndex index).isSome = ((coreIndexMap.lookup index.toNat).isSome || (asmIndexMap.lookup index.toNat).isSome
      || (derivedIndexMap.lookup index.toNat).isSome || (paramIndexMap.lookup index.toNat).isSome) := by
    unfold regOfIndex
    cases coreIndexMap.lookup index.toNat <;> cases asmIndexMap.lookup index.toNat <;>
      cases derivedIndexMap.lookup index.toNat <;> cases paramIndexMap.lookup index.toNat <;> rfl
  rw [hor, hc, ha, hd, hp, Bool.eq_iff_iff]
  simp only [regIndexDefined, regIndexWritable, Bool.or_eq_true, Bool.and_eq_true, decide_eq_true_eq]
  omega

/-! ## Every command (30_encoding.md R78; 60_exceptions.md R311, R313) -/

/-- A command whose operands are in range completes: a state with the streams kept, and one OK response of the length R80 gives. -/
theorem exec_ok (i : Instr) (s : State) (h : i.wf = true) :
    ∃ u w, exec i s = .next (State.respond u i.op.code w) ∧ StreamsKept s u ∧ w.length = okPayloadWords i := by
  cases i with
  | nop => exact ⟨s, [], rfl, .refl s, rfl⟩
  | reset => exact ⟨_, [], rfl, ⟨rfl, rfl, rfl, rfl, rfl, rfl, rfl⟩, rfl⟩
  | setsat prn => exact ⟨_, [], rfl, ⟨rfl, rfl, rfl, rfl, rfl, rfl, rfl⟩, rfl⟩
  | sym r => exact ⟨_, _, rfl, symCycle_streams r s, rfl⟩
  | sbw index value =>
    have hi : ¬ 583 < index.toNat := Nat.not_lt.2 (of_decide_eq_true h)
    exact ⟨s.setSym index.toNat (softOfOperand value), [], if_neg hi, ⟨rfl, rfl, rfl, rfl, rfl, rfl, rfl⟩, rfl⟩
  | sbr index =>
    have hi : ¬ 583 < index.toNat := Nat.not_lt.2 (of_decide_eq_true h)
    exact ⟨s, _, if_neg hi, .refl s, rfl⟩
  | deint => exact ⟨_, [], rfl, ⟨rfl, rfl, rfl, rfl, rfl, rfl, rfl⟩, rfl⟩
  | polcor => exact ⟨_, [], rfl, ⟨rfl, rfl, rfl, rfl, rfl, rfl, rfl⟩, rfl⟩
  | vit => exact ⟨_, [], rfl, ⟨rfl, rfl, rfl, rfl, rfl, rfl, rfl⟩, rfl⟩
  | cdec => exact ⟨_, _, rfl, cdec_streams s, rfl⟩
  | fbw position bit =>
    simp only [Instr.wf, Bool.and_eq_true, decide_eq_true_eq] at h
    exact ⟨s.setFrameBit position.toNat (decide (bit.toNat = 1)), [], if_neg (by omega), ⟨rfl, rfl, rfl, rfl, rfl, rfl, rfl⟩, rfl⟩
  | rdu start length => exact ⟨_, _, if_pos h, ⟨rfl, rfl, rfl, rfl, rfl, rfl, rfl⟩, rfl⟩
  | rds start length => exact ⟨_, _, if_pos h, ⟨rfl, rfl, rfl, rfl, rfl, rfl, rfl⟩, rfl⟩
  | rdc start length => exact ⟨_, _, if_pos h, ⟨rfl, rfl, rfl, rfl, rfl, rfl, rfl⟩, rfl⟩
  | rdb start =>
    simp only [Instr.wf, Bool.and_eq_true, decide_eq_true_eq] at h
    exact ⟨{ s with acc := flagView (frameBit s.frame start.toNat) }, _, if_neg (by omega), ⟨rfl, rfl, rfl, rfl, rfl, rfl, rfl⟩, rfl⟩
  | sfdec => exact ⟨_, _, rfl, sfdec_streams s, rfl⟩
  | chkt t => exact ⟨s, _, rfl, .refl s, rfl⟩
  | clkrel t => exact ⟨s, _, rfl, .refl s, rfl⟩
  | clkdrift t => exact ⟨_, _, rfl, ⟨rfl, rfl, rfl, rfl, rfl, rfl, rfl⟩, rfl⟩
  | satpos t => exact ⟨_, _, rfl, ⟨rfl, rfl, rfl, rfl, rfl, rfl, rfl⟩, rfl⟩
  | utctime t week => exact ⟨s, _, rfl, .refl s, rfl⟩
  | rdst index =>
    have hs := regOfIndex_isSome index
    have h' : regIndexDefined index.toNat = true := h
    rw [h'] at hs
    obtain ⟨r, hr⟩ := Option.isSome_iff_exists.1 hs
    exact ⟨s, words64 (view64 s r), by simp only [exec, execRdst, hr]; rfl, .refl s, rfl⟩
  | wrp index value =>
    have hs := paramOfIndex_isSome index
    have h' : regIndexWritable index.toNat = true := h
    rw [h'] at hs
    obtain ⟨r, hr⟩ := Option.isSome_iff_exists.1 hs
    exact ⟨writeParam s r value, [], by simp only [exec, execWrp, hr]; rfl, writeParam_streams s r value, rfl⟩

/-- A command with an operand outside its range raises BAD_OPERAND and nothing else happens (60_exceptions.md R311, R313). -/
theorem exec_badOperand (i : Instr) (s : State) (h : i.wf = false) : exec i s = .next (s.raise i.op.code .badOperand) := by
  cases i with
  | nop | reset | setsat _ | sym _ | deint | polcor | vit | cdec | sfdec | chkt _ | clkrel _ | clkdrift _ | satpos _ | utctime _ _ =>
    cases h
  | sbw index value => exact if_pos (Nat.lt_of_not_le (of_decide_eq_false h))
  | sbr index => exact if_pos (Nat.lt_of_not_le (of_decide_eq_false h))
  | fbw position bit =>
    simp only [Instr.wf, Bool.and_eq_false_iff, decide_eq_false_iff_not] at h
    exact if_pos (by omega)
  | rdu start length | rds start length | rdc start length =>
    have h' : (Slice.mk start.toNat length.toNat).valid = false := h
    exact if_neg (by simp [h'])
  | rdb start =>
    simp only [Instr.wf, Bool.and_eq_false_iff, decide_eq_false_iff_not] at h
    exact if_pos (by omega)
  | rdst index =>
    have hs := regOfIndex_isSome index
    have h' : regIndexDefined index.toNat = false := h
    rw [h', Option.isSome_eq_false_iff, Option.isNone_iff_eq_none] at hs
    simp only [exec, execRdst, hs]; rfl
  | wrp index value =>
    have hs := paramOfIndex_isSome index
    have h' : regIndexWritable index.toNat = false := h
    rw [h', Option.isSome_eq_false_iff, Option.isNone_iff_eq_none] at hs
    simp only [exec, execWrp, hs]; rfl

/-- Every command delivers one response and keeps the streams: the two cases in one. -/
theorem exec_delivers (i : Instr) (s : State) :
    ∃ u st w, exec i s = .next (State.deliver u (responsePacket i.op.code st w)) ∧ StreamsKept s u
      ∧ (i.wf = true → st = .ok ∧ w.length = okPayloadWords i) ∧ (i.wf = false → st = .error .badOperand ∧ w = [] ∧ u = s) := by
  cases h : i.wf with
  | true =>
    obtain ⟨u, w, he, hk, hl⟩ := exec_ok i s h
    exact ⟨u, .ok, w, he, hk, fun _ => ⟨rfl, hl⟩, fun h => nomatch h⟩
  | false => exact ⟨s, _, [], exec_badOperand i s h, .refl s, (fun h => nomatch h), fun _ => ⟨rfl, rfl, rfl⟩⟩

/-! ## Fetch and step -/

/-- What the fetch does: nothing pending, or the oldest packet of one port taken and that port active (20_memory.md R61). -/
theorem fetch_cases (s : State) :
    (s.portA = [] ∧ s.portB = [] ∧ fetch s = none)
    ∨ (∃ p rest n, s.portA = p :: rest ∧ fetch s = some (p, { s with portA := rest, active := .A, electionCount := n }))
    ∨ (∃ p rest n, s.portB = p :: rest ∧ fetch s = some (p, { s with portB := rest, active := .B, electionCount := n })) := by
  cases ha : s.portA with
  | nil =>
    cases hb : s.portB with
    | nil => exact .inl ⟨rfl, rfl, by simp [fetch, ha, hb]⟩
    | cons p rest => exact .inr (.inr ⟨p, rest, s.electionCount, rfl, by simp [fetch, ha, hb]⟩)
  | cons p rest =>
    cases hb : s.portB with
    | nil => exact .inr (.inl ⟨p, rest, s.electionCount, rfl, by simp [fetch, ha, hb]⟩)
    | cons q restB =>
      cases he : Config.electsB s.electionCount with
      | true => exact .inr (.inr ⟨q, restB, s.electionCount + 1, rfl, by simp [fetch, ha, hb, he]⟩)
      | false => exact .inr (.inl ⟨p, rest, s.electionCount + 1, rfl, by simp [fetch, ha, hb, he]⟩)

/-- What a step does: nothing, an error raised, or the decoded command executed. -/
theorem step_cases {s t : State} (h : step s = .next t) :
    (fetch s = none ∧ t = s)
    ∨ (∃ p s' e, fetch s = some (p, s') ∧ decode p = .error e ∧ t = s'.raise (opcodeField p.header) e)
    ∨ (∃ p s' i, fetch s = some (p, s') ∧ decode p = .ok i ∧ exec i s' = .next t) := by
  unfold step at h
  cases hf : fetch s with
  | none => rw [hf] at h; injection h with h; exact .inl ⟨rfl, h.symm⟩
  | some x =>
    obtain ⟨p, s'⟩ := x
    rw [hf] at h
    dsimp only at h
    cases hd : decode p with
    | error e => rw [hd] at h; injection h with h; exact .inr (.inl ⟨p, s', e, rfl, hd, h.symm⟩)
    | ok i => rw [hd] at h; exact .inr (.inr ⟨p, s', i, rfl, hd, h⟩)

end Sys2Proof.Machine
end

