-- ==== Sys2Proof/Laws/SymCycle.lean ====
section
/-! SUPPORT. The state SYM leaves, field by field, in terms of `afterStepFive`, `nextSync` and `towSync` of Laws/FrameSync.lean:
what the statements about one Symbol cite (40_frame_sync.md R102 to R122). -/

namespace Sys2Proof.Machine

/-- The state SYM leaves. -/
def symNext (r : Symbol) (s : State) : State :=
  (symCycle r s).2.respond 0x03
    [symStatusWord (symCycle r s).1 (symCycle r s).2.sync.stat (symCycle r s).2.sync.flag_preamble]

theorem exec_sym (r : Symbol) (s : State) : exec (.sym r) s = .next (symNext r s) := rfl

theorem symNext_sync (r : Symbol) (s : State) :
    (symNext r s).sync = towSync s.params.SYMBOL_PERIOD_MS (afterStepFive r s).asm.tow_report (afterStepFive r s).sync := by
  rw [symNext, State.respond_sync, symCycle_eq]; simp

theorem symNext_out (r : Symbol) (s : State) :
    (symNext r s).out =
      if (symNext r s).sync.tow_known then s.out ++ [outputRecord (symNext r s).sync r] else s.out := by
  rw [symNext_sync, symNext, State.respond_out, symCycle_eq]; simp

theorem symNext_asm (r : Symbol) (s : State) : (symNext r s).asm = (afterStepFive r s).asm := by
  rw [symNext, State.respond_asm, symCycle_eq]

theorem symNext_trk (r : Symbol) (s : State) :
    (symNext r s).trk = if alarms s then s.trk ++ [s.params.ALARM_CODE] else s.trk := by
  rw [symNext, State.respond_trk, symCycle_eq]; simp

theorem symNext_hist (r : Symbol) (s : State) : (symNext r s).hist = historyAfter s r := by
  rw [symNext, State.respond_hist, symCycle_eq]; simp

theorem symNext_sat_prn (r : Symbol) (s : State) : (symNext r s).sat_prn = s.sat_prn := by
  rw [symNext, State.respond_sat_prn, symCycle_eq]; simp

theorem symNext_derived (r : Symbol) (s : State) : (symNext r s).derived = s.derived := by
  rw [symNext, State.respond_derived, symCycle_eq]; simp

theorem symNext_params (r : Symbol) (s : State) : (symNext r s).params = s.params := by
  rw [symNext, State.respond_params, symCycle_eq]; simp

/-- Steps 6 and 7 and the response leave what a decode may write. -/
theorem symNext_decoder (r : Symbol) (s : State) : decoderUntouched (afterStepFive r s) (symNext r s) := by
  rw [symNext, symCycle_eq]; exact ⟨rfl, rfl, rfl, rfl, rfl, rfl, rfl, rfl, rfl⟩

theorem decoderUntouched.trans {s t u : State} (h : decoderUntouched s t) (k : decoderUntouched t u) : decoderUntouched s u := by
  obtain ⟨h1, h2, h3, h4, h5, h6, h7, h8, h9⟩ := h
  obtain ⟨k1, k2, k3, k4, k5, k6, k7, k8, k9⟩ := k
  exact ⟨k1.trans h1, k2.trans h2, k3.trans h3, k4.trans h4, k5.trans h5, k6.trans h6, k7.trans h7, k8.trans h8, k9.trans h9⟩

/-- A cycle without an attempt leaves what a decode may write. -/
theorem symNext_untouched (r : Symbol) (s : State) (h : attemptOf s r = none) : decoderUntouched s (symNext r s) :=
  (afterStepFive_untouched r s h).trans (symNext_decoder r s)

/-- A cycle with an attempt leaves what the decode of its window makes. -/
theorem symNext_ran (r : Symbol) (s : State) (inv : Bool) (h : attemptOf s r = some inv) :
    decoderRan s (symNext r s) inv (historyAfter s r) :=
  (afterStepFive_ran r s inv h).trans (symNext_decoder r s)

/-! ## What step 6 leaves of the synchronizer -/

theorem towSync_stat (p w : BitVec 32) (y : SyncRegs) : (towSync p w y).stat = y.stat := by
  unfold towSync; split <;> split <;> rfl

theorem towSync_sample_counter (p w : BitVec 32) (y : SyncRegs) : (towSync p w y).sample_counter = y.sample_counter := by
  unfold towSync; split <;> split <;> rfl

theorem towSync_last_valid_preamble (p w : BitVec 32) (y : SyncRegs) :
    (towSync p w y).last_valid_preamble = y.last_valid_preamble := by
  unfold towSync; split <;> split <;> rfl

theorem towSync_preamble_index (p w : BitVec 32) (y : SyncRegs) : (towSync p w y).preamble_index = y.preamble_index := by
  unfold towSync; split <;> split <;> rfl

theorem towSync_fail_count (p w : BitVec 32) (y : SyncRegs) : (towSync p w y).fail_count = y.fail_count := by
  unfold towSync; split <;> split <;> rfl

theorem towSync_polarity_lock (p w : BitVec 32) (y : SyncRegs) : (towSync p w y).polarity_lock = y.polarity_lock := by
  unfold towSync; split <;> split <;> rfl

theorem towSync_alarm_sent (p w : BitVec 32) (y : SyncRegs) : (towSync p w y).alarm_sent = y.alarm_sent := by
  unfold towSync; split <;> split <;> rfl

theorem towSync_frame_sync (p w : BitVec 32) (y : SyncRegs) : (towSync p w y).frame_sync = y.frame_sync := by
  unfold towSync; split <;> split <;> rfl

theorem towSync_flag_preamble (p w : BitVec 32) (y : SyncRegs) : (towSync p w y).flag_preamble = y.flag_preamble := by
  unfold towSync; split <;> split <;> rfl

/-- Without a valid preamble step 6 does not change whether the time of week is known. -/
theorem towSync_tow_known (p w : BitVec 32) (y : SyncRegs) (h : y.flag_preamble = false) :
    (towSync p w y).tow_known = y.tow_known := by
  unfold towSync
  rw [if_neg (by simp [h])]
  split <;> rfl

/-! ## What step 5 leaves of the synchronizer -/

theorem nextSync_counter (y : SyncRegs) (hit : Option Bool) (len : Nat) (ok : Bool) :
    (nextSync y hit len ok).sample_counter = y.sample_counter ∧ (nextSync y hit len ok).alarm_sent = y.alarm_sent := by
  unfold nextSync
  split
  · split <;> exact ⟨rfl, rfl⟩
  · split
    · exact ⟨rfl, rfl⟩
    · split
      · exact ⟨rfl, rfl⟩
      · split
        · exact ⟨rfl, rfl⟩
        · split <;> exact ⟨rfl, rfl⟩
  · split
    · split
      · exact ⟨rfl, rfl⟩
      · unfold lockedFailure; dsimp only; split <;> exact ⟨rfl, rfl⟩
    · exact ⟨rfl, rfl⟩

/-- Step 5 in NO_PREAMBLE (R113). -/
theorem nextSync_noPreamble {y : SyncRegs} (h : y.stat = .noPreamble) (hit : Option Bool) (len : Nat) (ok : Bool) :
    nextSync y hit len ok =
      match hit with
      | none => y
      | some _ => { y with preamble_index := y.sample_counter, stat := .possibleLock } := by
  cases y; cases h; rfl

/-- Step 5 in POSSIBLE_LOCK (R114 to R116). -/
theorem nextSync_possibleLock {y : SyncRegs} (h : y.stat = .possibleLock) (hit : Option Bool) (len : Nat) (ok : Bool) :
    nextSync y hit len ok =
      match hit with
      | none => y
      | some inv =>
        if len ≤ 600 then y
        else if (y.sample_counter - y.preamble_index).toNat = 600 then
          { y with polarity_lock := inv, preamble_index := y.sample_counter, stat := .locked, fail_count := 0 }
        else if 600 < (y.sample_counter - y.preamble_index).toNat then { y with stat := .noPreamble, tow_known := false }
        else y := by
  cases y; cases h; rfl

/-- Step 5 in LOCKED (R117, R118). -/
theorem nextSync_locked {y : SyncRegs} (h : y.stat = .locked) (hit : Option Bool) (len : Nat) (ok : Bool) :
    nextSync y hit len ok =
      if y.sample_counter = y.preamble_index + 600 then
        if ok then lockedSuccess { y with preamble_index := y.sample_counter }
        else lockedFailure { y with preamble_index := y.sample_counter }
      else y := by
  cases y; cases h; rfl

end Sys2Proof.Machine
end

