-- ==== Sys2Proof/Tests/Slice0.lean ====
section
/-! SUPPORT. Tests: the well-formedness smoke, words written out from the spec's encodings, at most two small steps for each command
(expected values from 95_test_vectors.md, cited as V<n>, P<n>, T<n>), and for each statement with hypotheses a witness that meets
them. -/

namespace Sys2Proof.Tests

open Sys2Proof Sys2Proof.Machine

/-! ## Helpers -/

/-- The next state of an outcome. -/
def nextOf : Host.Outcome State Fault Refusal → Option State
  | .next t => some t
  | .fault _ => none
  | .refused _ => none

/-- The state with one packet pending on port A. -/
def send (s : State) (header : Word) (payload : List Word) : State := { s with portA := [⟨header, payload⟩] }

/-- The words of the last response port A got when a packet is stepped. -/
def reply (s : State) (header : Word) (payload : List Word) : Option (List Word) :=
  (nextOf (step (send s header payload))).bind fun t => t.respA.getLast?.map fun r => r.header :: r.payload

/-- A view of the state after a packet. -/
def afterPacket {α : Type} (s : State) (header : Word) (payload : List Word) (view : State → α) : Option α :=
  (nextOf (step (send s header payload))).map view

/-- The digits of a hexadecimal number of `n` digits. -/
def hexDigits : Nat → Nat → List Nat
  | 0, _ => []
  | n + 1, x => hexDigits n (x / 16) ++ [x % 16]

/-- A frame from its 73 hexadecimal digits (95_test_vectors.md part 0). -/
def frameOf (x : Nat) : List Bool :=
  (hexDigits 73 x).flatMap fun d => [d.testBit 3, d.testBit 2, d.testBit 1, d.testBit 0]

/-- The power-on state with a frame in FRAME. -/
def withFrame (x : Nat) : State := { State.reset with frame := frameOf x }

/-- The frames F1 to F7 of 95_test_vectors.md, 4.1. -/
def F1 : Nat := 0x8B003200CDFFFFFDFFFE0140FA3F4003E84D0028000FFFC000000100C9FE73FFF00000000
def F2 : Nat := 0x8B003309000000000FA0147AE14B2BA000020000000000000003FFFFF2000000000000000
def F3 : Nat := 0x8B003291AFFFF00080120002334CD31300000000000000000000000000000000000000000
def F4 : Nat := 0x8B003398B000AFFFFF8001000017FFE800000000000E01FC07FC07FC0BF80000000000000
def F5 : Nat := 0x8B00341000000000000000000000000000000000000000000000000000000000000000000
def F7 : Nat := 0x8B00341800000000000000000000000000000000000000000000000000000000000000000

/-- The SFID_MAP of V14: raw 3 to 0, raw 0..2 to raw + 1. -/
def mapV14 : SfidMap := ⟨[(0, 1), (1, 2), (2, 3), (3, 0)], 0⟩

def paramsV14 : Params := { defaultParams with SFID_MAP := mapV14 }

/-! ## Well-formedness smoke: an ill-formed term for each check (60_exceptions.md R313, V5) -/

theorem test_wf_sbw : Instr.wf (.sbw 583 0) = true ∧ Instr.wf (.sbw 584 0) = false := by decide
theorem test_wf_sbr : Instr.wf (.sbr 583) = true ∧ Instr.wf (.sbr 584) = false := by decide
theorem test_wf_fbw :
    Instr.wf (.fbw 1 0) = true ∧ Instr.wf (.fbw 292 1) = true
    ∧ Instr.wf (.fbw 0 1) = false ∧ Instr.wf (.fbw 293 0) = false ∧ Instr.wf (.fbw 5 2) = false := by decide
theorem test_wf_slices :
    Instr.wf (.rdu 229 64) = true ∧ Instr.wf (.rdu 230 64) = false ∧ Instr.wf (.rdu 10 0) = false ∧ Instr.wf (.rdu 10 65) = false
    ∧ Instr.wf (.rds 0 1) = false ∧ Instr.wf (.rds 292 2) = false ∧ Instr.wf (.rdc 293 1) = false ∧ Instr.wf (.rdc 1 0) = false := by
  decide
theorem test_wf_rdb : Instr.wf (.rdb 1) = true ∧ Instr.wf (.rdb 0) = false ∧ Instr.wf (.rdb 293) = false := by decide
theorem test_wf_rdst :
    Instr.wf (.rdst 0x000E) = true ∧ Instr.wf (.rdst 0x000F) = false ∧ Instr.wf (.rdst 0x0010) = false
    ∧ Instr.wf (.rdst 0x0107) = false ∧ Instr.wf (.rdst 0x021A) = false ∧ Instr.wf (.rdst 0x0308) = false
    ∧ Instr.wf (.rdst 0x0408) = false ∧ Instr.wf (.rdst 0x0508) = false ∧ Instr.wf (.rdst 0x0607) = false := by decide
theorem test_wf_wrp :
    Instr.wf (.wrp 0x0219 0) = true ∧ Instr.wf (.wrp 0x0000 0) = false ∧ Instr.wf (.wrp 0x0100 0) = false
    ∧ Instr.wf (.wrp 0x0300 0) = false ∧ Instr.wf (.wrp 0x0607 0) = false := by decide

/-- An empty slice list, a slice of length 0, one past the frame, more than 64 bits in all (43_msg_assembler.md R200). -/
theorem test_wf_fields :
    fieldValid [⟨28, 2⟩] = true ∧ fieldValid [] = false ∧ fieldValid [⟨28, 0⟩] = false ∧ fieldValid [⟨0, 2⟩] = false
    ∧ fieldValid [⟨292, 2⟩] = false ∧ fieldValid [⟨1, 64⟩, ⟨70, 1⟩] = false := by decide

/-- A register twice in a group, a register of another group, a required register missing (43_msg_assembler.md R200, R211). -/
theorem test_wf_groups :
    groupValid ParamReg.isEphGroup requiredSF2 defaultSF2 = true
    ∧ groupValid ParamReg.isEphGroup requiredSF2 (row (.eph .M_0) 31 32 true fone :: defaultSF2) = false
    ∧ groupValid ParamReg.isEphGroup requiredSF2 (row (.utc .A0) 31 32 true fone :: defaultSF2) = false
    ∧ groupValid ParamReg.isEphGroup requiredSF2 (defaultSF2.drop 1) = false := by decide

theorem test_wf_params :
    defaultParams.wf = true
    ∧ Params.wf { defaultParams with FIELD_TABLE := { defaultFieldTable with towc := [] } } = false
    ∧ Params.wf { defaultParams with FIELD_TABLE := { defaultFieldTable with sfid := [] } } = false
    ∧ Params.wf { defaultParams with FIELD_TABLE := { defaultFieldTable with msgid := [] } } = false
    ∧ Params.wf { defaultParams with FIELD_TABLE := { defaultFieldTable with SF1 := [] } } = false
    ∧ Params.wf { defaultParams with FIELD_TABLE := { defaultFieldTable with MT_UTC := [] } } = false
    ∧ Params.wf { defaultParams with FIELD_TABLE := { defaultFieldTable with MT_EOP_IONO := [] } } = false := by decide

/-! ## Words written out from the spec's encodings (30_encoding.md R71 to R75) decode to the commands they stand for -/

/-- V1, V4, V7, V9: NOP, RESET, SETSAT 65535, SYM -1000, 1215, 0.25, 3. -/
theorem test_decode_frame_sync :
    decode ⟨0x00000000, []⟩ = .ok .nop ∧ decode ⟨0x01000000, []⟩ = .ok .reset ∧ decode ⟨0x02FFFF00, []⟩ = .ok (.setsat 65535)
    ∧ decode ⟨0x03000000, [0xFFFFFC18, 0, 0x000004BF, 0x3FD00000, 0, 3, 0, 0]⟩
        = .ok (.sym ⟨0xFFFFFC18, 1215, 0x3FD0000000000000, 3, 0, 0⟩) := by decide

/-- V20, V25, V26, P2: the Convolutional Decoder's words. -/
theorem test_decode_conv_decoder :
    decode ⟨0x10000080, []⟩ = .ok (.sbw 0 0x80) ∧ decode ⟨0x1002477F, []⟩ = .ok (.sbw 583 127)
    ∧ decode ⟨0x11024700, []⟩ = .ok (.sbr 583) ∧ decode ⟨0x12000000, []⟩ = .ok .deint ∧ decode ⟨0x13000000, []⟩ = .ok .polcor
    ∧ decode ⟨0x14000000, []⟩ = .ok .vit ∧ decode ⟨0x15000000, []⟩ = .ok .cdec := by decide

/-- V30, V32, V34, P1: the Bit-Field Codec's words, and SFDEC. -/
theorem test_decode_bit_field :
    decode ⟨0x20012401, []⟩ = .ok (.fbw 292 1) ∧ decode ⟨0x21001C02, []⟩ = .ok (.rdu 28 2)
    ∧ decode ⟨0x22002916, []⟩ = .ok (.rds 41 22) ∧ decode ⟨0x23001405, []⟩ = .ok (.rdc 20 5)
    ∧ decode ⟨0x24001C00, []⟩ = .ok (.rdb 28) ∧ decode ⟨0x28000000, []⟩ = .ok .sfdec := by decide

/-- V3, V60, V62, P3, P5, V80, V81: the numeric commands' and the register accesses' words. -/
theorem test_decode_numeric :
    decode ⟨0x30000000, [0x41127500, 0]⟩ = .ok (.chkt 0x4112750000000000)
    ∧ decode ⟨0x31000000, [0, 0]⟩ = .ok (.clkrel 0)
    ∧ decode ⟨0x32000000, [0x40CF7200, 0]⟩ = .ok (.clkdrift 0x40CF720000000000)
    ∧ decode ⟨0x33000000, [0x40CF4000, 0]⟩ = .ok (.satpos 0x40CF400000000000)
    ∧ decode ⟨0x38000000, [0x410FA488, 0, 0x00000834]⟩ = .ok (.utctime 0x410FA48800000000 2100)
    ∧ decode ⟨0x40020800, []⟩ = .ok (.rdst 0x0208)
    ∧ decode ⟨0x41020900, [0x40B95D00, 0]⟩ = .ok (.wrp 0x0209 0x40B95D0000000000) := by decide

/-- V2 to V6: the errors and their priority, as whole responses. -/
theorem test_error_responses :
    reply .reset 0x04000000 [] = some [0x04010000] ∧ reply .reset 0xFF123456 [0, 0, 0, 0] = some [0xFF010000]
    ∧ reply .reset 0x30000000 [0x41127500] = some [0x30020000] ∧ reply .reset 0x01000000 [0] = some [0x01020000]
    ∧ reply .reset 0x01000001 [] = some [0x01030000] ∧ reply .reset 0x12000100 [] = some [0x12030000]
    ∧ reply .reset 0x11000501 [] = some [0x11030000] ∧ reply .reset 0x10024800 [] = some [0x10040000]
    ∧ reply .reset 0x2100E640 [] = some [0x21040000] ∧ reply .reset 0x40001000 [] = some [0x40040000]
    ∧ reply .reset 0x41030000 [0, 0] = some [0x41040000] ∧ reply .reset 0x10FFFF00 [0] = some [0x10020000]
    ∧ reply .reset 0x04000001 [] = some [0x04010000] := by decide

/-- V8: a SYM one word short is BAD_LENGTH and counts nothing. -/
theorem test_short_sym :
    reply .reset 0x03000000 [0, 0, 0, 0, 0, 0, 0] = some [0x03020000]
    ∧ afterPacket .reset 0x03000000 [0, 0, 0, 0, 0, 0, 0] (fun t => (t.sync.sample_counter, t.hist)) = some (0, []) := by decide

/-! ## The host's two names -/

theorem test_decodeTableWord :
    decodeTableWord 32 0x100005FF = some (.sbw 5 0xFF) ∧ decodeTableWord 32 0x04000000 = none
    ∧ decodeTableWord 96 0x000000004112750030000000 = some (.chkt 0x4112750000000000)
    ∧ decodeTableWord 32 0x30000000 = some (.chkt 0) := by decide

theorem test_withFetchWord :
    (nextOf (step (State.reset.withFetchWord 32 0x02000300))).map (fun t => (t.sat_prn, t.portA, t.respA))
      = some (3, [], [⟨0x02000000, []⟩]) := by decide

/-- 60_exceptions.md R336: with nothing pending the CORE is idle. -/
theorem test_idle_step : nextOf (step .reset) = some .reset := rfl

/-- 20_memory.md R61: the command of port B is answered on port B. -/
theorem test_port_B :
    (nextOf (step { State.reset with portB := [⟨0x00000000, []⟩] })).map (fun t => (t.respA, t.respB))
      = some ([], [⟨0x00000000, []⟩]) := by decide

/-! ## Frame Synchronizer -/

theorem test_nop : reply .reset 0x00000000 [] = some [0x00000000] := by decide

/-- R125, R126: RESET clears the counter, not the satellite. -/
theorem test_reset :
    afterPacket { State.reset with sat_prn := 3, sync := { SyncRegs.reset with stat := .locked, sample_counter := 700 } } 0x01000000 []
      (fun t => (t.sync.stat, t.sync.sample_counter, t.sat_prn)) = some (.noPreamble, 0, 3) := by decide

/-- V7. -/
theorem test_setsat : afterPacket .reset 0x02000300 [] (fun t => (t.sat_prn, t.respA)) = some (3, [⟨0x02000000, []⟩]) := by decide

/-- The fifteen signs of the preamble before its last. -/
def fifteen : List Sign :=
  [.plus, .plus, .plus, .minus, .plus, .minus, .plus, .plus, .plus, .minus, .minus, .plus, .minus, .minus, .minus]

/-- Their opposites. -/
def fifteenInverted : List Sign := fifteen.map oppositeSign

/-- A Symbol with sign minus, and one with sign plus. -/
def minus : Symbol := ⟨0xFFFFFC18, 1215, 0, 3, 0, 0⟩
def plus : Symbol := ⟨0x000003E8, 1215, 0, 3, 0, 0⟩

/-- V10: the sixteenth symbol of the preamble, in either polarity, responds 0x2 and records index 16. -/
theorem test_sym_first_hit :
    (nextOf (exec (.sym minus) { State.reset with hist := fifteen, sync := { SyncRegs.reset with sample_counter := 15 } })).map
      (fun t => (t.respA, t.sync.stat, t.sync.preamble_index, t.sync.polarity_lock))
      = some ([⟨0x03000001, [2]⟩], .possibleLock, 16, false)
    ∧ (nextOf (exec (.sym plus) { State.reset with hist := fifteenInverted, sync := { SyncRegs.reset with sample_counter := 15 } })).map
      (fun t => (t.respA, t.sync.stat, t.sync.preamble_index, t.sync.polarity_lock))
      = some ([⟨0x03000001, [2]⟩], .possibleLock, 16, false) := by decide +kernel

/-- V13: symbol 12000 is silent, symbol 12001 responds 0x10 and puts ALARM_CODE on TRK, and a later one is silent again. -/
theorem test_sym_watchdog :
    (nextOf (exec (.sym plus) { State.reset with sync := { SyncRegs.reset with sample_counter := 11999 } })).map (fun t => (t.trk, t.respA))
      = some ([], [⟨0x03000001, [0]⟩])
    ∧ (nextOf (exec (.sym plus) { State.reset with sync := { SyncRegs.reset with sample_counter := 12000 } })).map (fun t => (t.trk, t.respA))
      = some ([1], [⟨0x03000001, [0x10]⟩])
    ∧ (nextOf (exec (.sym plus) { State.reset with sync := { SyncRegs.reset with sample_counter := 12001, alarm_sent := true } })).map
      (fun t => (t.trk, t.respA)) = some ([], [⟨0x03000001, [0]⟩]) := by decide +kernel

/-- V16: the sign decisions. -/
theorem test_sign_decisions :
    signOf 0 = .plus ∧ signOf 1 = .plus ∧ signOf 0x7FFFFFFF = .plus ∧ signOf 0xFFFFFFFF = .minus ∧ signOf 0x80000000 = .minus := by
  decide

/-! ## Convolutional Decoder -/

/-- V25. -/
theorem test_sbw :
    afterPacket .reset 0x100005FF [] (fun t => symAt t.symbuf 5) = some (-1)
    ∧ afterPacket .reset 0x10000080 [] (fun t => symAt t.symbuf 0) = some (-127) := by decide +kernel
theorem test_sbr :
    reply { State.reset with symbuf := State.reset.symbuf.set 583 127 } 0x11024700 [] = some [0x11000001, 0x0000007F]
    ∧ reply { State.reset with symbuf := State.reset.symbuf.set 5 (-1) } 0x11000500 [] = some [0x11000001, 0xFFFFFFFF] := by
  decide +kernel

/-- T2: the positions 0, 73, 146, 219, 292, 365, 438, 511, 1, 74 go to 0..9, and 582, 72, ... 583 to 575..583. -/
theorem test_deint :
    afterPacket { State.reset with symbuf := (List.range 584).map Int.ofNat } 0x12000000 []
        (fun t => (t.symbuf.take 10, t.symbuf.drop 575))
      = some ([0, 73, 146, 219, 292, 365, 438, 511, 1, 74], [582, 72, 145, 218, 291, 364, 437, 510, 583]) := by decide +kernel

/-- V26. -/
theorem test_polcor :
    afterPacket { State.reset with symbuf := [1, 2, 3, 4] } 0x13000000 [] (fun t => t.symbuf) = some [1, -2, 3, -4] := by decide

/-- `1, -1` n times. -/
def alternating : Nat → List Int
  | 0 => []
  | n + 1 => 1 :: -1 :: alternating n

/-- The frame of V11 and V24. -/
def frameV24 : Nat := 0xBE569EB4F5A7AD3D69EB4F5A7AD3D69EB4F5A7AD3D69EB4F5A7AD3D69EB4F5A7AD3D69EB4

/-- V24: what VIT makes of +1 at the even and -1 at the odd indices. -/
theorem test_vit_constant_input : viterbi (alternating 292) = frameOf frameV24 := by decide +kernel

/-- V21, the first code bits of an impulse and of the dense message of V23. -/
theorem test_vit_code :
    convEncode 0 [true, false, false, true, false, false, true]
      = [(true, true), (true, false), (true, true), (false, false), (true, false), (true, false), (true, true)] := by decide

theorem constant_decodes : viterbi (correctPolarity (deinterleave (List.replicate 584 (1 : Int)))) = frameOf frameV24 := by
  rw [show correctPolarity (deinterleave (List.replicate 584 (1 : Int))) = alternating 292 by decide +kernel]
  exact test_vit_constant_input

/-- What a decode of 584 times +1 leaves under the default parameters (V11): identifier 3, its frame, its time of week. -/
theorem constant_cdec (s : State) (hp : s.params = defaultParams) (hy : s.symbuf = List.replicate 584 1) :
    (cdec s).1 = 3 ∧ (cdec s).2.frame = frameOf frameV24 ∧ (cdec s).2.asm.tow_report = 532188 := by
  have hv := constant_decodes
  rw [← hy] at hv
  have hi : (cdec s).1 = 3 := by
    rw [cdec_identifier, hp, hv]; decide +kernel
  refine ⟨hi, (cdec_frameBits s).trans hv, ?_⟩
  rw [(cdec_leaves s).tow, hi]
  simp only [stagesDone]
  rw [hv, hp]; decide +kernel

/-- The time of week that a decode of a window of 584 plus signs reports (V11). -/
theorem constant_report (s : State) (hp : s.params = defaultParams) (h : List Sign)
    (hw : windowSymbols false h = List.replicate 584 1) :
    (cdec { s with symbuf := windowSymbols false h }).2.asm.tow_report = 532188 := by
  have hc := constant_cdec { s with symbuf := windowSymbols false h } hp (by dsimp only; exact hw)
  exact hc.2.2

/-- A decode under a table whose time of week has the unit 0 reports 0. -/
theorem zero_report (s : State) (hu : s.params.FIELD_TABLE.TOW_LSB_S = 0) : (cdec s).2.asm.tow_report = 0 := by
  rw [(cdec_leaves s).tow]
  simp only [stagesDone, frameTow, hu, Nat.mul_zero]
  split <;> rfl

/-- CDEC of 584 times +1 responds identifier 3 (V11). -/
theorem test_cdec (s : State) (hp : s.params = defaultParams) (hy : s.symbuf = List.replicate 584 1) :
    exec .cdec s = .next ((cdec s).2.respond 0x15 [3]) := by
  have h := (constant_cdec s hp hy).1
  show Host.Outcome.next ((cdec s).2.respond 0x15 [BitVec.ofNat 32 (cdec s).1.val]) = _
  rw [h]; rfl

/-! ## Bit-Field Codec -/

/-- V30. -/
theorem test_fbw : afterPacket .reset 0x20001C01 [] (fun t => (frameBit t.frame 27, frameBit t.frame 28, frameBit t.frame 29)) = some (false, true, false) := by
  decide +kernel
/-- The power-on state with one frame bit set. -/
def oneBit (p : Nat) : State := State.reset.setFrameBit p true
/-- V30, V32. -/
theorem test_rdu :
    reply (oneBit 28) 0x21001C02 [] = some [0x21000002, 0, 2] ∧ reply (oneBit 292) 0x2100E540 [] = some [0x21000002, 0, 1] := by
  decide +kernel
theorem test_rds :
    reply (oneBit 28) 0x22001C02 [] = some [0x22000002, 0xFFFFFFFF, 0xFFFFFFFE]
    ∧ reply (oneBit 292) 0x2200E540 [] = some [0x22000002, 0, 1] := by decide +kernel
/-- V33. -/
theorem test_rdc :
    afterPacket { oneBit 292 with acc := BitVec.allOnes 64 } 0x23000140 [] (fun t => t.acc) = some 0
    ∧ reply (oneBit 28) 0x23001C02 [] = some [0x23000002, 0, 2] := by decide +kernel
theorem test_rdb :
    afterPacket (oneBit 28) 0x24001C00 [] (fun t => (t.acc, t.respA)) = some (1, [⟨0x24000001, [1]⟩])
    ∧ reply (oneBit 28) 0x24001D00 [] = some [0x24000001, 0] := by decide +kernel

/-! ## Message Assembler -/

/-- V40: subframe 1. -/
theorem test_sfdec_subframe1 :
    afterPacket (withFrame F1) 0x28000000 [] (fun t => (t.asm.last_sfid, t.asm.tow_report, t.asm.sf1_tow)) = some (1, 1200, 1200)
    ∧ afterPacket (withFrame F1) 0x28000000 [] (fun t => [t.eph.A_f0, t.eph.delta_n, t.acc])
      = some [0xBE00000000000000, 0x3E188B2F704A9419, 0xFFFFFFFFFFFFFFFF]
    ∧ afterPacket (withFrame F1) 0x28000000 [] (fun t => [t.eph.L5_flag, t.eph.S_flag]) = some [true, false] := by decide +kernel

/-- The group 0x04 that F3 loads (4.1). -/
def utcF3 : Utc :=
  ⟨0xBDC0000000000000, 0x3CC0000000000000, 0x4040000000000000, 0x4069A00000000000, 0x4032000000000000, 0x4069A00000000000,
   0x4008000000000000, 0x4033000000000000⟩

/-- V41, V44: the pages. -/
theorem test_sfdec_pages :
    afterPacket (withFrame F3) 0x28000000 [] (fun t => (t.asm.paged_tow, t.utc, t.tlm)) = some (1212, utcF3, [.utcModel utcF3])
    ∧ afterPacket (withFrame F4) 0x28000000 [] (fun t => [t.iono.alpha0, t.iono.beta3, t.eop.dUT1, t.acc])
      = some [0xBE80000000000000, 0xC100000000000000, 0xC050000000000000, 0xFFFFFFFFFFFFFFFE] := by decide +kernel

/-! ## Orbital/Clock Model, UTC, registers -/

/-- V52, V54. -/
theorem test_chkt :
    reply .reset 0x30000000 [0x41127500, 1] = some [0x30000002, 0xC11274FF, 0xFFFFFFFF]
    ∧ reply .reset 0x30000000 [0xC1127500, 0x66666666] = some [0x30000002, 0x411274FF, 0x9999999A] := by decide +kernel
/-- The power-on state with `sqrtA` 6493.0 (V60, V63). -/
def orbit : State := { State.reset with eph := { Eph.reset with sqrtA := 0x40B95D0000000000 } }
/-- V60 (a). -/
theorem test_clkrel : reply orbit 0x31000000 [0, 0] = some [0x31000002, 0x80000000, 0] := by decide +kernel
/-- V61 at `t` = 0, and its register. -/
theorem test_clkdrift :
    afterPacket { orbit with eph := { orbit.eph with A_f0 := 0x3F1A36E2EB1C432D } } 0x32000000 [0, 0]
        (fun t => (t.respA, t.derived.sat_clk_drift, t.derived.sat_dtr))
      = some ([⟨0x32000002, [0x3F1A36E2, 0xEB1C432D]⟩], 0x3F1A36E2EB1C432D, 0) := by decide +kernel
/-- V63. -/
theorem test_satpos :
    afterPacket orbit 0x33000000 [0, 0] (fun t => (t.derived.satpos_X, t.derived.satpos_Y, t.derived.satpos_Z, t.derived.satvel_Y))
      = some (0x41841A5E48000000, 0, 0, 0x3FE1F0CBE07B7000) := by decide +kernel
/-- The UTC parameters of V70 to V76. -/
def leap : State :=
  { State.reset with
      utc := ⟨0, 0, 0, 0x40A0680000000000, 0x4032000000000000, 0x40A0680000000000, 0x4008000000000000, 0x4033000000000000⟩ }
/-- V71 (the inserted second), V76 (A). -/
theorem test_utctime :
    reply leap 0x38000000 [0x410FA490, 0, 0x834] = some [0x38000002, 0x410FA400, 0]
    ∧ reply leap 0x38000000 [0x410FA490, 0, 0x833] = some [0x38000002, 0x410FA400, 0] := by decide +kernel
/-- V7, V80. -/
theorem test_rdst :
    reply .reset 0x40000000 [] = some [0x40000002, 0, 0]
    ∧ reply { State.reset with sat_prn := 3 } 0x40000C00 [] = some [0x40000002, 0, 3] := by decide
/-- V81, V82. -/
theorem test_wrp :
    afterPacket .reset 0x41020800 [0x3F847AE1, 0x47AE147B] (fun t => (t.eph.ecc, t.respA))
      = some (0x3F847AE147AE147B, [⟨0x41000000, []⟩])
    ∧ afterPacket .reset 0x41021800 [0, 3] (fun t => t.eph.L5_flag) = some true
    ∧ afterPacket .reset 0x41021800 [0x40000000, 0] (fun t => t.eph.L5_flag) = some false := by decide

/-! ## Witnesses: for each statement with hypotheses, a state and operands that meet them, at the boundaries of its clauses -/

theorem witness_EncodeOfDecode : decode ⟨0x100005FF, []⟩ = .ok (.sbw 5 0xFF) := by decide

/-- A packet for each status. -/
theorem witness_PacketErrorPriority :
    fetch (send .reset 0x04000000 []) = some (⟨0x04000000, []⟩, .reset) ∧ statusOf ⟨0x04000000, []⟩ = 1
    ∧ fetch (send .reset 0x10FFFF00 [0]) = some (⟨0x10FFFF00, [0]⟩, .reset) ∧ statusOf ⟨0x10FFFF00, [0]⟩ = 2
    ∧ statusOf ⟨0x01000001, []⟩ = 3 ∧ statusOf ⟨0x10024800, []⟩ = 4 ∧ statusOf ⟨0x10024700, []⟩ = 0 := by
  refine ⟨rfl, by decide, rfl, by decide, by decide, by decide, by decide⟩

theorem witness_StepRunsDecodedCommand :
    fetch (send .reset 0x00000000 []) = some (⟨0x00000000, []⟩, .reset) ∧ decode ⟨0x00000000, []⟩ = .ok .nop
    ∧ State.reset.portB = [] := ⟨rfl, by decide, rfl⟩

/-- No clause of the statement excludes NOP. -/
theorem witness_WritersOfEachRegister :
    exec .nop .reset = .next (State.reset.respond 0x00 [])
    ∧ Op.nop ∉ [Op.sym, .reset, .setsat, .sbw, .deint, .polcor, .cdec, .vit, .fbw, .rdu, .rds, .rdc, .rdb, .sfdec, .wrp, .satpos,
        .clkdrift] := ⟨rfl, by decide⟩

theorem witness_PowerOnValues : (0x0000, 0) ∈ registerTable State.reset := List.mem_cons_self

/-- A locked state with a full history that the invariant holds in, and its step. -/
def locked (fails : BitVec 8) : State :=
  { State.reset with
      hist := List.replicate 601 .plus
      sync := { SyncRegs.reset with
        stat := .locked, sample_counter := 1215, preamble_index := 616, fail_count := fails, frame_sync := true } }

theorem witness_StepKeepsInvariant : Invariant (locked 2) ∧ ∃ t, step { locked 2 with portA := [⟨0, []⟩] } = .next t :=
  ⟨⟨by decide +kernel, by decide, fun _ => by decide, ⟨rfl, rfl⟩, by decide, (fun h => nomatch h), fun _ => rfl,
    (fun h => nomatch h), fun _ => by decide +kernel, (fun h => nomatch h), fun _ => ⟨rfl, rfl⟩⟩, _, rfl⟩

theorem witness_AlarmStaysLatched :
    Op.reset ∈ [Op.reset, .setsat] ∧ Op.nop ∉ [Op.reset, .setsat]
    ∧ ∃ s t : State, exec .reset s = .next t ∧ s.sync.alarm_sent = true ∧ ∃ u, exec .nop s = .next u :=
  ⟨by decide, by decide, { State.reset with sync := { SyncRegs.reset with alarm_sent := true } }, _, rfl, rfl, _, rfl⟩

/-- A history that the next sign completes to the preamble, of `n` signs with it. -/
def beforeHit (n : Nat) : List Sign := List.replicate (n - 16) .plus ++ fifteen

/-- A state whose history will have `n` signs and the preamble last. -/
def hitting (stat : SyncStat) (n : Nat) (counter index : BitVec 64) : State :=
  { State.reset with
      hist := beforeHit n, sync := { SyncRegs.reset with stat := stat, sample_counter := counter, preamble_index := index } }

/-- The hit changes `stat`, and a plus sign in POSSIBLE_LOCK does not. -/
theorem witness_StatTransitions :
    (nextOf (exec (.sym minus) (hitting .noPreamble 16 15 0))).map (fun t => t.sync.stat) = some .possibleLock
    ∧ (nextOf (exec (.sym plus) (hitting .possibleLock 16 20 16))).map (fun t => t.sync.stat) = some .possibleLock
    ∧ Op.reset ∈ [Op.reset, .setsat] ∧ Op.nop ∉ [Op.sym, .reset, .setsat] := by decide +kernel

theorem witness_CorrelationMeansFullAgreement :
    16 ≤ preambleSigns.length ∧ correlation preambleSigns = 16 ∧ correlation (preambleSigns.map oppositeSign) = -16
    ∧ preambleHit preambleSigns = some false ∧ preambleHit (preambleSigns.map oppositeSign) = some true
    ∧ preambleHit (preambleSigns.drop 1) = none := by decide

/-- NO_PREAMBLE: no hit; a hit in either polarity; windows of 599 and of 600 signs. -/
theorem witness_NoPreambleCycle :
    (hitting .noPreamble 16 15 0).sync.stat = .noPreamble
    ∧ preambleHit (historyAfter (hitting .noPreamble 16 15 0) plus) = none
    ∧ preambleHit (historyAfter (hitting .noPreamble 16 15 0) minus) = some false
    ∧ preambleHit (historyAfter { State.reset with hist := fifteenInverted } plus) = some true
    ∧ preambleHit (historyAfter (hitting .noPreamble 599 598 0) minus) = some false
    ∧ (historyAfter (hitting .noPreamble 599 598 0) minus).length = 599
    ∧ preambleHit (historyAfter (hitting .noPreamble 600 599 0) minus) = some false
    ∧ (historyAfter (hitting .noPreamble 600 599 0) minus).length = 600 := by decide +kernel

/-- POSSIBLE_LOCK: no hit; a hit with 600 signs; with 601 signs at the distances 599, 600 and 601. -/
theorem witness_PossibleLockCycle :
    (hitting .possibleLock 601 615 16).sync.stat = .possibleLock
    ∧ preambleHit (historyAfter (hitting .possibleLock 601 615 16) plus) = none
    ∧ preambleHit (historyAfter (hitting .possibleLock 601 615 16) minus) = some false
    ∧ (historyAfter (hitting .possibleLock 601 615 16) minus).length = 601
    ∧ ((615 : BitVec 64) + 1 - 16).toNat = 600 ∧ ((614 : BitVec 64) + 1 - 16).toNat = 599 ∧ ((616 : BitVec 64) + 1 - 16).toNat = 601
    ∧ preambleHit (historyAfter (hitting .possibleLock 600 615 16) minus) = some false
    ∧ (historyAfter (hitting .possibleLock 600 615 16) minus).length = 600 := by decide +kernel

/-- The identifier of a window of 584 plus signs under the default parameters (V11). -/
theorem constant_identifier (s : State) (hp : s.params = defaultParams) (h : List Sign)
    (hw : windowSymbols false h = List.replicate 584 1) : windowIdentifier s false h = 3 := by
  unfold windowIdentifier
  rw [hw, hp, constant_decodes]; decide +kernel

/-- A map that recognises nothing. -/
def deafParams : Params := { defaultParams with SFID_MAP := ⟨[], 0⟩ }

/-- LOCKED: off the pace; on it with an identifier; on it with none, and the failure count on both sides of the limit. -/
theorem witness_LockedCycle :
    (locked 0).sync.stat = .locked
    ∧ ((1214 : BitVec 64) + 1 ≠ 616 + 600) ∧ (locked 0).sync.sample_counter + 1 = (locked 0).sync.preamble_index + 600
    ∧ (historyAfter (locked 0) plus).length = 601 ∧ windowIdentifier (locked 0) (locked 0).sync.polarity_lock (historyAfter (locked 0) plus) ≠ 0
    ∧ windowIdentifier { locked 0 with params := deafParams } false (historyAfter (locked 0) plus) = 0
    ∧ ¬ 2 < ((1 : BitVec 8) + 1).toNat ∧ 2 < ((2 : BitVec 8) + 1).toNat := by
  refine ⟨rfl, by decide, rfl, by decide +kernel, ?_, rfl, by decide, by decide⟩
  rw [show (locked 0).sync.polarity_lock = false from rfl, constant_identifier (locked 0) rfl _ (by decide +kernel)]
  decide

/-- A successful attempt in LOCKED sets `flag_preamble`. -/
theorem locked_success (s : State) (r : Symbol) (inv : Bool) (hs : s.sync.stat = .locked)
    (hn : s.sync.sample_counter + 1 = s.sync.preamble_index + 600) (ha : attemptOf s r = some inv)
    (hw : windowIdentifier s inv (historyAfter s r) ≠ 0) : (symNext r s).sync.flag_preamble = true := by
  rw [symNext_sync, towSync_flag_preamble, afterStepFive_sync, ha, nextSync_locked (by rw [atStepFive_eq]; exact hs), atStepFive_eq]
  have hn' : s.sync.sample_counter + 1#64 = s.sync.preamble_index + 600#64 := hn
  simp [hn', hw, lockedSuccess]

theorem locked_attempt (s : State) (r : Symbol) (hs : s.sync.stat = .locked)
    (hn : s.sync.sample_counter + 1 = s.sync.preamble_index + 600) (hl : 600 ≤ (historyAfter s r).length) :
    attemptOf s r = some s.sync.polarity_lock := by
  unfold attemptOf
  dsimp only
  rw [if_neg (by omega), hs]
  dsimp only
  rw [if_pos hn]

/-- `locked 0` under a table whose time of week has the unit 0. -/
def timeless : State :=
  { locked 0 with params := { defaultParams with FIELD_TABLE := { defaultFieldTable with TOW_LSB_S := 0 } } }

/-- A valid-preamble cycle with a nonzero report (V11). -/
theorem witness_TimeOfWeekBookkeeping_nonzero :
    (symNext plus (locked 0)).sync.flag_preamble = true ∧ (symNext plus (locked 0)).asm.tow_report = 532188 := by
  have hw : windowSymbols false (historyAfter (locked 0) plus) = List.replicate 584 1 := by decide +kernel
  have ha : attemptOf (locked 0) plus = some false := locked_attempt (locked 0) plus rfl rfl (by decide +kernel)
  refine ⟨locked_success (locked 0) plus false rfl rfl ha ?_, ?_⟩
  · rw [constant_identifier (locked 0) rfl _ hw]; decide
  · rw [(symNext_ran plus (locked 0) false ha).2.2.2.1]
    exact constant_report (locked 0) rfl _ hw

/-- A valid-preamble cycle with a zero report. -/
theorem witness_TimeOfWeekBookkeeping_zero :
    (symNext plus timeless).sync.flag_preamble = true ∧ (symNext plus timeless).asm.tow_report = 0 := by
  have hw : windowSymbols false (historyAfter timeless plus) = List.replicate 584 1 := by decide +kernel
  have ha : attemptOf timeless plus = some false := locked_attempt timeless plus rfl rfl (by decide +kernel)
  have hu : timeless.params.FIELD_TABLE.TOW_LSB_S = 0 := rfl
  refine ⟨locked_success timeless plus false rfl rfl ha ?_, ?_⟩
  · unfold windowIdentifier
    rw [hw, constant_decodes]; decide +kernel
  · rw [(symNext_ran plus timeless false ha).2.2.2.1]
    exact zero_report _ hu

/-- Cycles without a valid preamble, the time of week known and not known. -/
theorem witness_TimeOfWeekBookkeeping_other :
    (nextOf (exec (.sym plus) { State.reset with sync := { SyncRegs.reset with tow_known := true } })).map
      (fun t => (t.sync.flag_preamble, t.sync.tow_known)) = some (false, true)
    ∧ (nextOf (exec (.sym plus) State.reset)).map (fun t => (t.sync.flag_preamble, t.sync.tow_known)) = some (false, false) := by
  decide +kernel

/-- A record with the time known; none with it unknown. -/
theorem witness_OutputRecord :
    (nextOf (exec (.sym plus) { State.reset with sync := { SyncRegs.reset with tow_known := true, tow_current_ms := 7 } })).map
      (fun t => t.out) = some [⟨0x000003E8, 1215, 0, 3, 8, 1⟩]
    ∧ (nextOf (exec (.sym plus) State.reset)).map (fun t => t.out) = some [] := by decide +kernel

theorem witness_DecodeWindow : 600 ≤ (List.replicate 600 Sign.plus).length ∧ (0 : Nat) < 584 ∧ (583 : Nat) < 584 := by decide +kernel

theorem witness_SymReadsOnlyTheSign :
    (plus.prompt_I.toInt < 0 ↔ (0 : BitVec 32).toInt < 0) ∧ (minus.prompt_I.toInt < 0 ↔ (0x80000000 : BitVec 32).toInt < 0) := by
  decide

theorem witness_DefaultIdentifierIsNeverZero :
    (locked 0).params = defaultParams ∧ (locked 0).hist.length = 601 ∧ (locked 0).sync.stat = .locked :=
  ⟨rfl, by decide +kernel, rfl⟩

/-- The power-on buffers have their form; indices on both sides of the end of SYMBUF; -128 and its neighbours. -/
theorem witness_SoftSymbols :
    State.reset.spacesWf = true ∧ 583 < (584 : BitVec 16).toNat ∧ (583 : BitVec 16).toNat ≤ 583 ∧ (0 : BitVec 16).toNat ≤ 583
    ∧ softOfOperand 0x80 = -127 ∧ softOfOperand 0x81 = -127 ∧ softOfOperand 0x7F = 127 ∧ softOfOperand 0xFF = -1 := by decide +kernel

theorem witness_DeinterleaveIsTheBlockTranspose :
    (State.reset.symbuf).length = 584 ∧ (7 : Nat) < 8 ∧ (72 : Nat) < 73 := by decide +kernel

theorem witness_ConvolutionalCode : (63 : Nat) < 64 ∧ nextState true 63 = 63 ∧ nextState false 1 = 0 := by decide

theorem witness_VitFollowsTheSpecAlgorithm : State.reset.symbuf.length = 584 := by decide +kernel

/-- Error-free symbols of a message at both ends of the amplitude's range. -/
theorem witness_ErrorFreeEncodingDecodesExactly :
    (frameOf F1).length = 292 ∧ (1 : Int) ≤ 1 ∧ (127 : Int) ≤ 127
    ∧ ({ State.reset with symbuf := symbolsOf 1 (convEncode 0 (frameOf F1)) } : State).symbuf = symbolsOf 1 (convEncode 0 (frameOf F1))
    ∧ (symbolsOf 127 (convEncode 0 (frameOf F1))).length = 584 :=
  ⟨by decide +kernel, by decide, by decide, rfl, by decide +kernel⟩

theorem witness_ViterbiIsMaximumLikelihood : (alternating 292).length = 584 ∧ (frameOf F1).length = 292 := by decide +kernel

/-- Frame positions 0, 1, 292, 293 and bits 0, 1, 2. -/
theorem witness_FrameBitAccess :
    State.reset.spacesWf = true ∧ (0 : BitVec 16).toNat = 0 ∧ 292 < (293 : BitVec 16).toNat ∧ 1 < (2 : BitVec 8).toNat
    ∧ 1 ≤ (1 : BitVec 16).toNat ∧ (292 : BitVec 16).toNat ≤ 292 ∧ (1 : BitVec 8).toNat ≤ 1 ∧ (1 : Nat) ≤ 2 ∧ (2 : Nat) ≠ (1 : BitVec 16).toNat := by
  decide +kernel

/-- Slices 0 and 65 bits long, starting at 0, ending at 292 and at 293. -/
theorem witness_SliceReads :
    (64 < (65 : BitVec 8).toNat) ∧ ((0 : BitVec 8).toNat = 0) ∧ 292 < (230 : BitVec 16).toNat + (64 : BitVec 8).toNat - 1
    ∧ 1 ≤ (229 : BitVec 16).toNat ∧ (64 : BitVec 8).toNat ≤ 64 ∧ (229 : BitVec 16).toNat + (64 : BitVec 8).toNat - 1 ≤ 292 := by decide

/-- The slices of P1, and a list of exactly 64 bits. -/
theorem witness_MultiSliceReads :
    (∀ x ∈ [Slice.mk 10 3, ⟨20, 5⟩], x.valid = true) ∧ totalLength [⟨10, 3⟩, ⟨20, 5⟩] ≤ 64
    ∧ (∀ x ∈ [Slice.mk 1 60, ⟨289, 4⟩], x.valid = true) ∧ totalLength [⟨1, 60⟩, ⟨289, 4⟩] ≤ 64 := by decide

/-- The slice of T4 and its boundary values, and the longest slice's. -/
theorem witness_SignedFieldRoundTrip :
    State.reset.spacesWf = true ∧ (Slice.mk 107 8).valid = true ∧ -(2 ^ (8 - 1) : Int) ≤ -128 ∧ (127 : Int) < 2 ^ (8 - 1)
    ∧ (Slice.mk 229 64).valid = true ∧ -(2 ^ (64 - 1) : Int) ≤ -9223372036854775808 := by decide +kernel

/-- F3 with the message type 9 in the place of 26. -/
def F3with9 : Nat := 0x8B0032909FFFF00080120002334CD31300000000000000000000000000000000000000000

/-- A frame for each identifier and each kind of page, and the groups without a register twice. -/
theorem witness_SfdecArms :
    frameSfid paramsV14 (frameOf F7) = 0 ∧ frameSfid defaultParams (frameOf F1) = 1 ∧ frameSfid defaultParams (frameOf F2) = 2
    ∧ frameSfid defaultParams (frameOf F3) = 3 ∧ frameSfid defaultParams (frameOf F4) = 4
    ∧ readUnsigned (frameOf F3) defaultFieldTable.msgid = 26 ∧ readUnsigned (frameOf F4) defaultFieldTable.msgid = 11
    ∧ readUnsigned (frameOf F5) defaultFieldTable.msgid = 0
    ∧ frameSfid defaultParams (frameOf F3with9) = 3 ∧ readUnsigned (frameOf F3with9) defaultFieldTable.msgid = 9 := by decide +kernel

theorem witness_SfdecGroups :
    noRegTwice defaultSF1 = true ∧ noRegTwice defaultSF2 = true ∧ noRegTwice defaultMtUtc = true ∧ noRegTwice defaultMtEopIono = true := by
  decide

/-- A publication of each kind: V41, V44, and V42 with the other two times of week recorded. -/
theorem witness_Publications :
    afterPacket (withFrame F3) 0x28000000 [] (fun t => decide (t.tlm ≠ [])) = some true
    ∧ afterPacket (withFrame F4) 0x28000000 [] (fun t => decide (t.tlm ≠ [])) = some true
    ∧ afterPacket { withFrame F2 with asm := { AsmRegs.reset with sf1_tow := 1200, paged_tow := 1212 } } 0x28000000 []
        (fun t => t.tlm.map fun m => match m with | .ephemeris _ e _ => e.i_0 | .iono _ => 0 | .utcModel _ => 0)
      = some [0x3FE921FB54442D28] := by decide +kernel

/-- The parameters of V63. -/
theorem witness_SatposAtZeroArguments :
    orbit.eph.M_0 = 0 ∧ orbit.eph.omega = 0 ∧ orbit.eph.i_0 = 0 ∧ orbit.eph.OMEGA_0 = 0 ∧ orbit.eph.Toe = 0 ∧ orbit.eph.ecc = 0
    ∧ orbit.eph.delta_n = 0 ∧ orbit.eph.IDOT = 0 ∧ orbit.eph.OMEGA_dot = 0 ∧ orbit.eph.Cuc = 0 ∧ orbit.eph.Cus = 0
    ∧ orbit.eph.Cic = 0 ∧ orbit.eph.Cis = 0 ∧ orbit.eph.Crc = 0 ∧ orbit.eph.Crs = 0
    ∧ isFinite (semiMajorAxis orbit.eph) = true ∧ isFinite (meanMotion orbit.eph) = true :=
  ⟨rfl, rfl, rfl, rfl, rfl, rfl, rfl, rfl, rfl, rfl, rfl, rfl, rfl, rfl, rfl, by decide +kernel, by decide +kernel⟩

/-- A NaN, the infinities, finite numbers of both signs, the least positive number. -/
theorem witness_NumLimits :
    isNaN 0x7FF8000000000001 = true ∧ isInf 0x7FF0000000000000 = true ∧ isInf 0xFFF0000000000000 = true
    ∧ isFinite 0x3FF0000000000000 = true ∧ flt 0 1 = true ∧ isNaN 0x8000000000000000 = false := by decide +kernel

/-- Finite operands: the largest finite number, the least subnormal, one; one is not zero and not negative. -/
theorem witness_ArithmeticIsCorrectlyRounded :
    isFinite 0x7FEFFFFFFFFFFFFF = true ∧ isFinite 1 = true ∧ isFinite 0x3FF0000000000000 = true
    ∧ realOf 0x3FF0000000000000 ≠ 0 ∧ 0 ≤ realOf 0x3FF0000000000000 := by
  have h : (0 : ℝ) < realOf 0x3FF0000000000000 := by
    have hs : fsigned 0x3FF0000000000000 = 4503599627370496 := by decide +kernel
    unfold realOf
    rw [hs]
    positivity
  exact ⟨by decide, by decide, by decide, ne_of_gt h, le_of_lt h⟩

theorem witness_ExactConversionAndRemainder :
    (9007199254740991 : Int).natAbs < 2 ^ 53 ∧ (-9007199254740991 : Int).natAbs < 2 ^ 53 ∧ isFinite 0xBFF0000000000000 = true := by
  decide

theorem witness_SpecialValues :
    isNaN 0xFFF0000000000001 = true ∧ isFinite 0xBFF0000000000000 = true ∧ isZero 0x8000000000000000 = true ∧ isZero 0 = true
    ∧ isZero 0xBFF0000000000000 = false := by decide

/-- The parameters of V70 to V76 in week 2100, `WN_T` 0.0. -/
theorem witness_LeapSecondStepsByOne :
    ({ leap with utc := { leap.utc with WN_T := 0 } } : State).utc
      = { A0 := 0, A1 := 0, t_OT := 0, WN_T := 0, DeltaT_LS := 0x4032000000000000, WN_LSF := i2f (2100 : BitVec 32).toInt
          DN := 0x4008000000000000, DeltaT_LSF := 0x4033000000000000 } := by decide +kernel

/-- The first and last register of the map, and the indices beside the groups' ends. -/
theorem witness_RdstReadsEveryRegister :
    (registerTable .reset).map Prod.fst = List.range' 0x0000 15 ++ List.range' 0x0100 7 ++ List.range' 0x0200 26
      ++ List.range' 0x0300 8 ++ List.range' 0x0400 8 ++ List.range' 0x0500 8 ++ List.range' 0x0600 7
    ∧ ∀ x ∈ registerTable .reset, x.1 ≠ (0x000F : BitVec 16).toNat := by decide +kernel

theorem witness_WrpWritesOneParameter :
    regIndexWritable (0x0000 : BitVec 16).toNat = false ∧ regIndexWritable (0x01FF : BitVec 16).toNat = false
    ∧ regIndexWritable (0x021A : BitVec 16).toNat = false ∧ regIndexWritable (0x0200 : BitVec 16).toNat = true
    ∧ regIndexWritable (0x0218 : BitVec 16).toNat = true ∧ regIndexWritable (0x0219 : BitVec 16).toNat = true
    ∧ regIndexWritable (0x0606 : BitVec 16).toNat = true ∧ regIndexWritable (0x0607 : BitVec 16).toNat = false := by decide

end Sys2Proof.Tests
end

section
/-! SUPPORT. Exact binary64 results (00_scope.md R11): the fields of a packed pattern, the values `roundPack` leaves as they are, and
`i2f` and `fmod`, which are never rounded. -/

namespace Sys2Proof.Machine

/-! ## The fields of a pattern as numbers -/

theorem fsign_eq_decide (x : F64) : fsign x = decide (2 ^ 63 ≤ x.toNat) :=
  BitVec.msb_eq_decide x

theorem fexp_eq (x : F64) : fexp x = x.toNat / 2 ^ 52 % 2 ^ 11 := by
  rw [fexp, BitVec.extractLsb'_toNat, Nat.shiftRight_eq_div_pow]

theorem ffrac_eq (x : F64) : ffrac x = x.toNat % 2 ^ 52 := by
  rw [ffrac, BitVec.extractLsb'_toNat, Nat.shiftRight_zero]

theorem ffrac_lt (x : F64) : ffrac x < 2 ^ 52 := BitVec.isLt _

theorem fexp_lt (x : F64) : fexp x < 2048 := BitVec.isLt _

theorem isFinite_iff (x : F64) : isFinite x = true ↔ fexp x ≠ 2047 := by simp [isFinite]

theorem isNaN_eq_false_of_isFinite {x : F64} (h : isFinite x = true) : isNaN x = false := by
  simp [isNaN, (isFinite_iff x).mp h]

theorem isInf_eq_false_of_isFinite {x : F64} (h : isFinite x = true) : isInf x = false := by
  simp [isInf, (isFinite_iff x).mp h]

theorem fsig_lt (x : F64) : fsig x < 2 ^ 53 := by
  have := ffrac_lt x
  unfold fsig
  split <;> omega

theorem neg_1074_le_fpow (x : F64) : -1074 ≤ fpow x := by
  unfold fpow
  split <;> omega

theorem fpow_le_of_isFinite {x : F64} (h : isFinite x = true) : fpow x ≤ 971 := by
  have := fexp_lt x
  have := (isFinite_iff x).mp h
  unfold fpow
  split <;> omega

/-! ## The fields of a packed pattern -/

section Packed
variable {magnitude : Nat} (neg : Bool) (h : magnitude < 2 ^ 63)
include h

theorem toNat_fpack : (fpack neg magnitude).toNat = (if neg then 2 ^ 63 else 0) + magnitude := by
  rw [fpack, BitVec.toNat_ofNat, Nat.mod_eq_of_lt]
  split <;> omega

theorem fsign_fpack : fsign (fpack neg magnitude) = neg := by
  rw [fsign_eq_decide, toNat_fpack neg h]
  cases neg
  case false => simpa using h
  case true => simp

theorem fexp_fpack : fexp (fpack neg magnitude) = magnitude / 2 ^ 52 := by
  rw [fexp_eq, toNat_fpack neg h]
  split <;> omega

theorem ffrac_fpack : ffrac (fpack neg magnitude) = magnitude % 2 ^ 52 := by
  rw [ffrac_eq, toNat_fpack neg h]
  split <;> omega

end Packed

/-- A significand of 53 bits and the number `k` of steps its power of two lies above the least one, in the form a finite pattern
holds them: the significand is normalized, or its power is the least. -/
structure IsFinitePair (k sig : Nat) : Prop where
  step_le : k ≤ 2045
  sig_lt : sig < 2 ^ 53
  normalized : k = 0 ∨ 2 ^ 52 ≤ sig

section FinitePair
variable {k sig : Nat} (neg : Bool) (h : IsFinitePair k sig)
include h

theorem IsFinitePair.magnitude_lt : k * 2 ^ 52 + sig < 0x7FF0000000000000 := by
  obtain ⟨hk, hsig, -⟩ := h
  omega

/-- The hidden bit of a normalized significand carries into the exponent field. -/
theorem IsFinitePair.fexp_fpack :
    fexp (fpack neg (k * 2 ^ 52 + sig)) = if sig < 2 ^ 52 then 0 else k + 1 := by
  have hlt := h.magnitude_lt
  obtain ⟨-, hsig, hnorm⟩ := h
  rw [Machine.fexp_fpack neg (by omega)]
  split <;> omega

theorem IsFinitePair.ffrac_fpack :
    ffrac (fpack neg (k * 2 ^ 52 + sig)) = if sig < 2 ^ 52 then sig else sig - 2 ^ 52 := by
  have hlt := h.magnitude_lt
  obtain ⟨-, hsig, -⟩ := h
  rw [Machine.ffrac_fpack neg (by omega)]
  split <;> omega

theorem IsFinitePair.isFinite_fpack : isFinite (fpack neg (k * 2 ^ 52 + sig)) = true := by
  rw [isFinite_iff, h.fexp_fpack]
  have := h.step_le
  split <;> omega

theorem IsFinitePair.fsig_fpack : fsig (fpack neg (k * 2 ^ 52 + sig)) = sig := by
  rw [fsig, h.fexp_fpack, h.ffrac_fpack]
  rcases Nat.lt_or_ge sig (2 ^ 52) with hs | hs
  · rw [if_pos hs, if_pos hs, if_pos rfl]
  · rw [if_neg hs.not_gt, if_neg hs.not_gt, if_neg (Nat.succ_ne_zero k), Nat.add_sub_of_le hs]

theorem IsFinitePair.fpow_fpack : fpow (fpack neg (k * 2 ^ 52 + sig)) = (k : Int) - 1074 := by
  rw [fpow, h.fexp_fpack]
  rcases Nat.lt_or_ge sig (2 ^ 52) with hs | hs
  · have hk : k = 0 := h.normalized.resolve_right hs.not_ge
    rw [if_pos hs, if_pos rfl]
    omega
  · rw [if_neg hs.not_gt, if_neg (Nat.succ_ne_zero k)]
    omega

theorem IsFinitePair.fsign_fpack : fsign (fpack neg (k * 2 ^ 52 + sig)) = neg :=
  Machine.fsign_fpack neg (by have := h.magnitude_lt; omega)

end FinitePair

/-! ## The value of a pattern -/

/-- A magnitude with a sign, as `fsigned` takes its significand. -/
def withSign (neg : Bool) (m : Nat) : Int := if neg then -(m : Int) else (m : Int)

theorem fsigned_eq_withSign (x : F64) : fsigned x = withSign (fsign x) (fsig x) := rfl

theorem natAbs_withSign (neg : Bool) (m : Nat) : (withSign neg m).natAbs = m := by
  cases neg <;> simp [withSign]

theorem withSign_natAbs (n : Int) : withSign (decide (n < 0)) n.natAbs = n := by
  rcases lt_or_ge n 0 with hn | hn
  · simp [withSign, hn, abs_of_neg hn]
  · simp [withSign, hn.not_gt, abs_of_nonneg hn]

theorem withSign_mul (neg : Bool) (m n : Nat) : withSign neg (m * n) = withSign neg m * n := by
  cases neg <;> simp [withSign]

/-- The remainder truncated toward zero takes the sign of the dividend, whatever the divisor's. -/
theorem withSign_tmod (negX negY : Bool) (a b : Nat) :
    (withSign negX a).tmod (withSign negY b) = withSign negX (a % b) := by
  have hdivisor : (withSign negX a).tmod (withSign negY b) = (withSign negX a).tmod b := by
    cases negY <;> simp [withSign]
  rw [hdivisor, withSign, withSign, Int.ofNat_tmod]
  split
  · exact Int.neg_tmod a b
  · rfl

theorem abs_withSign_mul_zpow (neg : Bool) (m : Nat) (e : Int) :
    |(withSign neg m : ℝ) * (2 : ℝ) ^ e| = m * (2 : ℝ) ^ e := by
  have hm : |(withSign neg m : ℝ)| = m := by
    rw [← Int.cast_abs, Int.abs_eq_natAbs, natAbs_withSign, Int.cast_natCast]
  rw [abs_mul, hm, abs_of_pos (by positivity)]

/-- A magnitude scaled up to a lower power of two stands for the same number. -/
theorem withSign_mul_zpow_of_le (neg : Bool) (m : Nat) {q e : Int} (h : q ≤ e) :
    (withSign neg (m * 2 ^ (e - q).toNat) : ℝ) * (2 : ℝ) ^ q = withSign neg m * (2 : ℝ) ^ e := by
  have hpow : ((2 : ℝ) ^ (e - q).toNat) * (2 : ℝ) ^ q = (2 : ℝ) ^ e := by
    rw [← zpow_natCast, ← zpow_add₀ two_ne_zero]
    congr 1
    omega
  rw [withSign_mul, ← hpow]
  push_cast
  ring

/-! ## What rounding leaves as it is -/

/-- The exponent of the last place of `m * 2 ^ e` after rounding, as `roundPack` takes it. -/
def lastPlace (m : Nat) (e : Int) : Int := max (e + (Nat.log2 m : Int) - 52) (-1074)

/-- A significand of at most 53 bits within the exponent range is exact: moved up to its last place it is a finite pattern's. -/
theorem isFinitePair_of_lt {m : Nat} {e : Int} (hm0 : m ≠ 0) (hm : m < 2 ^ 53) (hlo : -1074 ≤ e) (hhi : e ≤ 971) :
    lastPlace m e ≤ e ∧ IsFinitePair (lastPlace m e + 1074).toNat (m * 2 ^ (e - lastPlace m e).toNat) := by
  have hlog : Nat.log2 m < 53 := (Nat.log2_lt hm0).mpr hm
  have hle : lastPlace m e ≤ e := by unfold lastPlace; omega
  have hupper : m * 2 ^ (e - lastPlace m e).toNat < 2 ^ 53 := calc
    m * 2 ^ (e - lastPlace m e).toNat
      ≤ m * 2 ^ (52 - Nat.log2 m) :=
        Nat.mul_le_mul_left m (Nat.pow_le_pow_right two_pos (by unfold lastPlace; omega))
    _ < 2 ^ (Nat.log2 m + 1) * 2 ^ (52 - Nat.log2 m) :=
        Nat.mul_lt_mul_of_pos_right Nat.lt_log2_self (by positivity)
    _ = 2 ^ 53 := by rw [← pow_add]; congr 1; omega
  have hnorm : (lastPlace m e + 1074).toNat = 0 ∨ 2 ^ 52 ≤ m * 2 ^ (e - lastPlace m e).toNat := by
    rcases eq_or_ne (lastPlace m e) (-1074) with hq | hq
    · exact .inl (by omega)
    · have hq' : (e - lastPlace m e).toNat = 52 - Nat.log2 m := by unfold lastPlace at hq ⊢; omega
      right
      calc 2 ^ 52 = 2 ^ Nat.log2 m * 2 ^ (52 - Nat.log2 m) := by rw [← pow_add]; congr 1; omega
        _ ≤ m * 2 ^ (e - lastPlace m e).toNat := by
          rw [hq']
          exact Nat.mul_le_mul_right _ (Nat.log2_self_le hm0)
  exact ⟨hle, by omega, hupper, hnorm⟩

theorem roundPack_eq_fpack {m : Nat} {e : Int} (neg : Bool) (hm0 : m ≠ 0) (hq : lastPlace m e ≤ e)
    (hfin : IsFinitePair (lastPlace m e + 1074).toNat (m * 2 ^ (e - lastPlace m e).toNat)) :
    roundPack neg m e
      = fpack neg ((lastPlace m e + 1074).toNat * 2 ^ 52 + m * 2 ^ (e - lastPlace m e).toNat) := by
  have hmag := hfin.magnitude_lt
  unfold lastPlace at hq hmag ⊢
  simp only [roundPack, if_neg hm0, if_pos hq, if_neg (Nat.not_le.mpr hmag)]

/-- `± m * 2 ^ e` with a significand of at most 53 bits and an exponent a finite pattern can have is not changed by rounding. -/
theorem roundPack_exact {m : Nat} {e : Int} (neg : Bool) (hm : m < 2 ^ 53) (hlo : -1074 ≤ e) (hhi : e ≤ 971) :
    isFinite (roundPack neg m e) = true ∧ fsign (roundPack neg m e) = neg
      ∧ realOf (roundPack neg m e) = withSign neg m * (2 : ℝ) ^ e := by
  rcases eq_or_ne m 0 with rfl | hm0
  · have hzero : IsFinitePair 0 0 := ⟨by omega, by omega, .inl rfl⟩
    have hround : roundPack neg 0 e = fpack neg (0 * 2 ^ 52 + 0) := rfl
    rw [hround, realOf, fsigned_eq_withSign, hzero.fsig_fpack]
    exact ⟨hzero.isFinite_fpack neg, hzero.fsign_fpack neg, by simp [withSign]⟩
  · obtain ⟨hq, hfin⟩ := isFinitePair_of_lt hm0 hm hlo hhi
    have hpow : (((lastPlace m e + 1074).toNat : Nat) : Int) - 1074 = lastPlace m e := by
      have : -1074 ≤ lastPlace m e := le_max_right _ _
      omega
    rw [roundPack_eq_fpack neg hm0 hq hfin]
    refine ⟨hfin.isFinite_fpack neg, hfin.fsign_fpack neg, ?_⟩
    rw [realOf, fsigned_eq_withSign, hfin.fsign_fpack, hfin.fsig_fpack, hfin.fpow_fpack, hpow,
      withSign_mul_zpow_of_le neg m hq]

/-! ## `i2f` -/

theorem i2f_exact {n : Int} (h : n.natAbs < 2 ^ 53) : isFinite (i2f n) = true ∧ realOf (i2f n) = n := by
  obtain ⟨hfin, -, hval⟩ := roundPack_exact (e := 0) (decide (n < 0)) h (by omega) (by omega)
  rw [i2f, if_pos h]
  exact ⟨hfin, by rw [hval, withSign_natAbs, zpow_zero, mul_one]⟩

/-! ## `fmod` -/

/-- The significand of `x` as a multiple of `2 ^ e`, for a power of two not above that of `x`. -/
def sigAt (x : F64) (e : Int) : Nat := fsig x * 2 ^ (fpow x - e).toNat

theorem sigAt_fpow (x : F64) : sigAt x (fpow x) = fsig x := by simp [sigAt]

theorem realOf_eq_sigAt (x : F64) {e : Int} (h : e ≤ fpow x) : realOf x = withSign (fsign x) (sigAt x e) * (2 : ℝ) ^ e :=
  (withSign_mul_zpow_of_le (fsign x) (fsig x) h).symm

theorem sigAt_pos {x : F64} (h : realOf x ≠ 0) (e : Int) : 0 < sigAt x e := by
  have hsig : fsig x ≠ 0 := by
    intro h0
    exact h (by simp [realOf, fsigned_eq_withSign, h0, withSign])
  have := Nat.pos_of_ne_zero hsig
  unfold sigAt
  positivity

theorem isZero_eq_false_of_realOf_ne_zero {x : F64} (h : realOf x ≠ 0) : isZero x = false := by
  have hsig : 0 < fsig x := by simpa [sigAt_fpow] using sigAt_pos h (fpow x)
  by_contra hz
  obtain ⟨hexp, hfrac⟩ : fexp x = 0 ∧ ffrac x = 0 := by simpa [isZero] using hz
  simp [fsig, hexp, hfrac] at hsig

/-- The lower power of two of two operands, on which `fmod` and addition bring both significands. -/
def commonPow (x y : F64) : Int := min (fpow x) (fpow y)

theorem commonPow_le_left (x y : F64) : commonPow x y ≤ fpow x := min_le_left _ _

theorem commonPow_le_right (x y : F64) : commonPow x y ≤ fpow y := min_le_right _ _

theorem neg_1074_le_commonPow (x y : F64) : -1074 ≤ commonPow x y :=
  le_min (neg_1074_le_fpow x) (neg_1074_le_fpow y)

theorem fmod_eq_roundPack {x y : F64} (hx : isFinite x = true) (hy : isFinite y = true) (hy0 : realOf y ≠ 0) :
    fmod x y = roundPack (fsign x)
      (sigAt x (commonPow x y) % sigAt y (commonPow x y)) (commonPow x y) := by
  simp [fmod, commonPow, sigAt, isNaN_eq_false_of_isFinite hx, isNaN_eq_false_of_isFinite hy, isInf_eq_false_of_isFinite hx,
    isInf_eq_false_of_isFinite hy, isZero_eq_false_of_realOf_ne_zero hy0]

/-- The remainder fits the significand: the operand with the lower power of two is not scaled up, and the remainder is at most a
dividend and less than a divisor of 53 bits. -/
theorem sigAt_mod_sigAt_lt {x y : F64} (hy0 : realOf y ≠ 0) :
    sigAt x (commonPow x y) % sigAt y (commonPow x y) < 2 ^ 53 := by
  rcases le_total (fpow x) (fpow y) with h | h
  · rw [commonPow, min_eq_left h, sigAt_fpow]
    exact (Nat.mod_le _ _).trans_lt (fsig_lt x)
  · rw [commonPow, min_eq_right h]
    exact (Nat.mod_lt _ (sigAt_pos hy0 _)).trans (sigAt_fpow y ▸ fsig_lt y)

theorem fmod_exact {x y : F64} (hx : isFinite x = true) (hy : isFinite y = true) (hy0 : realOf y ≠ 0) :
    isFinite (fmod x y) = true ∧ fsign (fmod x y) = fsign x
      ∧ |realOf (fmod x y)| < |realOf y|
      ∧ ∃ q : ℤ, realOf x = q * realOf y + realOf (fmod x y) := by
  obtain ⟨hfin, hsign, hval⟩ := roundPack_exact (fsign x) (sigAt_mod_sigAt_lt (x := x) hy0)
    (neg_1074_le_commonPow x y) ((commonPow_le_left x y).trans (fpow_le_of_isFinite hx))
  rw [← fmod_eq_roundPack hx hy hy0] at hfin hsign hval
  have hvalX := realOf_eq_sigAt x (commonPow_le_left x y)
  have hvalY := realOf_eq_sigAt y (commonPow_le_right x y)
  refine ⟨hfin, hsign, ?smaller, ?quotient⟩
  case smaller =>
    have hlt := Nat.mod_lt (sigAt x (commonPow x y)) (sigAt_pos hy0 (commonPow x y))
    rw [hval, hvalY, abs_withSign_mul_zpow, abs_withSign_mul_zpow]
    gcongr
  case quotient =>
    refine ⟨(withSign (fsign x) (sigAt x (commonPow x y))).tdiv (withSign (fsign y) (sigAt y (commonPow x y))), ?_⟩
    rw [hval, hvalX, hvalY, ← withSign_tmod (fsign x) (fsign y), ← mul_assoc, ← add_mul, ← Int.cast_mul, ← Int.cast_add,
      Int.tdiv_mul_add_tmod]

/-- Settles O55: `roundPack` changes no value of at most 53 significant bits, and neither the converted integer nor the remainder has
more. -/
theorem exactConversionAndRemainder : Obligations.ExactConversionAndRemainder :=
  ⟨fun _ h => i2f_exact h, fun _ _ hx hy hy0 => fmod_exact hx hy hy0⟩

end Sys2Proof.Machine
end

section
/-! SUPPORT. Which commands may write which state (10_state.md R33 to R44), and the latch of the watchdog's alarm (40_frame_sync.md R106;
10_state.md R30; 60_exceptions.md R321). -/

namespace Sys2Proof.Machine

/-! ## The writers of each register (10_state.md R33 to R44) -/

/-- From `s` to `t` the command `op` changed only registers and channels it is a writer of. The streams are `StreamsKept`'s. -/
structure RespectsWriters (op : Op) (s t : State) : Prop where
  sync    : op ∉ [.sym, .reset, .setsat] → t.sync = s.sync
  sat_prn : op ∉ [.setsat] → t.sat_prn = s.sat_prn
  hist    : op ∉ [.sym, .setsat] → t.hist = s.hist
  symbuf  : op ∉ [.sbw, .deint, .polcor, .cdec, .sym] → t.symbuf = s.symbuf
  frame   : op ∉ [.vit, .cdec, .fbw, .sym] → t.frame = s.frame
  acc     : op ∉ [.rdu, .rds, .rdc, .rdb, .sfdec, .cdec, .sym] → t.acc = s.acc
  asm     : op ∉ [.sfdec, .cdec, .sym, .setsat] → t.asm = s.asm
  groups  : op ∉ [.sfdec, .cdec, .sym, .wrp, .setsat] → t.eph = s.eph ∧ t.utc = s.utc ∧ t.iono = s.iono ∧ t.eop = s.eop
  derived : op ∉ [.satpos, .clkdrift, .setsat] → t.derived = s.derived
  outTrk  : op ∉ [.sym] → t.out = s.out ∧ t.trk = s.trk
  tlm     : op ∉ [.sfdec, .cdec, .sym] → t.tlm = s.tlm

namespace RespectsWriters

theorem refl (op : Op) (s : State) : RespectsWriters op s s :=
  ⟨fun _ => rfl, fun _ => rfl, fun _ => rfl, fun _ => rfl, fun _ => rfl, fun _ => rfl, fun _ => rfl,
    fun _ => ⟨rfl, rfl, rfl, rfl⟩, fun _ => rfl, fun _ => ⟨rfl, rfl⟩, fun _ => rfl⟩

/-! One rule per register that is all some command writes. -/

section
variable {op : Op} {s : State}

theorem of_symbuf (h : op ∈ [.sbw, .deint, .polcor, .cdec, .sym]) (v : List Int) :
    RespectsWriters op s { s with symbuf := v } :=
  { refl op s with symbuf := absurd h }

theorem of_frame (h : op ∈ [.vit, .cdec, .fbw, .sym]) (v : List Bool) : RespectsWriters op s { s with frame := v } :=
  { refl op s with frame := absurd h }

theorem of_acc (h : op ∈ [.rdu, .rds, .rdc, .rdb, .sfdec, .cdec, .sym]) (v : BitVec 64) :
    RespectsWriters op s { s with acc := v } :=
  { refl op s with acc := absurd h }

theorem of_derived (h : op ∈ [.satpos, .clkdrift, .setsat]) (v : Derived) : RespectsWriters op s { s with derived := v } :=
  { refl op s with derived := absurd h }

end

/-! One rule per command whose writes no other command shares. -/

theorem of_reset (s : State) : RespectsWriters .reset s { s with sync := .reset } :=
  { refl .reset s with sync := absurd (by decide) }

theorem of_setsat (s : State) (prn : BitVec 32) :
    RespectsWriters .setsat s
      { s with
          sync := .reset, sat_prn := prn, hist := [], asm := .reset
          eph := .reset, derived := .reset, utc := .reset, iono := .reset, eop := .reset } :=
  { refl .setsat s with
    sync := absurd (by decide), sat_prn := absurd (by decide), hist := absurd (by decide), asm := absurd (by decide)
    groups := absurd (by decide), derived := absurd (by decide) }

theorem of_sfdec (s : State) : RespectsWriters .sfdec s (sfdec s).2 := by
  rw [(sfdec_frame s).frame_eq]
  exact { refl .sfdec s with
    acc := absurd (by decide), asm := absurd (by decide), groups := absurd (by decide), tlm := absurd (by decide) }

theorem of_cdec (s : State) : RespectsWriters .cdec s (cdec s).2 := by
  rw [(cdec_frame s).frame_eq]
  exact { refl .cdec s with
    symbuf := absurd (by decide), frame := absurd (by decide), acc := absurd (by decide), asm := absurd (by decide)
    groups := absurd (by decide), tlm := absurd (by decide) }

/-- SYM is a writer of everything but the satellite number and the derived outputs. -/
theorem of_sym (r : Symbol) (s : State) : RespectsWriters .sym s (symNext r s) where
  sync := absurd (by decide)
  sat_prn _ := symNext_sat_prn r s
  hist := absurd (by decide)
  symbuf := absurd (by decide)
  frame := absurd (by decide)
  acc := absurd (by decide)
  asm := absurd (by decide)
  groups := absurd (by decide)
  derived _ := symNext_derived r s
  outTrk := absurd (by decide)
  tlm := absurd (by decide)

theorem of_wrp (s : State) (r : ParamReg) (v : BitVec 64) : RespectsWriters .wrp s (writeParam s r v) := by
  rw [writeParam_frame]
  exact { refl .wrp s with groups := absurd (by decide) }

section
variable {op : Op} {s t u : State}

/-- The response of a command is no register's write. -/
theorem deliver (h : RespectsWriters op s u) (p : Packet) : RespectsWriters op s (u.deliver p) := { h with }

/-- A command that writes `u` and responds. -/
theorem of_completes {p : Packet} (hu : RespectsWriters op s u) (h : completes (u.deliver p) = .next t) :
    RespectsWriters op s t := by
  injection h with h
  exact h ▸ hu.deliver p

/-- A command that checks its operands: in one case it writes `u` and responds, in the other it writes `v` and responds; the one
that raises BAD_OPERAND writes `s` itself. -/
theorem of_ite {c : Prop} [Decidable c] {v : State} {p q : Packet} (hu : RespectsWriters op s u) (hv : RespectsWriters op s v)
    (h : (if c then completes (u.deliver p) else completes (v.deliver q)) = .next t) : RespectsWriters op s t := by
  split at h
  · exact hu.of_completes h
  · exact hv.of_completes h

end

/-- Every command, whatever its operands, changes only what it is a writer of. -/
theorem of_exec {i : Instr} {s t : State} (h : exec i s = .next t) : RespectsWriters i.op s t := by
  cases i with
  | nop => exact (refl _ s).of_completes h
  | reset => exact (of_reset s).of_completes h
  | setsat prn => exact (of_setsat s _).of_completes h
  | sym r =>
    injection h with h
    exact h ▸ of_sym r s
  | sbw index value => exact (refl _ s).of_ite (of_symbuf (op := .sbw) (by decide) _) h
  | sbr index => exact (refl _ s).of_ite (refl _ s) h
  | deint => exact (of_symbuf (by decide) _).of_completes h
  | polcor => exact (of_symbuf (by decide) _).of_completes h
  | vit => exact (of_frame (by decide) _).of_completes h
  | cdec => exact (of_cdec s).of_completes h
  | fbw position bit => exact (refl _ s).of_ite (of_frame (op := .fbw) (by decide) _) h
  | rdu start length => exact (of_acc (op := .rdu) (by decide) _).of_ite (refl _ s) h
  | rds start length => exact (of_acc (op := .rds) (by decide) _).of_ite (refl _ s) h
  | rdc start length => exact (of_acc (op := .rdc) (by decide) _).of_ite (refl _ s) h
  | rdb start => exact (refl _ s).of_ite (of_acc (op := .rdb) (by decide) _) h
  | sfdec => exact (of_sfdec s).of_completes h
  | chkt t => exact (refl _ s).of_completes h
  | clkrel t => exact (refl _ s).of_completes h
  | clkdrift t => exact (of_derived (op := .clkdrift) (by decide) _).of_completes h
  | satpos t => exact (of_derived (op := .satpos) (by decide) _).of_completes h
  | utctime t week => exact (refl _ s).of_completes h
  | rdst index =>
    simp only [exec, execRdst] at h
    split at h <;> exact (refl _ s).of_completes h
  | wrp index value =>
    simp only [exec, execWrp] at h
    split at h
    · exact (refl _ s).of_completes h
    · exact (of_wrp s _ value).of_completes h

end RespectsWriters

/-- No command changes the pending packets, the active port, the arbiter's counter or the parameters. -/
theorem exec_keeps_queues {i : Instr} {s t : State} (h : exec i s = .next t) :
    t.portA = s.portA ∧ t.portB = s.portB ∧ t.params = s.params ∧ t.active = s.active ∧ t.electionCount = s.electionCount := by
  obtain ⟨u, st, w, he, hk, -, -⟩ := exec_delivers i s
  injection he.symm.trans h with ht
  subst ht
  exact ⟨hk.portA, hk.portB, hk.params, hk.active, hk.count⟩

/-- Settles O8: command by command for the registers and channels, and for the streams by what `exec_delivers` says of every command. -/
theorem writersOfEachRegister : Obligations.WritersOfEachRegister := by
  intro i s t h
  have hw := RespectsWriters.of_exec h
  exact ⟨hw.sync, hw.sat_prn, hw.hist, hw.symbuf, hw.frame, hw.acc, hw.asm, hw.groups, hw.derived, hw.outTrk, hw.tlm,
    exec_keeps_queues h⟩

/-! ## The latch of the alarm (10_state.md R30; 40_frame_sync.md R106; 60_exceptions.md R321) -/

/-- RESET and SETSAT clear the synchronizer (R125, R127). -/
theorem exec_sync_of_clears {i : Instr} {s t : State} (h : exec i s = .next t) (hi : i.op ∈ [.reset, .setsat]) :
    t.sync = .reset := by
  cases i with
  | reset | setsat _ =>
    injection h with h
    exact h ▸ rfl
  | _ => simp [Instr.op] at hi

theorem eq_sym_of_op_eq_sym {i : Instr} (h : i.op = .sym) : ∃ r, i = .sym r := by
  cases i with
  | sym r => exact ⟨r, rfl⟩
  | _ => cases h

/-- The alarm after a SYM: latched by the watchdog of this cycle, else as before (R106). -/
theorem symNext_alarm_sent (r : Symbol) (s : State) :
    (symNext r s).sync.alarm_sent = if alarms s then true else s.sync.alarm_sent := by
  rw [symNext_sync, towSync_alarm_sent, afterStepFive_sync, (nextSync_counter _ _ _ _).2, atStepFive_eq]

/-- The watchdog does not fire while the alarm is latched. -/
theorem alarms_eq_false {s : State} (h : s.sync.alarm_sent = true) : alarms s = false := by simp [alarms, h]

/-- Settles O17: SYM is the one command besides the two that writes the latch or TRK, and its watchdog does neither while the alarm
is latched. -/
theorem alarmStaysLatched : Obligations.AlarmStaysLatched := by
  intro i s t h
  refine ⟨fun hi => by rw [exec_sync_of_clears h hi]; rfl, fun hi hs => ?_⟩
  by_cases hsym : i.op = .sym
  case neg =>
    have hw := RespectsWriters.of_exec h
    have hsync : t.sync = s.sync := hw.sync (by simpa [hsym] using hi)
    exact ⟨hsync ▸ hs, (hw.outTrk (by simpa using hsym)).2⟩
  case pos =>
    obtain ⟨r, rfl⟩ := eq_sym_of_op_eq_sym hsym
    injection (exec_sym r s).symm.trans h with ht
    subst ht
    rw [symNext_alarm_sent, symNext_trk, alarms_eq_false hs]
    exact ⟨hs, rfl⟩

end Sys2Proof.Machine
end

section
/-! SUPPORT. One step of the CORE: the decoded command runs in the state the fetch leaves, and every packet taken, whether it decodes
or not, gets one response on its own port (20_memory.md R60, R61, R63; 30_encoding.md R76, R78; 60_exceptions.md R311, R336). -/

namespace Sys2Proof.Machine

/-! ## A command's own packet (30_encoding.md R76) -/

/-- The packet of a command passes every check of the decoder. -/
@[simp] theorem decode_encode (i : Instr) : decode (encode i) = .ok i := by
  have ha : ¬ (i.op.format.usesA = false ∧ i.encA ≠ 0) := fun ⟨hu, hne⟩ => hne (encA_of_unused i hu)
  have hb : ¬ (i.op.format.usesB = false ∧ i.encB ≠ 0) := fun ⟨hu, hne⟩ => hne (encB_of_unused i hu)
  simp only [decode, encode, opcodeField_headerOf, fieldA_headerOf, fieldB_headerOf, Op.ofCode_code, encode_op_length,
    ne_eq, not_true_eq_false, if_false]
  rw [if_neg ha, if_neg hb, instrOf_encoded]

/-! ## The step, by what the fetch takes (20_memory.md R60, R61) -/

theorem fetch_portA {s : State} {p : Packet} {rest : List Packet} (ha : s.portA = p :: rest) (hb : s.portB = []) :
    fetch s = some (p, { s with portA := rest, active := .A }) := by
  simp only [fetch, ha, hb]

section
variable {s s' : State} {p : Packet}

theorem step_of_idle (hf : fetch s = none) : step s = .next s := by
  simp only [step, hf]

theorem step_of_decode_ok {i : Instr} (hf : fetch s = some (p, s')) (hd : decode p = .ok i) : step s = exec i s' := by
  simp only [step, hf, hd]

theorem step_of_decode_error {e : CmdError} (hf : fetch s = some (p, s')) (hd : decode p = .error e) :
    step s = .next (s'.raise (opcodeField p.header) e) := by
  simp only [step, hf, hd]

/-- A step that takes a packet delivers one response and keeps the streams of the state the fetch leaves, also when the packet
decodes to no command. -/
theorem step_delivers (hf : fetch s = some (p, s')) : ∃ u r, step s = .next (State.deliver u r) ∧ StreamsKept s' u := by
  cases hd : decode p with
  | error e => exact ⟨s', _, step_of_decode_error hf hd, .refl s'⟩
  | ok i =>
    obtain ⟨u, st, w, he, hk, -, -⟩ := exec_delivers i s'
    exact ⟨u, _, (step_of_decode_ok hf hd).trans he, hk⟩

end

/-- Settles O5: the first part is the step's own equation, the second that of a fetch from port A alone. -/
theorem stepRunsDecodedCommand : Obligations.StepRunsDecodedCommand :=
  ⟨fun _ _ _ _ hf hd => step_of_decode_ok hf hd, fun _ i hb => step_of_decode_ok (fetch_portA rfl hb) (decode_encode i)⟩

/-! ## The response goes to the port the packet came from (20_memory.md R63) -/

section
variable {u : State}

theorem State.deliver_on_A (h : u.active = .A) (r : Packet) :
    (u.deliver r).respA = u.respA ++ [r] ∧ (u.deliver r).respB = u.respB := by
  simpa [h] using u.deliver_cases r

theorem State.deliver_on_B (h : u.active = .B) (r : Packet) :
    (u.deliver r).respB = u.respB ++ [r] ∧ (u.deliver r).respA = u.respA := by
  simpa [h] using u.deliver_cases r

end

/-- Settles O6: by the three cases of the fetch; the one response is delivered to the port the fetch made active. -/
theorem stepTakesOneCommandAndAnswersIt : Obligations.StepTakesOneCommandAndAnswersIt := by
  intro s
  obtain ⟨ha, hb, hf⟩ | ⟨p, rest, n, ha, hf⟩ | ⟨p, rest, n, hb, hf⟩ := fetch_cases s
  case inl => exact ⟨s, step_of_idle hf, .inl ⟨ha, hb, rfl⟩⟩
  case inr.inl =>
    obtain ⟨u, r, hstep, hk⟩ := step_delivers hf
    obtain ⟨hA, hB⟩ := State.deliver_on_A hk.active r
    refine ⟨_, hstep, .inr (.inl ⟨p, r, ?_, ?_, ?_, ?_⟩)⟩
    · rw [ha, State.deliver_portA, hk.portA]
    · rw [hA, hk.respA]
    · rw [State.deliver_portB, hk.portB]
    · rw [hB, hk.respB]
  case inr.inr =>
    obtain ⟨u, r, hstep, hk⟩ := step_delivers hf
    obtain ⟨hB, hA⟩ := State.deliver_on_B hk.active r
    refine ⟨_, hstep, .inr (.inr ⟨p, r, ?_, ?_, ?_, ?_⟩)⟩
    · rw [hb, State.deliver_portB, hk.portB]
    · rw [hB, hk.respB]
    · rw [State.deliver_portA, hk.portA]
    · rw [hA, hk.respA]

end Sys2Proof.Machine
end

section
/-! SUPPORT. The encoding both ways (30_encoding.md R71 to R77), the form of a command's one response (R78 to R80), and what SYM reads
of its Symbol (R74; 40_frame_sync.md R103, R121). -/

namespace Sys2Proof.Machine

/-! ## Decoding and encoding (30_encoding.md R71 to R77) -/

/-- Settles O2: the decoder's checks pass on a command's own packet, and the operands it reads there are the command's. -/
theorem decodeOfEncode : Obligations.DecodeOfEncode := decode_encode

section
variable (o : Op) (a : BitVec 16) (b : BitVec 8) (ws : List Word)

/-- A command made of header fields carries field `A` again, when the field is 0 wherever the format does not use it. -/
theorem encA_instrOf (h : o.format.usesA = false → a = 0) : (instrOf o a b ws).encA = a := by
  cases o with
  | setsat | sbw | sbr | fbw | rdu | rds | rdc | rdb | rdst | wrp => rfl
  | nop | reset | sym | deint | polcor | vit | cdec | sfdec | chkt | clkrel | clkdrift | satpos | utctime => exact (h rfl).symm

/-- A command made of header fields carries field `B` again, when the field is 0 wherever the format does not use it. -/
theorem encB_instrOf (h : o.format.usesB = false → b = 0) : (instrOf o a b ws).encB = b := by
  cases o with
  | sbw | fbw | rdu | rds | rdc => rfl
  | nop | reset | setsat | sym | sbr | deint | polcor | vit | cdec | rdb | sfdec | chkt | clkrel | clkdrift | satpos | utctime
  | rdst | wrp => exact (h rfl).symm

end

/-- The packet of a command made of a packet's parts is that packet, when it passes the decoder's checks. -/
theorem encode_instrOf {p : Packet} {o : Op} (ho : Op.ofCode (opcodeField p.header) = some o)
    (hl : p.payload.length = o.format.payloadWords) (ha : o.format.usesA = false → fieldA p.header = 0)
    (hb : o.format.usesB = false → fieldB p.header = 0) :
    encode (instrOf o (fieldA p.header) (fieldB p.header) p.payload) = p := by
  simp only [encode, instrOf_op, Op.code_of_ofCode ho, encA_instrOf _ _ _ _ ha, encB_instrOf _ _ _ _ hb,
    encPayload_instrOf _ _ _ _ hl, headerOf_fields]

/-- Settles O3: a packet that decodes passed the decoder's checks, so that opcode, fields and payload are the command's own. -/
theorem encodeOfDecode : Obligations.EncodeOfDecode := by
  intro p i h
  obtain ⟨o, ho, hl, ha, hb, rfl⟩ := decode_ok h
  exact encode_instrOf ho hl ha hb

/-- Settles O1: the decoder run on each of the sixteen packets. -/
theorem specWordsDecode : Obligations.SpecWordsDecode := by
  unfold Obligations.SpecWordsDecode
  decide

/-! ## The response of a command (30_encoding.md R78 to R80; 60_exceptions.md R313) -/

theorem StreamsKept.responses {s u : State} (h : StreamsKept s u) (port : Port) : u.responses port = s.responses port := by
  cases port with
  | A => exact h.respA
  | B => exact h.respB

theorem okPayloadWords_le (i : Instr) : okPayloadWords i ≤ 2 := by
  unfold okPayloadWords
  split <;> omega

/-- The response every command delivers, by whether its operands are in range: status and payload count. -/
theorem exec_response (i : Instr) (s : State) :
    ∃ u st w, exec i s = .next (State.deliver u (responsePacket i.op.code st w)) ∧ StreamsKept s u
      ∧ st.code.toNat = (if i.wf then 0 else 4) ∧ w.length = (if i.wf then okPayloadWords i else 0) := by
  obtain ⟨u, st, w, he, hk, hok, hbad⟩ := exec_delivers i s
  refine ⟨u, st, w, he, hk, ?_⟩
  cases hwf : i.wf with
  | true =>
    obtain ⟨rfl, hl⟩ := hok hwf
    exact ⟨rfl, hl⟩
  | false =>
    obtain ⟨rfl, rfl, -⟩ := hbad hwf
    exact ⟨rfl, rfl⟩

/-- A payload the header's 8 bits can count is counted in full. -/
theorem toNat_countField {w : List Word} (h : w.length < 2 ^ 8) (op : BitVec 8) (st : Status) :
    (countField (responsePacket op st w)).toNat = w.length := by
  rw [countField_responsePacket, BitVec.toNat_ofNat, Nat.mod_eq_of_lt h]

/-- Settles O7: every command delivers one response packet, on the active port, whose header fields are read off one by one. -/
theorem everyCommandGetsOneResponse : Obligations.EveryCommandGetsOneResponse := by
  intro i s
  obtain ⟨u, st, w, he, hk, hst, hl⟩ := exec_response i s
  have hlt : w.length < 2 ^ 8 := by
    have hle := okPayloadWords_le i
    split at hl <;> omega
  refine ⟨_, responsePacket i.op.code st w, he, ?_, ?_, opcodeField_responsePacket _ _ _, ?_, reservedField_responsePacket _ _ _,
    toNat_countField hlt _ _, hl⟩
  · rw [← hk.active, State.deliver_responses_active, hk.responses]
  · rw [← hk.active, State.deliver_responses_other, hk.responses]
  · rw [statusField_responsePacket, hst]

/-! ## What SYM reads of its Symbol (30_encoding.md R74; 40_frame_sync.md R103, R121) -/

section
variable {r r' : Symbol}

theorem signOf_eq_of_neg_iff {p p' : BitVec 32} (h : p.toInt < 0 ↔ p'.toInt < 0) : signOf p = signOf p' := by
  simp only [signOf_eq, signOfInt, h]

/-- Steps 1 to 4 read the sign alone: it is all that `acceptSymbol` takes from the Symbol. -/
theorem atStepFive_congr (h : signOf r.prompt_I = signOf r'.prompt_I) (s : State) : atStepFive r s = atStepFive r' s := by
  simp only [atStepFive, acceptSymbol, h]

theorem afterStepFive_congr (h : signOf r.prompt_I = signOf r'.prompt_I) (s : State) : afterStepFive r s = afterStepFive r' s := by
  rw [afterStepFive, afterStepFive, atStepFive_congr h]

/-- What a cycle reports is made by steps 1 to 6, so it too reads the sign alone. -/
theorem symCycle_fst_congr (h : signOf r.prompt_I = signOf r'.prompt_I) (s : State) : (symCycle r s).1 = (symCycle r' s).1 := by
  simp only [symCycle_eq, afterStepFive_congr h, atStepFive_congr h]

/-- Two Symbols of the same sign: only step 7 tells them apart, and it writes OUT alone. -/
theorem symNext_congr (h : signOf r.prompt_I = signOf r'.prompt_I) (s : State) :
    { symNext r' s with out := (symNext r s).out } = symNext r s := by
  simp only [symNext, symCycle_fst_congr h]
  rw [symCycle_eq, symCycle_eq, afterStepFive_congr h]
  rfl

end

theorem outputRecord_ignores (y : SyncRegs) (r : Symbol) (tow flags : BitVec 32) :
    outputRecord y { r with tow_ms := tow, flags := flags } = outputRecord y r := rfl

/-- The sign is that of `prompt_I`, and the output record has a time and flags of its own. -/
theorem symNext_ignores (r : Symbol) (tow flags : BitVec 32) (s : State) :
    symNext { r with tow_ms := tow, flags := flags } s = symNext r s := by
  have hrest := symNext_congr (r := r) (r' := { r with tow_ms := tow, flags := flags }) rfl s
  have hsync : (symNext { r with tow_ms := tow, flags := flags } s).sync = (symNext r s).sync := congrArg State.sync hrest
  have hout : (symNext { r with tow_ms := tow, flags := flags } s).out = (symNext r s).out := by
    rw [symNext_out, symNext_out, hsync, outputRecord_ignores]
  rwa [← hout] at hrest

/-- Settles O27: the sign is all that steps 1 to 6 read, and step 7 overwrites `tow_ms` and `flags` in the record it emits. -/
theorem symReadsOnlyTheSign : Obligations.SymReadsOnlyTheSign :=
  ⟨fun r r' s h => ⟨symNext r s, symNext r' s, exec_sym r s, exec_sym r' s, symNext_congr (signOf_eq_of_neg_iff h) s⟩,
    fun r tow flags s => ⟨symNext r s, (exec_sym _ s).trans (congrArg _ (symNext_ignores r tow flags s)), exec_sym r s⟩⟩

end Sys2Proof.Machine
end

section
/-! SUPPORT. NOP, RESET and SETSAT (40_frame_sync.md R125 to R128), and what one Symbol does whatever the synchronizer's state: history,
count and watchdog (R103, R104, R106), the correlator and the decode window (R107 to R110), the response word (R122; 30_encoding.md
R80). -/

namespace Sys2Proof.Machine

/-! ## NOP, RESET, SETSAT (40_frame_sync.md R125 to R128) -/

/-- Settles O12: the command's meaning is that response. -/
theorem nopOnlyResponds : Obligations.NopOnlyResponds := fun _ => rfl

/-- Settles O13: the reset values of the twelve registers, written out. -/
theorem resetClearsDecoderState : Obligations.ResetClearsDecoderState := fun _ => rfl

/-- Settles O14: both sides agree register by register. -/
theorem setsatRestoresPowerOnState : Obligations.SetsatRestoresPowerOnState := fun _ _ => rfl

/-! ## History, count and watchdog (40_frame_sync.md R103, R104, R106) -/

theorem symNext_sample_counter (r : Symbol) (s : State) : (symNext r s).sync.sample_counter = s.sync.sample_counter + 1 := by
  rw [symNext_sync, towSync_sample_counter, afterStepFive_sync, (nextSync_counter _ _ _ _).1, atStepFive_eq]

/-- Settles O15: steps 1 and 2 of the cycle, which no later step takes back. -/
theorem symPushesSignAndCounts : Obligations.SymPushesSignAndCounts := fun r s =>
  ⟨symNext r s, exec_sym r s, symNext_hist r s, symNext_sample_counter r s, symNext_sat_prn r s, symNext_derived r s,
    symNext_params r s⟩

theorem alarms_iff (s : State) :
    alarms s = true ↔
      s.sync.alarm_sent = false ∧ 12000 < (s.sync.sample_counter + 1 - s.sync.last_valid_preamble).toNat := by
  simp [alarms]

/-- Settles O16: TRK and the latch change exactly when this cycle's watchdog fires, and it fires exactly on R106's condition. -/
theorem watchdogFiresOnce : Obligations.WatchdogFiresOnce := by
  intro r s
  refine ⟨symNext r s, exec_sym r s, ?_⟩
  rw [symNext_trk, symNext_alarm_sent]
  split
  · next h => simp [(alarms_iff s).mpr h]
  · next h => simp [mt (alarms_iff s).mp h]

/-! ## The correlator (40_frame_sync.md R107, R108) -/

/-- Settles O19: the correlation is a sum of sixteen agreements and disagreements, and the hit test asks for one of its bounds. -/
theorem correlationMeansFullAgreement : Obligations.CorrelationMeansFullAgreement := by
  intro h hl
  obtain ⟨hlow, hhigh, heven, hagree, hdisagree⟩ := correlation_spec h hl
  exact ⟨⟨hlow, hhigh, heven⟩, hagree, hdisagree, by simp [preambleHit_eq, hl]⟩

/-! ## The decode window (40_frame_sync.md R109, R110) -/

theorem window_getElem? {h : List Sign} {j : Nat} (hj : j < 584) : (window h)[j]? = h[h.length - 600 + j]? := by
  rw [window, List.getElem?_take_of_lt (show j < FRAME_SYMBOLS from hj), List.getElem?_drop]
  rfl

/-- A sign as a soft symbol: -1 when exactly one of the sign and the stream's polarity is negative. -/
theorem softSymbol_eq (inv : Bool) (x : Sign) :
    (if inv then -signValue x else signValue x) = if (x = .minus) = (inv = true) then 1 else -1 := by
  cases inv <;> cases x <;> simp [signValue]

theorem symAt_windowSymbols {inv : Bool} {h : List Sign} {j : Nat} {x : Sign} (hj : j < 584)
    (hx : h[h.length - 600 + j]? = some x) :
    symAt (windowSymbols inv h) j = if inv then -signValue x else signValue x := by
  simp [symAt, windowSymbols, window_getElem? hj, hx]

/-- Settles O25: the window's entry `j` is the history's entry `hist_len - 600 + j`. -/
theorem decodeWindowIsTheSubframeBeforeThePreamble : Obligations.DecodeWindowIsTheSubframeBeforeThePreamble := by
  intro inv h hl
  refine ⟨windowSymbols_length inv h hl, fun j hj => ?_⟩
  have hx := List.getElem?_eq_getElem (l := h) (i := h.length - 600 + j) (by omega)
  rw [symAt_windowSymbols hj hx, hx, softSymbol_eq]
  simp only [Option.some.injEq]

/-! ## The response word (40_frame_sync.md R122; 30_encoding.md R80) -/

/-- The fields of the response word, for each of the finitely many reports, states and flags. -/
theorem symStatusWord_fields (r : SymReport) (stat : SyncStat) (flagPreamble : Bool) :
    (symStatusWord r stat flagPreamble).getLsbD 0 = r.emitted
    ∧ (symStatusWord r stat flagPreamble).extractLsb' 1 2 = BitVec.ofNat 2 (statCode stat)
    ∧ (symStatusWord r stat flagPreamble).getLsbD 3 = flagPreamble
    ∧ (symStatusWord r stat flagPreamble).getLsbD 4 = r.alarm
    ∧ (symStatusWord r stat flagPreamble).getLsbD 5 = r.attempt.isSome
    ∧ (symStatusWord r stat flagPreamble).extractLsb' 6 3 = BitVec.ofNat 3 (r.attempt.elim 0 Fin.val)
    ∧ (symStatusWord r stat flagPreamble).extractLsb' 9 23 = 0 := by
  obtain ⟨emitted, alarm, attempt⟩ := r
  cases stat <;> revert emitted alarm attempt flagPreamble <;> decide

/-- The header of SYM's response: opcode 0x03, status OK, one payload word (R78). -/
theorem responseHeader_sym : responseHeader 0x03 .ok 1 = 0x03000001 := by decide

/-- What a cycle reports beside the registers. -/
def symReport (r : Symbol) (s : State) : SymReport where
  emitted := (symNext r s).sync.tow_known
  alarm   := alarms s
  attempt := (attemptOf s r).map fun inv => windowIdentifier s inv (historyAfter s r)

theorem symCycle_fst (r : Symbol) (s : State) : (symCycle r s).1 = symReport r s := by
  rw [symReport, symNext_sync, symCycle_eq, dispatchStat_fst]
  simp

/-- The one response of SYM, on the port that issued it. -/
theorem symNext_responses (r : Symbol) (s : State) :
    (symNext r s).responses s.active =
      s.responses s.active
        ++ [⟨0x03000001, [symStatusWord (symReport r s) (symNext r s).sync.stat (symNext r s).sync.flag_preamble]⟩] := by
  have hk := symCycle_streams r s
  rw [symNext, ← symCycle_fst, ← hk.active, State.respond_responses_active, hk.responses, responsePacket, List.length_singleton,
    responseHeader_sym]
  rfl

theorem symNext_trk_length (r : Symbol) (s : State) :
    decide ((symNext r s).trk.length = s.trk.length + 1) = alarms s := by
  rw [symNext_trk]
  cases alarms s <;> simp

/-- Settles O26: field by field, from what the cycle reports and the registers it leaves. -/
theorem symResponseWord : Obligations.SymResponseWord := by
  intro r s
  obtain ⟨hemitted, hstat, hflag, halarm, hattempt, hid, hzero⟩ :=
    symStatusWord_fields (symReport r s) (symNext r s).sync.stat (symNext r s).sync.flag_preamble
  refine ⟨symNext r s, _, exec_sym r s, symNext_responses r s, hemitted, hstat.trans ?_, hflag, halarm.trans ?_, hattempt.trans ?_,
    hid.trans ?_, hzero⟩
  · cases (symNext r s).sync.stat <;> rfl
  · rw [symReport, symNext_trk_length]
  · rw [symReport, Option.isSome_map]
  · rw [symReport]
    cases attemptOf s r <;> rfl

end Sys2Proof.Machine
end

section
/-! SUPPORT. One cycle of the synchronizer by the value of `stat` it starts in (40_frame_sync.md R112 to R118), and the time of week
after it (R119, R120). -/

namespace Sys2Proof.Machine

/-! ## The synchronizer through a cycle -/

/-- The synchronizer at step 5: the symbol counted, `flag_preamble` 0, the alarm latched if the watchdog fired. -/
def acceptedSync (s : State) : SyncRegs :=
  { s.sync with
    sample_counter := s.sync.sample_counter + 1, flag_preamble := false
    alarm_sent := if alarms s then true else s.sync.alarm_sent }

theorem atStepFive_sync (r : Symbol) (s : State) : (atStepFive r s).sync = acceptedSync s := by
  rw [atStepFive_eq, acceptedSync]

/-- This cycle's attempt ran and found an identifier in 1..4 (R111). -/
def attemptSucceeds (r : Symbol) (s : State) : Bool :=
  (attemptOf s r).any fun inv => decide (windowIdentifier s inv (historyAfter s r) ≠ 0)

/-- The synchronizer after step 5. -/
def dispatchedSync (r : Symbol) (s : State) : SyncRegs :=
  nextSync (acceptedSync s) (preambleHit (historyAfter s r)) (historyAfter s r).length (attemptSucceeds r s)

theorem afterStepFive_dispatchedSync (r : Symbol) (s : State) : (afterStepFive r s).sync = dispatchedSync r s := by
  rw [afterStepFive_sync, atStepFive_sync, dispatchedSync, attemptSucceeds]
  cases attemptOf s r <;> rfl

theorem symNext_towSync (r : Symbol) (s : State) :
    (symNext r s).sync = towSync s.params.SYMBOL_PERIOD_MS (symNext r s).asm.tow_report (dispatchedSync r s) := by
  rw [symNext_sync, symNext_asm, afterStepFive_dispatchedSync]

/-- The ordinary advance of the time of week (R120): one symbol period, while it is known. -/
def advanceTow (period : BitVec 32) (y : SyncRegs) : SyncRegs :=
  { y with tow_current_ms := if y.tow_known then y.tow_current_ms + period else y.tow_current_ms }

theorem towSync_of_not_valid (period report : BitVec 32) {y : SyncRegs} (h : y.flag_preamble = false) :
    towSync period report y = advanceTow period y := by
  unfold towSync advanceTow
  rw [if_neg (by simp [h])]
  split <;> rfl

/-- Step 6 on a cycle with a valid preamble (R119). -/
theorem towSync_of_valid (period report : BitVec 32) {y : SyncRegs} (h : y.flag_preamble = true) :
    towSync period report y =
      if report = 0 then y
      else { y with tow_current_ms := towMs report, tow_preamble_ms := towMs report, tow_known := true } := by
  rw [towSync, if_pos h, ite_not]

section
variable {r : Symbol} {s : State}

/-- A cycle without a valid preamble: step 6 is the ordinary advance. -/
theorem symNext_sync_of_not_valid {y : SyncRegs} (hy : dispatchedSync r s = y) (hf : y.flag_preamble = false) :
    (symNext r s).sync = advanceTow s.params.SYMBOL_PERIOD_MS y := by
  rw [symNext_towSync, hy, towSync_of_not_valid _ _ hf]

/-- A cycle in which step 5 does nothing. -/
theorem symNext_sync_of_quiet (hy : dispatchedSync r s = acceptedSync s) :
    (symNext r s).sync = advanceTow s.params.SYMBOL_PERIOD_MS (acceptedSync s) :=
  symNext_sync_of_not_valid hy rfl

end

/-! ## Step 5 by the value of `stat` (40_frame_sync.md R110 to R118)

`h` is the history of the cycle: a variable, so that its length is not computed. -/

section
variable {r : Symbol} {s : State} {h : List Sign} {inv : Bool} (hist : historyAfter s r = h)
include hist

theorem dispatchedSync_eq : dispatchedSync r s = nextSync (acceptedSync s) (preambleHit h) h.length (attemptSucceeds r s) := by
  rw [dispatchedSync, hist]

theorem attemptOf_of_short (hl : h.length < 600) : attemptOf s r = none := by
  simp only [attemptOf, hist, if_pos hl]

theorem symNext_decoderRan (ha : attemptOf s r = some inv) : decoderRan s (symNext r s) inv h :=
  hist ▸ symNext_ran r s inv ha

/-- A cycle that attempts a decode whenever it holds a window. -/
theorem symNext_attempted (ha : 600 ≤ h.length → attemptOf s r = some inv) : attempted s (symNext r s) inv h := by
  by_cases hl : h.length < 600
  · rw [attempted, if_pos hl]
    exact symNext_untouched r s (attemptOf_of_short hist hl)
  · rw [attempted, if_neg hl]
    exact symNext_decoderRan hist (ha (Nat.le_of_not_lt hl))

/-! Only LOCKED acts without a hit (R113, R114). -/

theorem dispatchedSync_of_no_hit (hs : s.sync.stat ≠ .locked) (hh : preambleHit h = none) :
    dispatchedSync r s = acceptedSync s := by
  rw [dispatchedSync_eq hist, hh]
  cases hst : s.sync.stat with
  | noPreamble => exact nextSync_noPreamble (y := acceptedSync s) hst none _ _
  | possibleLock => exact nextSync_possibleLock (y := acceptedSync s) hst none _ _
  | locked => exact absurd hst hs

theorem attemptOf_of_no_hit (hs : s.sync.stat ≠ .locked) (hh : preambleHit h = none) : attemptOf s r = none := by
  cases hst : s.sync.stat with
  | noPreamble => simp only [attemptOf, hist, hst, hh, ite_self]
  | possibleLock => simp only [attemptOf, hist, hst, hh, ite_self]
  | locked => exact absurd hst hs

/-! A hit in NO_PREAMBLE (R113). -/

theorem dispatchedSync_noPreamble (hs : s.sync.stat = .noPreamble) (hh : preambleHit h = some inv) :
    dispatchedSync r s = { acceptedSync s with preamble_index := s.sync.sample_counter + 1, stat := .possibleLock } := by
  rw [dispatchedSync_eq hist, hh]
  exact nextSync_noPreamble (y := acceptedSync s) hs (some inv) _ _

theorem attemptOf_noPreamble (hs : s.sync.stat = .noPreamble) (hl : 600 ≤ h.length) : attemptOf s r = preambleHit h := by
  simp only [attemptOf, hist, hs, if_neg (Nat.not_lt.mpr hl)]

/-! A hit in POSSIBLE_LOCK (R114 to R116). -/

theorem dispatchedSync_possibleLock (hs : s.sync.stat = .possibleLock) (hh : preambleHit h = some inv) :
    dispatchedSync r s =
      if h.length ≤ 600 then acceptedSync s
      else if (s.sync.sample_counter + 1 - s.sync.preamble_index).toNat = 600 then
        { acceptedSync s with
          polarity_lock := inv, preamble_index := s.sync.sample_counter + 1, stat := .locked, fail_count := 0 }
      else if 600 < (s.sync.sample_counter + 1 - s.sync.preamble_index).toNat then
        { acceptedSync s with stat := .noPreamble, tow_known := false }
      else acceptedSync s := by
  rw [dispatchedSync_eq hist, hh]
  exact nextSync_possibleLock (y := acceptedSync s) hs (some inv) _ _

theorem attemptOf_possibleLock (hs : s.sync.stat = .possibleLock) :
    attemptOf s r =
      if 600 < h.length ∧ (s.sync.sample_counter + 1 - s.sync.preamble_index).toNat = 600 then preambleHit h else none := by
  have hd : s.sync.sample_counter + 1 - s.sync.preamble_index = 600
      ↔ (s.sync.sample_counter + 1 - s.sync.preamble_index).toNat = 600 := BitVec.toNat_inj.symm
  simp only [attemptOf, hist, hs, hd]
  by_cases hl : h.length < 600
  · rw [if_pos hl, if_neg (by omega)]
  · rw [if_neg hl]

/-! LOCKED, paced by the counter alone (R117, R118). -/

theorem dispatchedSync_locked (hs : s.sync.stat = .locked) :
    dispatchedSync r s =
      if s.sync.sample_counter + 1 = s.sync.preamble_index + 600 then
        if attemptSucceeds r s then lockedSuccess { acceptedSync s with preamble_index := s.sync.sample_counter + 1 }
        else lockedFailure { acceptedSync s with preamble_index := s.sync.sample_counter + 1 }
      else acceptedSync s := by
  rw [dispatchedSync_eq hist]
  exact nextSync_locked (y := acceptedSync s) hs _ _ _

theorem attemptOf_locked (hs : s.sync.stat = .locked) (hl : 600 ≤ h.length) :
    attemptOf s r =
      if s.sync.sample_counter + 1 = s.sync.preamble_index + 600 then some s.sync.polarity_lock else none := by
  simp only [attemptOf, hist, hs, if_neg (Nat.not_lt.mpr hl)]

theorem attemptOf_locked_off_pace (hs : s.sync.stat = .locked)
    (hn : s.sync.sample_counter + 1 ≠ s.sync.preamble_index + 600) : attemptOf s r = none := by
  simp only [attemptOf, hist, hs, if_neg hn, ite_self]

/-- On the pace an attempt succeeds exactly when a window is held and has an identifier. -/
theorem attemptSucceeds_locked_iff (hs : s.sync.stat = .locked)
    (hn : s.sync.sample_counter + 1 = s.sync.preamble_index + 600) :
    attemptSucceeds r s = true ↔ 600 ≤ h.length ∧ windowIdentifier s s.sync.polarity_lock h ≠ 0 := by
  by_cases hl : 600 ≤ h.length
  · have ha := (attemptOf_locked hist hs hl).trans (if_pos hn)
    simp [attemptSucceeds, hist, ha, hl]
  · have ha := attemptOf_of_short hist (Nat.lt_of_not_le hl)
    simp [attemptSucceeds, ha, hl]

end

/-- A failure short of the limit and the loss of sync (R118). -/
theorem lockedFailure_eq (y : SyncRegs) :
    lockedFailure y =
      if 2 < (y.fail_count + 1).toNat then
        { y with
          fail_count := y.fail_count + 1, stat := .noPreamble, frame_sync := false, tow_known := false, tow_current_ms := 0
          tow_preamble_ms := 0 }
      else { y with fail_count := y.fail_count + 1 } := rfl

/-! ## The three cycles -/

/-- Settles O20: a cycle without a hit is quiet; one with a hit writes the index and `stat`, and decodes when it holds a window. -/
theorem noPreambleCycle : Obligations.NoPreambleCycle := by
  intro r s hs
  refine ⟨symNext r s, exec_sym r s, ?_⟩
  generalize hist : historyAfter s r = h
  cases hh : preambleHit h with
  | none =>
    have hnl : s.sync.stat ≠ .locked := by simp [hs]
    have ha := attemptOf_of_no_hit hist hnl hh
    rw [symNext_sync_of_quiet (dispatchedSync_of_no_hit hist hnl hh)]
    exact ⟨rfl, rfl, rfl, rfl, rfl, rfl, hs, rfl, symNext_untouched r s ha⟩
  | some inv =>
    have hatt : attempted s (symNext r s) inv h :=
      symNext_attempted hist fun hl => (attemptOf_noPreamble hist hs hl).trans hh
    rw [symNext_sync_of_not_valid (dispatchedSync_noPreamble hist hs hh) rfl]
    exact ⟨rfl, rfl, rfl, rfl, rfl, rfl, rfl, rfl, hatt⟩

/-- Settles O21: by the hit, the length of the history and the distance from the recorded index; the cycles that wait are quiet. -/
theorem possibleLockCycle : Obligations.PossibleLockCycle := by
  intro r s hs
  refine ⟨symNext r s, exec_sym r s, ?_⟩
  generalize hist : historyAfter s r = h
  dsimp only
  cases hh : preambleHit h with
  | none =>
    have hnl : s.sync.stat ≠ .locked := by simp [hs]
    have ha := attemptOf_of_no_hit hist hnl hh
    rw [symNext_sync_of_quiet (dispatchedSync_of_no_hit hist hnl hh)]
    exact ⟨rfl, rfl, rfl, rfl, rfl, hs, rfl, rfl, rfl, rfl, symNext_untouched r s ha⟩
  | some inv =>
    have hd := dispatchedSync_possibleLock hist hs hh
    have ha := attemptOf_possibleLock hist hs
    dsimp only
    by_cases hl : h.length ≤ 600
    · rw [if_pos hl] at hd ⊢
      rw [if_neg (by omega)] at ha
      rw [symNext_sync_of_quiet hd]
      exact ⟨rfl, rfl, rfl, rfl, rfl, hs, rfl, rfl, rfl, rfl, symNext_untouched r s ha⟩
    rw [if_neg hl] at hd ⊢
    by_cases h600 : (s.sync.sample_counter + 1 - s.sync.preamble_index).toNat = 600
    · rw [if_pos h600] at hd ⊢
      rw [if_pos ⟨by omega, h600⟩] at ha
      rw [symNext_sync_of_not_valid hd rfl]
      exact ⟨rfl, rfl, rfl, rfl, rfl, rfl, rfl, rfl, rfl, rfl, symNext_decoderRan hist (ha.trans hh)⟩
    rw [if_neg h600] at hd ⊢
    rw [if_neg (by omega)] at ha
    by_cases hgt : 600 < (s.sync.sample_counter + 1 - s.sync.preamble_index).toNat
    · rw [if_pos hgt] at hd ⊢
      rw [symNext_sync_of_not_valid hd rfl]
      exact ⟨rfl, rfl, rfl, rfl, rfl, rfl, rfl, rfl, rfl, rfl, symNext_untouched r s ha⟩
    · rw [if_neg hgt] at hd ⊢
      rw [symNext_sync_of_quiet hd]
      exact ⟨rfl, rfl, rfl, rfl, rfl, hs, rfl, rfl, rfl, rfl, symNext_untouched r s ha⟩

/-- Settles O22: off the pace the cycle is quiet; on it the attempt's outcome decides between success, failure and loss of sync. -/
theorem lockedCycle : Obligations.LockedCycle := by
  intro r s hs
  refine ⟨symNext r s, exec_sym r s, ?_⟩
  generalize hist : historyAfter s r = h
  have hd := dispatchedSync_locked hist hs
  dsimp only
  by_cases hn : s.sync.sample_counter + 1 = s.sync.preamble_index + 600
  case neg =>
    rw [if_neg hn] at hd
    rw [if_pos hn, symNext_sync_of_quiet hd]
    exact ⟨rfl, hs, rfl, rfl, rfl, rfl, rfl, rfl, symNext_untouched r s (attemptOf_locked_off_pace hist hs hn)⟩
  case pos =>
    have hatt : attempted s (symNext r s) s.sync.polarity_lock h :=
      symNext_attempted hist fun hl => (attemptOf_locked hist hs hl).trans (if_pos hn)
    have hiff := attemptSucceeds_locked_iff hist hs hn
    rw [if_pos hn] at hd
    rw [if_neg (not_not_intro hn)]
    by_cases hok : attemptSucceeds r s = true
    case pos =>
      rw [if_pos hok] at hd
      rw [if_pos (hiff.mp hok), symNext_towSync, towSync_polarity_lock, towSync_preamble_index, towSync_stat, towSync_fail_count,
        towSync_flag_preamble, towSync_last_valid_preamble, towSync_frame_sync, hd]
      exact ⟨rfl, rfl, hatt, hs, rfl, rfl, rfl, rfl⟩
    case neg =>
      rw [if_neg hok, lockedFailure_eq] at hd
      rw [if_neg (mt hiff.mpr hok)]
      by_cases hlim : 2 < (s.sync.fail_count + 1).toNat
      · rw [symNext_sync_of_not_valid (hd.trans (if_pos hlim)) rfl, if_pos hlim]
        exact ⟨rfl, rfl, hatt, rfl, rfl, rfl, rfl, rfl, rfl, rfl, rfl⟩
      · rw [symNext_sync_of_not_valid (hd.trans (if_neg hlim)) rfl, if_neg hlim]
        exact ⟨rfl, rfl, hatt, rfl, rfl, rfl, hs, rfl, rfl⟩

/-! ## The time of week (40_frame_sync.md R118 to R120) -/

/-- `y'` holds the time of week of `y`. -/
def SameTime (y y' : SyncRegs) : Prop := y'.tow_current_ms = y.tow_current_ms ∧ y'.tow_preamble_ms = y.tow_preamble_ms

/-- From `y` to `y'` the time of week is kept, or, on a cycle without a valid preamble, it is forgotten that the time is known:
falling back from POSSIBLE_LOCK keeps both registers (R116), losing the sync from LOCKED zeroes them (R118). -/
def TimeKeptOrForgotten (y y' : SyncRegs) : Prop :=
  (SameTime y y' ∧ y'.tow_known = y.tow_known)
  ∨ (y'.flag_preamble = false ∧ y'.tow_known = false
    ∧ (SameTime y y' ∨ (y.stat = .locked ∧ y'.stat = .noPreamble ∧ y'.tow_current_ms = 0 ∧ y'.tow_preamble_ms = 0)))

theorem TimeKeptOrForgotten.kept {y y' : SyncRegs} (h : TimeKeptOrForgotten y y')
    (hv : y'.flag_preamble = true ∨ y'.tow_known = true) : SameTime y y' ∧ y'.tow_known = y.tow_known := by
  obtain hkept | ⟨hflag, hunknown, -⟩ := h
  · exact hkept
  · simp [hflag, hunknown] at hv

theorem nextSync_time {y : SyncRegs} (hf : y.flag_preamble = false) (hit : Option Bool) (len : Nat) (ok : Bool) :
    TimeKeptOrForgotten y (nextSync y hit len ok) := by
  cases hs : y.stat with
  | noPreamble =>
    rw [nextSync_noPreamble hs]
    cases hit <;> exact .inl ⟨⟨rfl, rfl⟩, rfl⟩
  | possibleLock =>
    rw [nextSync_possibleLock hs]
    cases hit with
    | none => exact .inl ⟨⟨rfl, rfl⟩, rfl⟩
    | some inv =>
      dsimp only
      split_ifs
      · exact .inl ⟨⟨rfl, rfl⟩, rfl⟩
      · exact .inl ⟨⟨rfl, rfl⟩, rfl⟩
      · exact .inr ⟨hf, rfl, .inl ⟨rfl, rfl⟩⟩
      · exact .inl ⟨⟨rfl, rfl⟩, rfl⟩
  | locked =>
    rw [nextSync_locked hs, lockedFailure_eq]
    split_ifs
    · exact .inl ⟨⟨rfl, rfl⟩, rfl⟩
    · exact .inr ⟨hf, rfl, .inr ⟨hs, rfl, rfl, rfl⟩⟩
    · exact .inl ⟨⟨rfl, rfl⟩, rfl⟩
    · exact .inl ⟨⟨rfl, rfl⟩, rfl⟩

theorem dispatchedSync_time (r : Symbol) (s : State) : TimeKeptOrForgotten s.sync (dispatchedSync r s) :=
  nextSync_time (y := acceptedSync s) rfl _ _ _

theorem towMs_eq_ofNat (tow : BitVec 32) : towMs tow = BitVec.ofNat 32 (tow.toNat * 1000) :=
  BitVec.mul_def

/-- Settles O23: step 5 keeps the time of week or forgets it, and step 6 latches it on a valid preamble and advances it otherwise. -/
theorem timeOfWeekBookkeeping : Obligations.TimeOfWeekBookkeeping := by
  intro r s
  refine ⟨symNext r s, exec_sym r s, ?_⟩
  have htime := dispatchedSync_time r s
  rw [symNext_towSync, towSync_flag_preamble]
  generalize dispatchedSync r s = y at htime ⊢
  cases hf : y.flag_preamble with
  | true =>
    obtain ⟨⟨hcur, hpre⟩, hknown⟩ := htime.kept (.inl hf)
    rw [towSync_of_valid _ _ hf, ← towMs_eq_ofNat]
    refine ⟨fun _ => ?_, nofun, nofun⟩
    split
    · exact ⟨hcur, hpre, hknown⟩
    · exact ⟨rfl, rfl, rfl⟩
  | false =>
    rw [towSync_of_not_valid _ _ hf, ← BitVec.add_def]
    refine ⟨nofun, fun _ (hk : y.tow_known = true) => ?_, fun _ (hk : y.tow_known = false) => ?_⟩
    · obtain ⟨⟨hcur, hpre⟩, hknown⟩ := htime.kept (.inr hk)
      rw [advanceTow, if_pos hk]
      exact ⟨hknown ▸ hk, congrArg (· + _) hcur, hpre⟩
    · rw [advanceTow, if_neg (by simp [hk])]
      exact htime.elim (fun hkept => .inl hkept.1) fun ⟨_, _, hforgot⟩ => hforgot

end Sys2Proof.Machine
end

section
/-! SUPPORT. The Convolutional Decoder's commands on SYMBUF (41_conv_decoder.md R142 to R148) and CDEC as its four stages (R165). -/

namespace Sys2Proof.Machine

/-! ## SBW and SBR (41_conv_decoder.md R142, R143; 30_encoding.md R73) -/

theorem symAt_set_self {buf : List Int} {i : Nat} (h : i < buf.length) (v : Int) : symAt (buf.set i v) i = v := by
  simp [symAt, List.getD_eq_getElem?_getD, h]

theorem symAt_set_of_ne {i k : Nat} (h : k ≠ i) (buf : List Int) (v : Int) : symAt (buf.set i v) k = symAt buf k := by
  simp [symAt, List.getD_eq_getElem?_getD, List.getElem?_set_ne h.symm]

/-- 0x80 is the one operand whose value is -128 (R73). -/
theorem softOfOperand_eq (b : BitVec 8) : softOfOperand b = if b = 0x80 then -127 else b.toInt := by
  have h : b.toInt = -128 ↔ b = 0x80 := BitVec.toInt_inj (y := 0x80)
  simp only [softOfOperand, h]

/-- Settles O29: the index decides, and in range one element of the list is set. -/
theorem softSymbolWrite : Obligations.SoftSymbolWrite := by
  intro s index value hwf
  obtain ⟨hlen, -⟩ := (spacesWf_iff s).1 hwf
  refine ⟨fun hi => if_pos hi, fun hi => ⟨s.setSym index.toNat (softOfOperand value), if_neg (by omega), rfl, ?_, ?_, ?_⟩⟩
  · exact List.length_set.trans hlen
  · exact (symAt_set_self (by omega) _).trans (softOfOperand_eq value)
  · exact fun k hk => symAt_set_of_ne hk s.symbuf _

/-- Settles O30: a soft symbol in -127..127 is the signed value of its 32-bit word. -/
theorem softSymbolRead : Obligations.SoftSymbolRead := by
  intro s index hwf
  obtain ⟨-, hrange, -⟩ := (spacesWf_iff s).1 hwf
  have hy := symAt_range hrange index.toNat
  refine ⟨fun hi => if_pos hi, fun hi => ⟨_, if_neg (by omega), ?_⟩⟩
  exact BitVec.toInt_ofInt_eq_self (by decide) (by omega) (by omega)

/-! ## DEINT and POLCOR (41_conv_decoder.md R144 to R148) -/

/-- Two buffers of `n` blocks of `w` are equal when they agree at every place of every block. -/
theorem symbols_ext_blocks {a b : List Int} {n w : Nat} (ha : a.length = n * w) (hb : b.length = n * w)
    (h : ∀ j k, j < n → k < w → symAt a (j * w + k) = symAt b (j * w + k)) : a = b := by
  refine symbols_ext (ha.trans hb.symm) fun i hi => ?_
  rw [ha] at hi
  have hw : 0 < w := Nat.pos_of_mul_pos_left (Nat.zero_lt_of_lt hi)
  rw [← Nat.div_add_mod' i w]
  exact h _ _ (Nat.div_lt_of_lt_mul (Nat.mul_comm n w ▸ hi)) (Nat.mod_lt i hw)

theorem deinterleave_interleave {x : List Int} (hx : x.length = 584) : deinterleave (interleave x) = x :=
  symbols_ext_blocks (n := 73) (w := 8) (deinterleave_length _) hx fun c r hc hr =>
    (symAt_deinterleave _ r c hr hc).trans (symAt_interleave x r c hr hc)

theorem interleave_deinterleave {x : List Int} (hx : x.length = 584) : interleave (deinterleave x) = x :=
  symbols_ext_blocks (n := 8) (w := 73) (interleave_length _) hx fun r c hr hc =>
    (symAt_interleave _ r c hr hc).trans (symAt_deinterleave x r c hr hc)

/-- Settles O31: the index formulas of the two permutations are each other's inverse. -/
theorem deinterleaveIsTheBlockTranspose : Obligations.DeinterleaveIsTheBlockTranspose :=
  ⟨fun s => ⟨{ s with symbuf := deinterleave s.symbuf }, rfl, rfl, deinterleave_length _, symAt_deinterleave s.symbuf⟩,
    fun _ hx => ⟨deinterleave_interleave hx, interleave_deinterleave hx⟩⟩

/-- Settles O32: the corrected buffer element by element, and a sign inverted twice. -/
theorem polarityCorrection : Obligations.PolarityCorrection := fun s =>
  ⟨{ s with symbuf := correctPolarity s.symbuf }, rfl, rfl, correctPolarity_length _, symAt_correctPolarity s.symbuf,
    correctPolarity_involutive _⟩

/-! ## CDEC (41_conv_decoder.md R165) -/

/-- The Message Assembler does not look at the responses, and leaves them as they are. -/
theorem sfdec_sansResponses (s : State) : sfdec s.sansResponses = ((sfdec s).1, (sfdec s).2.sansResponses) := by
  have hid : (sfdec s.sansResponses).1 = (sfdec s).1 := by simp
  have hstate : (sfdec s.sansResponses).2 = (sfdec s).2.sansResponses :=
    calc (sfdec s.sansResponses).2
        = withRest (sfdec s).2 s.sansResponses := sfdec_withRest s s.sansResponses
      _ = (sfdec s).2.sansResponses := by rw [(sfdec_frame s).frame_eq]; rfl
  exact Prod.ext hid hstate

/-- DEINT, POLCOR and VIT take a state to `stagesDone`, but for their responses. -/
theorem runAll_stages (s : State) :
    ∃ v, runAll [.deint, .polcor, .vit] s = some v ∧ v.sansResponses = (stagesDone s).sansResponses := by
  refine ⟨_, rfl, ?_⟩
  simp [State.sansResponses, stagesDone]

/-- Settles O37: the stages before SFDEC leave `stagesDone` and three responses, which SFDEC does not look at. -/
theorem cdecIsTheFourStages : Obligations.CdecIsTheFourStages := by
  intro s
  obtain ⟨v, hrun, hv⟩ := runAll_stages s
  have hsame : sfdec (stagesDone s).sansResponses = sfdec v.sansResponses := by rw [hv]
  rw [sfdec_sansResponses, sfdec_sansResponses, ← cdec_eq] at hsame
  obtain ⟨hid, hstate⟩ := Prod.mk.inj hsame
  have hkept := cdec_streams s
  refine ⟨(cdec s).2, v, BitVec.ofNat 32 (cdec s).1.val, rfl, hkept.respA, hkept.respB, hrun, (sfdec v).2, ?_, hstate⟩
  rw [hid]
  rfl

end Sys2Proof.Machine
end

section
/-! SUPPORT. The Bit-Field Codec's single-slice commands (42_bitfield.md R181 to R187): the bits of a slice's value, read as an unsigned
and as a signed number, and what FBW, RDB, RDU, RDS and RDC answer. -/

namespace Sys2Proof.Machine

/-! ## FBW and RDB (42_bitfield.md R182, R187) -/

theorem frameBit_set_self {frame : List Bool} {p : Nat} (h1 : 1 ≤ p) (h2 : p ≤ frame.length) (v : Bool) :
    frameBit (frame.set (p - 1) v) p = v := by
  have hp : p - 1 < frame.length := by omega
  simp [frameBit, List.getD_eq_getElem?_getD, hp]

theorem frameBit_set_of_ne {p q : Nat} (hp : 1 ≤ p) (hq : 1 ≤ q) (h : q ≠ p) (frame : List Bool) (v : Bool) :
    frameBit (frame.set (p - 1) v) q = frameBit frame q := by
  have hne : p - 1 ≠ q - 1 := by omega
  simp [frameBit, List.getD_eq_getElem?_getD, List.getElem?_set_ne hne]

/-- A one-bit operand is its lowest bit. -/
theorem decide_toNat_eq_one_of_le {b : BitVec 8} (h : b.toNat ≤ 1) : decide (b.toNat = 1) = b.getLsbD 0 := by
  rw [← BitVec.testBit_toNat, Nat.testBit_zero, Nat.mod_eq_of_lt (by omega)]

/-- Settles O38: the operands decide, and in range FBW sets one element of the list and RDB reads one. -/
theorem frameBitAccess : Obligations.FrameBitAccess := by
  intro s p b hwf
  obtain ⟨-, -, hlen, -⟩ := (spacesWf_iff s).1 hwf
  refine ⟨fun h => if_pos (by omega),
    fun h1 h2 hb => ⟨s.setFrameBit p.toNat (decide (b.toNat = 1)), if_neg (by omega), rfl, ?_, ?_, ?_⟩,
    fun h => if_pos (by omega), fun h1 h2 => if_neg (by omega)⟩
  · exact List.length_set.trans hlen
  · exact (frameBit_set_self h1 (by omega) _).trans (decide_toNat_eq_one_of_le hb)
  · exact fun q hq hne => frameBit_set_of_ne h1 hq hne s.frame _

/-! ## The bits of a slice (42_bitfield.md R181) -/

theorem bitsToNat_concat (l : List Bool) (b : Bool) : bitsToNat (l ++ [b]) = Nat.bit b (bitsToNat l) := by
  simp [bitsToNat, Nat.bit_val]

/-- The last bit of the list is bit 0 of the number. -/
theorem testBit_bitsToNat (l : List Bool) (j : Nat) : (bitsToNat l).testBit j = l.reverse.getD j false := by
  induction l using List.reverseRecOn generalizing j with
  | nil => simp [bitsToNat]
  | append_singleton l b ih =>
    rw [bitsToNat_concat, List.reverse_concat]
    cases j with
    | zero => exact Nat.testBit_bit_zero b _
    | succ j => exact (Nat.testBit_bit_succ j b _).trans (ih j)

theorem testBit_sliceValue (frame : List Bool) (x : Slice) (j : Nat) :
    (sliceValue frame x).testBit j = if j < x.length then frameBit frame (x.start + x.length - 1 - j) else false := by
  rw [sliceValue, testBit_bitsToNat, List.getD_eq_getElem?_getD]
  split
  · next hj =>
    have hlast : x.start + (x.length - 1 - j) = x.start + x.length - 1 - j := by omega
    rw [List.getElem?_reverse (by simpa [sliceBits] using hj)]
    simp [sliceBits, hlast, (by omega : x.length - 1 - j < x.length)]
  · next hj => rw [List.getElem?_eq_none (by simpa [sliceBits] using hj), Option.getD_none]

theorem sliceValue_lt (frame : List Bool) (x : Slice) : sliceValue frame x < 2 ^ x.length :=
  Nat.lt_pow_two_of_testBit _ fun j hj => by rw [testBit_sliceValue, if_neg (by omega)]

/-- The sign of a slice of at least one bit is its leading frame bit (R185). -/
theorem msb_sliceValue (frame : List Bool) {x : Slice} (h : 1 ≤ x.length) :
    (BitVec.ofNat x.length (sliceValue frame x)).msb = frameBit frame x.start := by
  have hstart : x.start + x.length - 1 - (x.length - 1) = x.start := by omega
  rw [BitVec.msb_eq_getLsbD_last, BitVec.getLsbD_ofNat, testBit_sliceValue, if_pos (by omega), hstart, decide_eq_true (by omega),
    Bool.true_and]

/-- The signed value of a slice is the two's-complement value of its bits. -/
theorem sliceSigned_eq_toInt (frame : List Bool) {x : Slice} (h : 1 ≤ x.length) :
    sliceSigned frame x = (BitVec.ofNat x.length (sliceValue frame x)).toInt := by
  rw [BitVec.toInt_eq_msb_cond, msb_sliceValue frame h, BitVec.toNat_ofNat, Nat.mod_eq_of_lt (sliceValue_lt frame x), Nat.cast_pow]
  rfl

/-! ## What the three reads put into ACC (42_bitfield.md R184 to R186) -/

theorem getLsbD_ofNat_sliceValue (frame : List Bool) (x : Slice) {j : Nat} (hj : j < 64) :
    (BitVec.ofNat 64 (sliceValue frame x)).getLsbD j =
      if j < x.length then frameBit frame (x.start + x.length - 1 - j) else false := by
  rw [BitVec.getLsbD_ofNat, testBit_sliceValue, decide_eq_true hj, Bool.true_and]

/-- The value RDS puts into ACC is the slice's own word, sign-extended. -/
theorem getLsbD_ofInt_sliceSigned (frame : List Bool) {x : Slice} (h : 1 ≤ x.length) {j : Nat} (hj : j < 64) :
    (BitVec.ofInt 64 (sliceSigned frame x)).getLsbD j =
      if j < x.length then frameBit frame (x.start + x.length - 1 - j) else frameBit frame x.start := by
  rw [sliceSigned_eq_toInt frame h, ← BitVec.signExtend, BitVec.getLsbD_signExtend, msb_sliceValue frame h, decide_eq_true hj,
    Bool.true_and]
  split
  · next hlow => rw [BitVec.getLsbD_ofNat, testBit_sliceValue, if_pos hlow, decide_eq_true hlow, Bool.true_and]
  · rfl

theorem getLsbD_accumulate (acc : BitVec 64) (frame : List Bool) (x : Slice) {j : Nat} (hj : j < 64) :
    (accumulate acc frame x).getLsbD j =
      if j < x.length then frameBit frame (x.start + x.length - 1 - j) else acc.getLsbD (j - x.length) := by
  rw [accumulate, BitVec.getLsbD_or, BitVec.getLsbD_shiftLeft, getLsbD_ofNat_sliceValue frame x hj]
  split
  · next hlow => simp [hlow]
  · next hhigh => simp [hhigh, hj]

/-- The slices R181 allows, in the numbers of its own text. -/
theorem slice_valid_iff (x : Slice) :
    x.valid = true ↔ 1 ≤ x.start ∧ 1 ≤ x.length ∧ x.length ≤ 64 ∧ x.start + x.length - 1 ≤ 292 := by
  simp only [Slice.valid, Bool.and_eq_true, decide_eq_true_eq]
  omega

/-- Settles O39: validity of the slice decides, and each read's value is given bit by bit. -/
theorem sliceReads : Obligations.SliceReads := by
  intro s a b
  have hiff := slice_valid_iff ⟨a.toNat, b.toNat⟩
  dsimp only at hiff
  constructor
  · intro h
    have hbad : ¬ (Slice.mk a.toNat b.toNat).valid = true := by rw [hiff]; omega
    exact ⟨if_neg hbad, if_neg hbad, if_neg hbad⟩
  · intro ha hb1 hb64 hend
    have hok : (Slice.mk a.toNat b.toNat).valid = true := hiff.2 ⟨ha, hb1, hb64, hend⟩
    exact ⟨⟨_, if_pos hok, fun j hj => getLsbD_ofNat_sliceValue s.frame ⟨a.toNat, b.toNat⟩ hj⟩,
      ⟨_, if_pos hok, fun j hj => getLsbD_ofInt_sliceSigned s.frame hb1 hj⟩,
      ⟨_, if_pos hok, fun j hj => getLsbD_accumulate s.acc s.frame ⟨a.toNat, b.toNat⟩ hj⟩⟩

end Sys2Proof.Machine
end

section
/-! SUPPORT. SFDEC's answer for each identifier (43_msg_assembler.md R202 to R216), and what any command may publish on TLM
(R220 to R224). -/

namespace Sys2Proof.Machine

/-! ## SFDEC (43_msg_assembler.md R202 to R216) -/

theorem exec_sfdec (s : State) :
    exec .sfdec s = .next (State.respond (sfdec s).2 0x28 [BitVec.ofNat 32 (frameSfid s.params s.frame).val]) := by
  rw [← sfdec_identifier]
  rfl

/-- Settles O42: the arm of identifier 0. -/
theorem sfdecUnrecognised : Obligations.SfdecUnrecognised := by
  intro s h
  rw [exec_sfdec, sfdec_zero s h, h]
  rfl

/-- A group loaded once ACC and the assembler's registers are written: the load writes the parameter files, and ACC holds the last
field read (R203). -/
theorem loadGroup_setAccAsm (s : State) (acc : BitVec 64) (asm : AsmRegs) (g : List Entry) :
    let u := loadGroup { s with acc := acc, asm := asm } g
    u = { s with acc := lastRaw s g acc, asm := asm, eph := u.eph, utc := u.utc, iono := u.iono, eop := u.eop } := by
  intro u
  have hacc : u.acc = lastRaw s g acc := loadGroup_acc _ g
  rw [← hacc]
  exact loadGroup_frame _ g

/-- Those writes are nothing to the group: it is loaded as from the state before them, in every state with the parameters loaded. -/
theorem groupLoaded_setAccAsm {s u : State} {acc : BitVec 64} {asm : AsmRegs} {g : List Entry} (hg : noRegTwice g = true)
    (hu : ∀ r, readParam u r = readParam (loadGroup { s with acc := acc, asm := asm } g) r) : groupLoaded s u g :=
  groupLoaded_congr (loadGroup_loaded { s with acc := acc, asm := asm } g hg) rfl (readParam_congr rfl rfl rfl rfl) hu

/-- Settles O43: group SF1 loaded after the time of week is reported and recorded. -/
theorem sfdecSubframe1 : Obligations.SfdecSubframe1 := by
  intro s h hg
  refine ⟨(sfdec s).2, by rw [exec_sfdec, h]; rfl, ?_⟩
  rw [sfdec_one s h]
  exact ⟨loadGroup_setAccAsm s _ _ _, groupLoaded_setAccAsm hg fun _ => rfl⟩

theorem validated_iff (a : AsmRegs) : validated a = true ↔ a.sf1_tow ≠ 0 ∧ a.sf2_tow ≠ 0 ∧ a.paged_tow ≠ 0 := by
  simp [validated, and_assoc]

/-- A subframe 2 leaves the loaded state, with the Ephemeris out when the three times of week are recorded (R220, R222). -/
theorem sfdec_two_published (s : State) (h : frameSfid s.params s.frame = 2) :
    (sfdec s).2 =
      { subframe2Loaded s with
          tlm := if s.asm.sf1_tow ≠ 0 ∧ frameTow s.params s.frame ≠ 0 ∧ s.asm.paged_tow ≠ 0 then
              s.tlm ++ [.ephemeris s.sat_prn (subframe2Loaded s).eph s.derived]
            else s.tlm } := by
  have hv : validated (subframe2Loaded s).asm = true
      ↔ s.asm.sf1_tow ≠ 0 ∧ frameTow s.params s.frame ≠ 0 ∧ s.asm.paged_tow ≠ 0 := by
    rw [validated_iff, subframe2Loaded, loadGroup_asm]
    rfl
  have htlm : (subframe2Loaded s).tlm = s.tlm := loadGroup_tlm _ _
  have hprn : (subframe2Loaded s).sat_prn = s.sat_prn := loadGroup_sat_prn _ _
  have hderived : (subframe2Loaded s).derived = s.derived := loadGroup_derived _ _
  rw [sfdec_two s h]
  simp only [hv]
  split
  · rw [publishEphemeris, State.emitTlm, htlm, hprn, hderived]
  · rw [← htlm]

/-- Settles O44: as subframe 1, and the publication of `sfdec_two_published`. -/
theorem sfdecSubframe2 : Obligations.SfdecSubframe2 := by
  intro s h hg
  refine ⟨(sfdec s).2, by rw [exec_sfdec, h]; rfl, ?_⟩
  rw [sfdec_two_published s h]
  refine ⟨?_, groupLoaded_setAccAsm hg (readParam_congr rfl rfl rfl rfl)⟩
  rw [subframe2Loaded, headerRead, loadGroup_setAccAsm]
  rfl

/-- Settles O45: the three cases of the message type. -/
theorem sfdecPages : Obligations.SfdecPages := by
  intro s id hid h34 hutc hiono
  subst hid
  refine ⟨(sfdec s).2, exec_sfdec s, ?_⟩
  rw [sfdec_page s (by omega) (by omega) (by omega)]
  dsimp only
  split
  · rw [pageUtc_eq]
    refine ⟨?_, groupLoaded_setAccAsm hutc (readParam_congr rfl rfl rfl rfl)⟩
    rw [pageRead, headerRead, loadGroup_setAccAsm]
    rfl
  · split
    · rw [pageEopIono_eq]
      refine ⟨?_, groupLoaded_setAccAsm hiono (readParam_congr rfl rfl rfl rfl)⟩
      rw [pageRead, headerRead, loadGroup_setAccAsm]
      rfl
    · rfl

/-! ## Publications (43_msg_assembler.md R220 to R224) -/

/-- The message is a snapshot of the registers of `t`, published where the rules allow it. -/
def validSnapshot (t : State) : TlmMsg → Prop
  | .ephemeris prn e d =>
    prn = t.sat_prn ∧ e = t.eph ∧ d = t.derived ∧ t.asm.last_sfid = 2
    ∧ t.asm.sf1_tow ≠ 0 ∧ t.asm.sf2_tow ≠ 0 ∧ t.asm.paged_tow ≠ 0
  | .iono x => x = t.iono ∧ (t.asm.last_sfid = 3 ∨ t.asm.last_sfid = 4) ∧ t.asm.iono_valid = false
  | .utcModel x => x = t.utc ∧ (t.asm.last_sfid = 3 ∨ t.asm.last_sfid = 4) ∧ t.asm.utc_valid = false

/-- TLM of `t` holds what was sent before and nothing more, or one valid snapshot more. -/
def publishesSnapshot (sent : List TlmMsg) (t : State) : Prop := t.tlm = sent ∨ ∃ m, t.tlm = sent ++ [m] ∧ validSnapshot t m

/-- The identifier a publication was made for is the one recorded. -/
theorem publishesSnapshot_of_leaves {s t : State} {id : Fin 5} (h : AssemblerLeaves s t id) : publishesSnapshot s.tlm t := by
  have hsfid : ∀ x : Fin 5, id = x → t.asm.last_sfid = BitVec.ofNat 3 x.val := fun _ hx => hx ▸ h.sfid
  refine h.published.imp_right ?_
  rintro ⟨m, hm, hsnap⟩
  refine ⟨m, hm, ?_⟩
  cases m with
  | ephemeris prn e d =>
    obtain ⟨hprn, heph, hderived, hid, htows⟩ := hsnap
    exact ⟨hprn, heph, hderived, hsfid 2 hid, htows⟩
  | iono x | utcModel x =>
    obtain ⟨hx, hid, hvalid⟩ := hsnap
    exact ⟨hx, hid.imp (hsfid 3) (hsfid 4), hvalid⟩

theorem publishesSnapshot_sfdec (s : State) : publishesSnapshot s.tlm (sfdec s).2 := publishesSnapshot_of_leaves (sfdec_leaves s)

/-- The stages before SFDEC leave TLM as it is. -/
theorem publishesSnapshot_cdec (s : State) : publishesSnapshot s.tlm (cdec s).2 := by
  have h : publishesSnapshot (stagesDone s).tlm (cdec s).2 := publishesSnapshot_of_leaves (cdec_leaves s)
  exact h

/-- A publication stays one as long as what it shows, and where it was made, stay as they are. -/
theorem publishesSnapshot_of_untouched {sent : List TlmMsg} {u t : State} (h : publishesSnapshot sent u)
    (hu : decoderUntouched u t) (hprn : t.sat_prn = u.sat_prn) (hderived : t.derived = u.derived) : publishesSnapshot sent t := by
  obtain ⟨-, -, -, hasm, heph, hutc, hiono, -, htlm⟩ := hu
  rcases h with hnone | ⟨m, hm, hsnap⟩
  · exact .inl (htlm.trans hnone)
  · refine .inr ⟨m, htlm.trans hm, ?_⟩
    cases m <;> simpa only [validSnapshot, hprn, hderived, hasm, heph, hutc, hiono] using hsnap

theorem cdec_sat_prn (s : State) : (cdec s).2.sat_prn = s.sat_prn := by rw [(cdec_frame s).frame_eq]

theorem cdec_derived (s : State) : (cdec s).2.derived = s.derived := by rw [(cdec_frame s).frame_eq]

/-- A SYM publishes what the decode attempt of its cycle publishes, if it makes one (40_frame_sync.md R110). -/
theorem publishesSnapshot_symNext (r : Symbol) (s : State) : publishesSnapshot s.tlm (symNext r s) := by
  have hprn := symNext_sat_prn r s
  have hderived := symNext_derived r s
  cases ha : attemptOf s r with
  | none => exact publishesSnapshot_of_untouched (.inl rfl) (symNext_untouched r s ha) hprn hderived
  | some inv =>
    have hdecode := publishesSnapshot_cdec { s with symbuf := windowSymbols inv (historyAfter s r) }
    exact publishesSnapshot_of_untouched hdecode (symNext_ran r s inv ha) (by rw [cdec_sat_prn, hprn])
      (by rw [cdec_derived, hderived])

/-- Three commands write TLM; each publishes by a run of the Message Assembler. -/
theorem publishesSnapshot_exec {i : Instr} {s t : State} (h : exec i s = .next t) : publishesSnapshot s.tlm t := by
  by_cases hi : i.op ∈ [.sfdec, .cdec, .sym]
  case neg => exact .inl ((RespectsWriters.of_exec h).tlm hi)
  case pos =>
    cases i with
    | sfdec =>
      injection h with h
      subst h
      exact publishesSnapshot_sfdec s
    | cdec =>
      injection h with h
      subst h
      exact publishesSnapshot_cdec s
    | sym r =>
      injection h with h
      subst h
      exact publishesSnapshot_symNext r s
    | _ => simp [Instr.op] at hi

/-- Settles O46: `publishesSnapshot_exec` for a command that changed TLM. -/
theorem publicationsAreValidatedSnapshots : Obligations.PublicationsAreValidatedSnapshots := by
  intro i s t h hne
  obtain ⟨m, hm, hsnap⟩ := (publishesSnapshot_exec h).resolve_left hne
  exact ⟨m, hm, by cases m <;> exact hsnap⟩

end Sys2Proof.Machine
end

section
/-! SUPPORT. The Orbital/Clock Model (44_orbit_clock.md): magnitudes of binary64 patterns, what is assumed of NUM (R242), and CHKT
(R245, R246). -/

namespace Sys2Proof.Machine

/-! ## NaN results -/

theorem isNaN_iff (x : F64) : isNaN x = true ↔ fexp x = 2047 ∧ ffrac x ≠ 0 := by simp [isNaN]

theorem isNaN_fpack (neg : Bool) {payload : Nat} (h0 : payload ≠ 0) (h : payload < 2 ^ 52) :
    isNaN (fpack neg (0x7FF0000000000000 + payload)) = true := by
  have hlt : 0x7FF0000000000000 + payload < 2 ^ 63 := by omega
  rw [isNaN_iff, fexp_fpack neg hlt, ffrac_fpack neg hlt]
  omega

/-- R244: the fraction of the answer is never that of an infinity. -/
theorem isNaN_nanOf (op : FpOp) (x y : F64) : isNaN (nanOf op x y) = true := by
  have hlt : (Config.nanPayload op x y).toNat < 2 ^ 52 := BitVec.isLt _
  refine isNaN_fpack _ ?_ ?_
  · split
    · decide
    · assumption
  · split
    · decide
    · exact hlt

/-! ## Magnitudes -/

/-- The 63 bits below the sign, as a number: they order the magnitudes. -/
def fmagnitude (x : F64) : Nat := x.toNat % 2 ^ 63

theorem forder_eq_withSign (x : F64) : forder x = withSign (fsign x) (fmagnitude x) := by
  simp only [forder, withSign, fmagnitude, BitVec.extractLsb'_toNat, Nat.shiftRight_zero]

theorem forder_le_fmagnitude (x : F64) : forder x ≤ (fmagnitude x : Int) := by
  rw [forder_eq_withSign, withSign]
  split <;> omega

/-- The finite patterns are those below the infinities. -/
theorem isFinite_iff_fmagnitude_lt (x : F64) : isFinite x = true ↔ fmagnitude x < 0x7FF0000000000000 := by
  rw [isFinite_iff, fexp_eq, fmagnitude]
  omega

theorem toNat_fabs (x : F64) : (fabs x).toNat = fmagnitude x := by
  rw [fabs, BitVec.toNat_and]
  exact Nat.and_two_pow_sub_one_eq_mod x.toNat 63

theorem forder_fabs (x : F64) : forder (fabs x) = (fmagnitude x : Int) := by
  have hlt : fmagnitude x < 2 ^ 63 := Nat.mod_lt _ (by decide)
  have hsign : fsign (fabs x) = false := by simpa [fsign_eq_decide, toNat_fabs] using hlt
  rw [forder_eq_withSign, hsign, fmagnitude, toNat_fabs, Nat.mod_eq_of_lt hlt]
  rfl

theorem forder_le_of_fle {x y : F64} (h : fle x y = true) : forder x ≤ forder y := by
  simp only [fle, Bool.and_eq_true, decide_eq_true_eq] at h
  obtain ⟨-, hle⟩ := h
  exact hle

theorem isNaN_eq_false_of_flt {x y : F64} (h : flt x y = true) : isNaN y = false := by
  simp only [flt, Bool.and_eq_true, Bool.not_eq_true'] at h
  obtain ⟨⟨-, hy⟩, -⟩ := h
  exact hy

/-- A value whose magnitude is at most a finite bound is finite. -/
theorem isFinite_of_fle_fabs {x bound : F64} (hb : isFinite bound = true) (h : fle (fabs x) bound = true) :
    isFinite x = true := by
  have hle := forder_le_of_fle h
  have hbound := forder_le_fmagnitude bound
  rw [forder_fabs] at hle
  rw [isFinite_iff_fmagnitude_lt] at hb ⊢
  omega

/-! ## The functions of NUM -/

/-- A value is finite and its magnitude is at most `bound`, as R242 says of a function of NUM. -/
def WithinBound (bound v : F64) : Prop := isFinite v = true ∧ fle (fabs v) bound = true

/-- Whatever the raw answer is, the bounded one is within a bound that is finite and not below zero. -/
theorem withinBound_boundedBy {bound : F64} (hb : isFinite bound = true) (hb0 : WithinBound bound 0) (raw : F64) :
    WithinBound bound (boundedBy bound raw) := by
  unfold boundedBy
  split
  · exact ⟨isFinite_of_fle_fabs hb ‹_›, ‹_›⟩
  · exact hb0

theorem isNaN_fsin {x : F64} (h : isNaN x = true ∨ isInf x = true) : isNaN (fsin x) = true := by
  rw [fsin, if_pos (by simpa using h)]
  exact isNaN_nanOf .sin x x

theorem isNaN_fcos {x : F64} (h : isNaN x = true ∨ isInf x = true) : isNaN (fcos x) = true := by
  rw [fcos, if_pos (by simpa using h)]
  exact isNaN_nanOf .cos x x

theorem isNaN_fatan2 {y x : F64} (h : isNaN y = true ∨ isNaN x = true) : isNaN (fatan2 y x) = true := by
  rw [fatan2, if_pos (by simpa using h)]
  exact isNaN_nanOf .atan2 y x

theorem withinBound_fsin {x : F64} (hx : isFinite x = true) : WithinBound 0x3FF0000000000000 (fsin x) := by
  rw [fsin, if_neg (by simp [isNaN_eq_false_of_isFinite hx, isInf_eq_false_of_isFinite hx])]
  split
  · exact ⟨by decide, by decide⟩
  · exact withinBound_boundedBy (by decide) ⟨by decide, by decide⟩ _

theorem withinBound_fcos {x : F64} (hx : isFinite x = true) : WithinBound 0x3FF0000000000000 (fcos x) := by
  rw [fcos, if_neg (by simp [isNaN_eq_false_of_isFinite hx, isInf_eq_false_of_isFinite hx])]
  split
  · exact ⟨by decide, by decide⟩
  · exact withinBound_boundedBy (by decide) ⟨by decide, by decide⟩ _

theorem fatan2_eq_of_not_isNaN {y x : F64} (hy : isNaN y = false) (hx : isNaN x = false) :
    fatan2 y x = if y = 0 ∧ flt 0 x then 0 else boundedBy 0x400921FB54442D19 (Config.numAtan2 y x) := by
  simp [fatan2, hy, hx]

theorem withinBound_fatan2 {y x : F64} (hy : isNaN y = false) (hx : isNaN x = false) :
    WithinBound 0x400921FB54442D19 (fatan2 y x) := by
  rw [fatan2_eq_of_not_isNaN hy hx]
  split
  · exact ⟨by decide, by decide⟩
  · exact withinBound_boundedBy (by decide) ⟨by decide, by decide⟩ _

theorem fatan2_zero_of_pos {x : F64} (h : flt 0 x = true) : fatan2 0 x = 0 := by
  rw [fatan2_eq_of_not_isNaN (by decide) (isNaN_eq_false_of_flt h), if_pos ⟨rfl, h⟩]

/-- Settles O53: a NaN answer is `nanOf`'s, the exact values are written in the three functions, and every other answer is
within its bound. -/
theorem numLimits : Obligations.NumLimits := by
  intro x y
  refine ⟨fun h => ⟨isNaN_fsin (.inl h), isNaN_fcos (.inl h), isNaN_fatan2 (.inl h), isNaN_fatan2 (.inr h)⟩,
    fun h => ⟨isNaN_fsin (.inr h), isNaN_fcos (.inr h)⟩, fun h => ?_, by decide, by decide, by decide, fatan2_zero_of_pos,
    withinBound_fatan2⟩
  obtain ⟨hsin, hsinBound⟩ := withinBound_fsin h
  obtain ⟨hcos, hcosBound⟩ := withinBound_fcos h
  exact ⟨hsin, hsinBound, hcos, hcosBound⟩

/-! ## CHKT -/

theorem exec_chkt (t : F64) (s : State) : exec (.chkt t) s = .next (respondF64 s 0x30 (checkT t)) := rfl

/-- `checkT` with its constants as patterns. -/
theorem checkT_eq (t : F64) :
    checkT t = if flt 0x4112750000000000 t then fsub t 0x4122750000000000
      else if flt t 0xC112750000000000 then fadd t 0x4122750000000000
      else t := by
  have hneg : fneg HALF_WEEK = 0xC112750000000000 := by decide
  rw [checkT, hneg]
  rfl

/-- Settles O48: CHKT answers `checkT` of its operand, and the four values are computed. -/
theorem checkTWrapsOnce : Obligations.CheckTWrapsOnce := by
  refine ⟨fun t s => ?_, by decide, by decide, by decide, by decide⟩
  rw [exec_chkt, checkT_eq]
  rfl

end Sys2Proof.Machine
end

section
/-! SUPPORT. Register access (46_register_access.md R301, R302): the table of registers as the index map read through `view64`, and
from it what RDST answers and what WRP changes. -/

namespace Sys2Proof.Machine

/-! ## The index map as one list (10_state.md R44) -/

/-- The index map, in the order of `registerTable`. -/
def indexedRegisters : List (Nat × RegName) :=
  coreIndexMap.map (Prod.map id .core) ++ asmIndexMap.map (Prod.map id .asm) ++ ephIndexMap.map (Prod.map id .param)
    ++ derivedIndexMap.map (Prod.map id .derived) ++ (utcIndexMap ++ ionoIndexMap ++ eopIndexMap).map (Prod.map id .param)

theorem registerTable_eq (s : State) : registerTable s = indexedRegisters.map (Prod.map id (view64 s)) := by
  obtain ⟨⟨stat⟩⟩ := s
  cases stat <;> rfl

theorem mem_registerTable {s : State} {x : Nat × BitVec 64} :
    x ∈ registerTable s ↔ ∃ r, (x.1, r) ∈ indexedRegisters ∧ view64 s r = x.2 := by
  rw [registerTable_eq, List.mem_map]
  constructor
  · rintro ⟨⟨i, r⟩, hm, rfl⟩
    exact ⟨r, hm, rfl⟩
  · rintro ⟨r, hm, hv⟩
    exact ⟨_, hm, Prod.ext rfl hv⟩

theorem regOfIndex_of_mem : ∀ p ∈ indexedRegisters, regOfIndex (BitVec.ofNat 16 p.1) = some p.2 := by decide

theorem nodup_registers : (indexedRegisters.map Prod.snd).Nodup := by decide

theorem mem_of_lookup {α : Type} {l : List (Nat × α)} {i : Nat} {r : α} (h : l.lookup i = some r) : (i, r) ∈ l := by
  obtain ⟨l₁, l₂, rfl, -⟩ := List.lookup_eq_some_iff.1 h
  simp

theorem param_mem_indexedRegisters {i : Nat} {r : ParamReg} (h : (i, r) ∈ paramIndexMap) :
    (i, .param r) ∈ indexedRegisters := by
  simpa [indexedRegisters, paramIndexMap, or_assoc] using h

theorem mem_of_regOfIndex {index : BitVec 16} {r : RegName} (h : regOfIndex index = some r) :
    (index.toNat, r) ∈ indexedRegisters := by
  unfold regOfIndex at h
  split at h
  case h_1 c hc =>
    cases h
    simp [indexedRegisters, mem_of_lookup hc]
  split at h
  case h_1 a ha =>
    cases h
    simp [indexedRegisters, mem_of_lookup ha]
  split at h
  case h_1 d hd =>
    cases h
    simp [indexedRegisters, mem_of_lookup hd]
  split at h
  case h_1 p hp =>
    cases h
    exact param_mem_indexedRegisters (mem_of_lookup hp)
  case h_2 => cases h

/-! ## RDST -/

theorem exec_rdst_of_some {index : BitVec 16} {r : RegName} (h : regOfIndex index = some r) (s : State) :
    exec (.rdst index) s = .next (s.respond 0x40 (words64 (view64 s r))) := by
  simp [exec, execRdst, h, completes]

theorem exec_rdst_of_none {index : BitVec 16} (h : regOfIndex index = none) (s : State) :
    exec (.rdst index) s = .next (s.raise 0x40 .badOperand) := by
  simp [exec, execRdst, h, completes]

/-- Settles O59: the registers of the table are the index map's, and an index outside it names none. -/
theorem rdstReadsEveryRegister : Obligations.RdstReadsEveryRegister := by
  intro s
  constructor
  · rintro ⟨i, v⟩ hx
    obtain ⟨r, hm, rfl⟩ := mem_registerTable.1 hx
    exact exec_rdst_of_some (regOfIndex_of_mem _ hm) s
  · intro index hno
    refine exec_rdst_of_none (Option.eq_none_iff_forall_ne_some.2 fun r hr => ?_) s
    exact hno (index.toNat, view64 s r) (mem_registerTable.2 ⟨r, mem_of_regOfIndex hr, rfl⟩) rfl

/-! ## WRP -/

theorem exec_wrp_of_some {index : BitVec 16} {r : ParamReg} (h : paramOfIndex index = some r) (value : BitVec 64) (s : State) :
    exec (.wrp index value) s = .next ((writeParam s r value).respond 0x41 []) := by
  simp [exec, execWrp, h, completes]

/-- Whether a parameter register is a one-bit flag (10_state.md R39). -/
def isFlag : ParamReg → Bool
  | .flag _ => true
  | .eph _ | .utc _ | .iono _ | .eop _ => false

/-- The flags are the registers 0x0218 and 0x0219. -/
theorem isFlag_of_mem : ∀ p ∈ paramIndexMap, isFlag p.2 = decide (p.1 = 0x0218 ∨ p.1 = 0x0219) := by decide

theorem flagView_getLsbD_zero (v : BitVec 64) : flagView (v.getLsbD 0) = v &&& 1 := by
  rw [show v &&& 1 = _ from BitVec.and_one_eq_setWidth_ofBool_getLsbD]
  cases v.getLsbD 0 <;> rfl

theorem storedParam_eq (r : ParamReg) (v : BitVec 64) : storedParam r v = if isFlag r then v &&& 1 else v := by
  cases r with
  | flag f => exact flagView_getLsbD_zero v
  | eph _ | utc _ | iono _ | eop _ => rfl

theorem view64_writeParam_same (s : State) (r : ParamReg) (v : BitVec 64) :
    view64 (writeParam s r v) (.param r) = storedParam r v :=
  readParam_writeParam_same s r v

theorem view64_writeParam_ne (s : State) (r : ParamReg) (v : BitVec 64) {r' : RegName} (h : r' ≠ .param r) :
    view64 (writeParam s r v) r' = view64 s r' := by
  cases r' with
  | param r' => exact readParam_writeParam_ne s r r' v fun e => h (e ▸ rfl)
  | core _ | asm _ | derived _ => rw [writeParam_frame]; rfl

/-- After a write of the parameter register `r` at `i`, the table holds what `r` stores of the value at `i` and is as before
elsewhere. -/
theorem registerTable_writeParam {s : State} {i : Nat} {r : ParamReg} {v : BitVec 64} (hr : (i, r) ∈ paramIndexMap)
    {x : Nat × BitVec 64} (hx : x ∈ registerTable (writeParam s r v)) :
    if x.1 = i then x.2 = storedParam r v else x ∈ registerTable s := by
  obtain ⟨r', hm', hv⟩ := mem_registerTable.1 hx
  have hm := param_mem_indexedRegisters hr
  split
  next hi =>
    have hr' : r' = .param r := by
      have h := regOfIndex_of_mem _ hm'
      rw [hi, regOfIndex_of_mem _ hm] at h
      exact (Option.some.inj h).symm
    rw [← hv, hr', view64_writeParam_same]
  next hi =>
    have hr' : r' ≠ .param r := by
      rintro rfl
      exact hi (congrArg Prod.fst (List.inj_on_of_nodup_map nodup_registers hm' hm rfl))
    exact mem_registerTable.2 ⟨r', hm', hv ▸ (view64_writeParam_ne s r v hr').symm⟩

/-- Settles O60: a writable index names a parameter register, whose write stores its value there, a flag's bit 0, and touches no other
register. -/
theorem wrpWritesOneParameter : Obligations.WrpWritesOneParameter := by
  intro s index value
  refine ⟨exec_badOperand (.wrp index value) s, fun hw => ?_⟩
  obtain ⟨r, hr⟩ := Option.isSome_iff_exists.1 ((paramOfIndex_isSome index).trans hw)
  have hm : (index.toNat, r) ∈ paramIndexMap := mem_of_lookup hr
  refine ⟨writeParam s r value, exec_wrp_of_some hr value s, writeParam_frame s r value, fun x hx => ?_⟩
  have h := registerTable_writeParam hm hx
  split
  next hi =>
    rw [if_pos hi, storedParam_eq, isFlag_of_mem _ hm] at h
    simpa [hi] using h
  next hi => rwa [if_neg hi] at h

end Sys2Proof.Machine
end

section
/-! SUPPORT. The error priority of a packet (60_exceptions.md R310 to R318): the tables on numbers agree with the opcode map, so the
status they give is that of the decoder's answer, and a step delivers one response with that status. -/

namespace Sys2Proof.Machine

/-! ## The tables on numbers and the opcode map (30_encoding.md R72, R75, R77) -/

/-- An opcode off the map lies in one of R77's ranges. -/
theorem opcodeIllegal_of_ofCode {c : BitVec 8} (h : Op.ofCode c = none) : opcodeIllegal c.toNat = true := by
  have hne : ∀ o ∈ Op.all, o.code.toNat ≠ c.toNat := fun o _ he => by
    rw [← BitVec.eq_of_toNat_eq he, Op.ofCode_code] at h
    cases h
  simp only [Op.all, List.forall_mem_cons, Op.code, BitVec.reduceToNat] at hne
  simp only [opcodeIllegal, Bool.or_eq_true, Bool.and_eq_true, decide_eq_true_eq]
  have hlt := c.isLt
  omega

@[simp] theorem opcodeIllegal_code (o : Op) : opcodeIllegal o.code.toNat = false := by cases o <;> rfl

@[simp] theorem wordsAsked_code (o : Op) : wordsAsked o.code.toNat = o.format.payloadWords := by cases o <;> rfl

@[simp] theorem usesFieldA_code (o : Op) : usesFieldA o.code.toNat = o.format.usesA := by cases o <;> rfl

@[simp] theorem usesFieldB_code (o : Op) : usesFieldB o.code.toNat = o.format.usesB := by cases o <;> rfl

theorem decide_le_eq_not (a n : Nat) : decide (a ≤ n) = !decide (n < a) := by simp [← decide_not]

/-- R313's conditions on a frame position are the negation of its lying in 1..292. -/
theorem position_inFrame_eq_not (a : Nat) : (decide (1 ≤ a) && decide (a ≤ 292)) = !(a == 0 || decide (292 < a)) := by
  rw [Bool.eq_iff_iff]
  simp only [Bool.and_eq_true, Bool.not_eq_true', Bool.or_eq_false_iff, decide_eq_true_eq, decide_eq_false_iff_not,
    beq_eq_false_iff_ne]
  omega

/-- R313's conditions on a slice are the negation of its validity (42_bitfield.md R181). -/
theorem slice_valid_eq_not (a b : Nat) :
    (Slice.mk a b).valid = !(a == 0 || b == 0 || decide (64 < b) || decide (292 < a + b - 1)) := by
  rw [Bool.eq_iff_iff]
  simp only [Slice.valid, Bool.and_eq_true, Bool.not_eq_true', Bool.or_eq_false_iff, decide_eq_true_eq, decide_eq_false_iff_not,
    beq_eq_false_iff_ne]
  omega

/-- A command's operands are in range exactly when R313's table finds no fault in the header fields it is made of. -/
theorem wf_instrOf (o : Op) (a : BitVec 16) (b : BitVec 8) (ws : List Word) :
    (instrOf o a b ws).wf = !operandBad o.code.toNat a.toNat b.toNat := by
  cases o with
  | nop | reset | setsat | sym | deint | polcor | vit | cdec | sfdec | chkt | clkrel | clkdrift | satpos | utctime => rfl
  | rdu | rds | rdc => exact slice_valid_eq_not a.toNat b.toNat
  | rdst | wrp => exact (Bool.not_not _).symm
  | sbw | sbr => exact decide_le_eq_not a.toNat 583
  | fbw =>
    show (decide (1 ≤ a.toNat) && decide (a.toNat ≤ 292) && decide (b.toNat ≤ 1))
      = !(a.toNat == 0 || decide (292 < a.toNat) || decide (1 < b.toNat))
    rw [position_inFrame_eq_not, decide_le_eq_not, Bool.not_or (_ || _)]
  | rdb => exact position_inFrame_eq_not a.toNat

/-! ## The status of a packet (60_exceptions.md R318) -/

/-- The status of the response to a packet, from what the packet decodes to: the decoder's error, else BAD_OPERAND for a command with
an operand out of range, else OK. -/
def answerStatus : DecodeResult → Status
  | .error e => .error e
  | .ok i => if i.wf then .ok else .error .badOperand

section
variable {s s' : State} {p : Packet} {o : Op}

/-- R318's order for an opcode on the map, on the map's own tables. -/
theorem statusOf_of_ofCode (h : Op.ofCode (opcodeField p.header) = some o) :
    statusOf p =
      if p.payload.length ≠ o.format.payloadWords then 2
      else if (o.format.usesA = false ∧ fieldA p.header ≠ 0) ∨ (o.format.usesB = false ∧ fieldB p.header ≠ 0) then 3
      else if (instrOf o (fieldA p.header) (fieldB p.header) p.payload).wf then 0 else 4 := by
  have hA : (fieldA p.header).toNat ≠ 0 ↔ fieldA p.header ≠ 0 := not_congr (BitVec.toNat_inj (y := 0))
  have hB : (fieldB p.header).toNat ≠ 0 ↔ fieldB p.header ≠ 0 := not_congr (BitVec.toNat_inj (y := 0))
  simp only [statusOf, ← Op.code_of_ofCode h, wf_instrOf, opcodeIllegal_code, wordsAsked_code, usesFieldA_code, usesFieldB_code, hA, hB]
  cases operandBad o.code.toNat (fieldA p.header).toNat (fieldB p.header).toNat <;> rfl

/-- The status the rules' tables give a packet is the status of the decoder's answer. -/
theorem statusOf_eq_answerStatus (p : Packet) : statusOf p = (answerStatus (decode p)).code.toNat := by
  cases ho : Op.ofCode (opcodeField p.header) with
  | none =>
    have hst : statusOf p = 1 := if_pos (opcodeIllegal_of_ofCode ho)
    simp only [hst, decode, ho]
    rfl
  | some o =>
    simp only [statusOf_of_ofCode ho, decode, ho, ite_or]
    split_ifs with hl ha hb hwf
    · rfl
    · rfl
    · rfl
    · simp only [answerStatus, if_pos hwf]; rfl
    · simp only [answerStatus, if_neg hwf]; rfl

/-! ## The answer of a step (60_exceptions.md R311) -/

/-- The opcode byte of a packet that decodes is the command's. -/
theorem op_code_of_decode {i : Instr} (h : decode p = .ok i) : i.op.code = opcodeField p.header := by
  obtain ⟨o, ho, -, -, -, rfl⟩ := decode_ok h
  rw [instrOf_op, Op.code_of_ofCode ho]

/-- A step that takes a packet delivers one response that echoes the opcode; after an error it has no payload and the state is the one
the fetch left. -/
theorem step_answers (hf : fetch s = some (p, s')) :
    ∃ u w, step s = .next (State.deliver u (responsePacket (opcodeField p.header) (answerStatus (decode p)) w)) ∧ StreamsKept s' u
      ∧ (answerStatus (decode p) ≠ .ok → u = s' ∧ w = []) := by
  cases hd : decode p with
  | error e => exact ⟨s', [], step_of_decode_error hf hd, .refl s', fun _ => ⟨rfl, rfl⟩⟩
  | ok i =>
    rw [step_of_decode_ok hf hd, ← op_code_of_decode hd]
    cases hwf : i.wf with
    | true =>
      have hst : answerStatus (.ok i) = .ok := if_pos hwf
      obtain ⟨u, w, he, hk, -⟩ := exec_ok i s' hwf
      exact ⟨u, w, hst ▸ he, hk, absurd hst⟩
    | false =>
      have hst : answerStatus (.ok i) = .error .badOperand := if_neg (ne_true_of_eq_false hwf)
      exact ⟨s', [], hst ▸ exec_badOperand i s' hwf, .refl s', fun _ => ⟨rfl, rfl⟩⟩

/-- A response without payload is the one word opcode, status, 0x0000 (R311). -/
theorem responsePacket_nil (op : BitVec 8) (st : Status) :
    responsePacket op st [] = ⟨op ++ BitVec.ofNat 8 st.code.toNat ++ (0 : BitVec 16), []⟩ := by
  have hheader : op ++ st.code ++ (0 : BitVec 8) ++ (0 : BitVec 8) = op ++ st.code ++ (0 : BitVec 16) :=
    BitVec.append_assoc (x₁ := op ++ st.code) (x₂ := (0 : BitVec 8)) (x₃ := (0 : BitVec 8))
  rw [BitVec.ofNat_toNat, BitVec.setWidth_eq, ← hheader]
  rfl

end

/-- Settles O4: the status is that of the decoder's answer, with which the step's one response is delivered. -/
theorem packetErrorPriority : Obligations.PacketErrorPriority := by
  intro s s' p hf
  obtain ⟨u, w, hstep, hk, herr⟩ := step_answers hf
  have hst := statusOf_eq_answerStatus p
  refine ⟨_, responsePacket (opcodeField p.header) (answerStatus (decode p)) w, hstep, ?_, ?_,
    opcodeField_responsePacket _ _ _, ?_, fun hne => ?_⟩
  · rw [← hk.active, State.deliver_responses_active, hk.responses]
  · rw [← hk.active, State.deliver_responses_other, hk.responses]
  · rw [statusField_responsePacket, hst]
  · have hnotok : answerStatus (decode p) ≠ .ok := fun hok => hne (by rw [hst, hok]; rfl)
    obtain ⟨rfl, rfl⟩ := herr hnotok
    exact ⟨State.deliver_sansResponses _ _, by rw [hst, responsePacket_nil]⟩

end Sys2Proof.Machine
end

section
/-! SUPPORT. The power-on state (10_state.md R45; 70_reset_and_hazards.md R340), the invariant every step keeps, and what follows from the
synchronizer's transitions: those of `stat` (40_frame_sync.md R112), the output record (R121) and the lock that is never lost under the
default identifiers (43_msg_assembler.md R205). -/

namespace Sys2Proof.Machine

/-! ## The invariant in its three parts -/

/-- What `Invariant` says of the synchronizer and the length of the history. -/
structure SyncInvariant (y : SyncRegs) (len : Nat) : Prop where
  failLimit   : y.fail_count.toNat ≤ 3
  failLocked  : y.stat = .locked → y.fail_count.toNat ≤ 2
  towKnown    : y.tow_known = true → y.frame_sync = true
  frameSync   : y.frame_sync = true → y.stat = .locked
  validCycle  : y.flag_preamble = true →
                  y.frame_sync = true ∧ y.last_valid_preamble = y.sample_counter ∧ y.fail_count = 0
  historyFull : y.stat = .locked → len = 601
  historyHit  : y.stat = .possibleLock → 16 ≤ len
  towUnknown  : y.tow_known = false → y.tow_current_ms = 0 ∧ y.tow_preamble_ms = 0

/-- What `Invariant` says of the Message Assembler. -/
structure AsmInvariant (a : AsmRegs) : Prop where
  oneShot    : a.iono_valid = false ∧ a.utc_valid = false
  identifier : a.last_sfid.toNat ≤ 4

theorem invariant_iff (s : State) :
    Invariant s ↔ s.spacesWf = true ∧ SyncInvariant s.sync s.hist.length ∧ AsmInvariant s.asm := by
  constructor
  · intro h
    exact ⟨h.spaces, { h with }, { h with }⟩
  · rintro ⟨hspaces, hsync, hasm⟩
    exact { hsync, hasm with spaces := hspaces }

/-! ## Power-on -/

theorem syncInvariant_reset (len : Nat) : SyncInvariant .reset len where
  failLimit := by decide
  failLocked := nofun
  towKnown := nofun
  frameSync := nofun
  validCycle := nofun
  historyFull := nofun
  historyHit := nofun
  towUnknown _ := ⟨rfl, rfl⟩

theorem asmInvariant_reset : AsmInvariant .reset := ⟨⟨rfl, rfl⟩, by decide⟩

/-- Settles O9: register by register, from the reset values. -/
theorem powerOnValues : Obligations.PowerOnValues :=
  ⟨by decide, rfl, rfl, rfl, rfl, rfl, rfl, rfl, rfl, rfl, rfl, rfl⟩

theorem reset_spacesWf : State.reset.spacesWf = true := by
  rw [spacesWf_iff]
  refine ⟨List.length_replicate, fun y hy => ?_, List.length_replicate, Nat.zero_le _⟩
  obtain rfl := List.eq_of_mem_replicate hy
  decide

/-- Settles O10: its three parts, each for the reset values. -/
theorem powerOnSatisfiesInvariant : Obligations.PowerOnSatisfiesInvariant :=
  (invariant_iff _).2 ⟨reset_spacesWf, syncInvariant_reset _, asmInvariant_reset⟩

/-! ## The synchronizer's part through a cycle (40_frame_sync.md R103 to R120) -/

section
variable {y : SyncRegs} {len : Nat}

/-- Steps 1 to 4: a cycle begins with `flag_preamble` 0, and the history has grown unless it was full. -/
theorem syncInvariant_accepted {s : State} {len' : Nat} (h : SyncInvariant s.sync len) (hle : len ≤ len')
    (hlen' : len' ≤ 601) : SyncInvariant (acceptedSync s) len' :=
  { h with
    validCycle := nofun
    historyFull := fun hs => Nat.le_antisymm hlen' (h.historyFull hs ▸ hle)
    historyHit := fun hs => (h.historyHit hs).trans hle }

/-- A hit in NO_PREAMBLE (R113). -/
theorem syncInvariant_possibleLock (h : SyncInvariant y len) (hs : y.stat = .noPreamble) (hlen : 16 ≤ len) (index : BitVec 64) :
    SyncInvariant { y with preamble_index := index, stat := .possibleLock } len :=
  { h with
    failLocked := nofun
    frameSync := fun hf => nomatch hs.symm.trans (h.frameSync hf)
    historyFull := nofun
    historyHit := fun _ => hlen }

/-- The lock (R115): before it neither the frame nor the time was known. -/
theorem syncInvariant_lock (h : SyncInvariant y len) (hf : y.flag_preamble = false) (hlen : len = 601) (inv : Bool)
    (index : BitVec 64) :
    SyncInvariant { y with polarity_lock := inv, preamble_index := index, stat := .locked, fail_count := 0 } len :=
  { h with
    failLimit := Nat.zero_le _
    failLocked := fun _ => Nat.zero_le _
    frameSync := fun _ => rfl
    validCycle := fun hv => nomatch hf.symm.trans hv
    historyFull := fun _ => hlen
    historyHit := nofun }

/-- Falling back from POSSIBLE_LOCK (R116), where the time is not known. -/
theorem syncInvariant_fallBack (h : SyncInvariant y len) (hs : y.stat = .possibleLock) :
    SyncInvariant { y with stat := .noPreamble, tow_known := false } len := by
  have hsync : y.frame_sync ≠ true := fun hf => nomatch hs.symm.trans (h.frameSync hf)
  have htow : y.tow_known = false := Bool.eq_false_iff.2 (mt h.towKnown hsync)
  exact { h with
    failLocked := nofun
    towKnown := nofun
    frameSync := fun hf => absurd hf hsync
    historyFull := nofun
    historyHit := nofun
    towUnknown := fun _ => h.towUnknown htow }

/-- A successful attempt in LOCKED (R117). -/
theorem syncInvariant_success (h : SyncInvariant y len) (hs : y.stat = .locked) (index : BitVec 64) :
    SyncInvariant (lockedSuccess { y with preamble_index := index }) len :=
  { h with
    failLimit := Nat.zero_le _
    failLocked := fun _ => Nat.zero_le _
    towKnown := fun _ => rfl
    frameSync := fun _ => hs
    validCycle := fun _ => ⟨rfl, rfl, rfl⟩ }

/-- A failed attempt in LOCKED: one more failure, or at the third the loss of sync (R118). -/
theorem syncInvariant_failure (h : SyncInvariant y len) (hs : y.stat = .locked) (hf : y.flag_preamble = false)
    (index : BitVec 64) : SyncInvariant (lockedFailure { y with preamble_index := index }) len := by
  have hcount : (y.fail_count + 1).toNat ≤ 3 := by
    have hle := h.failLocked hs
    rw [BitVec.toNat_add]
    exact (Nat.mod_le _ _).trans (Nat.succ_le_succ hle)
  have hvalid : ∀ {P : Prop}, y.flag_preamble = true → P := fun hv => nomatch hf.symm.trans hv
  rw [lockedFailure_eq]
  split
  case isTrue =>
    exact ⟨hcount, nofun, nofun, nofun, hvalid, nofun, nofun, fun _ => ⟨rfl, rfl⟩⟩
  case isFalse hle =>
    exact { h with failLimit := hcount, failLocked := fun _ => Nat.le_of_not_lt hle, validCycle := hvalid }

/-- Step 5: by the state it starts in. -/
theorem syncInvariant_nextSync (h : SyncInvariant y len) (hf : y.flag_preamble = false) (hlen : len ≤ 601)
    {hit : Option Bool} (hhit : hit.isSome = true → 16 ≤ len) (ok : Bool) : SyncInvariant (nextSync y hit len ok) len := by
  cases hs : y.stat with
  | noPreamble =>
    rw [nextSync_noPreamble hs]
    cases hit with
    | none => exact h
    | some inv => exact syncInvariant_possibleLock h hs (hhit rfl) _
  | possibleLock =>
    rw [nextSync_possibleLock hs]
    cases hit with
    | none => exact h
    | some inv =>
      dsimp only
      split_ifs with hshort
      · exact h
      · exact syncInvariant_lock h hf (by omega) inv _
      · exact syncInvariant_fallBack h hs
      · exact h
  | locked =>
    rw [nextSync_locked hs]
    split_ifs
    · exact syncInvariant_success h hs _
    · exact syncInvariant_failure h hs hf _
    · exact h

/-- Step 6: the time becomes known on a valid preamble only, and moves only while it is known. -/
theorem syncInvariant_towSync (h : SyncInvariant y len) (period report : BitVec 32) :
    SyncInvariant (towSync period report y) len := by
  cases hf : y.flag_preamble with
  | true =>
    obtain ⟨hsync, -⟩ := h.validCycle hf
    rw [towSync_of_valid _ _ hf]
    split
    · exact h
    · exact { h with towKnown := fun _ => hsync, towUnknown := nofun }
  | false =>
    rw [towSync_of_not_valid _ _ hf]
    refine { h with towUnknown := fun (hk : y.tow_known = false) => ?_ }
    rw [advanceTow, if_neg (by simp [hk])]
    exact h.towUnknown hk

end

theorem preambleHit_isSome {h : List Sign} (hit : (preambleHit h).isSome = true) : 16 ≤ h.length := by
  by_contra hl
  rw [preambleHit, if_pos (Nat.lt_of_not_le hl)] at hit
  cases hit

theorem syncInvariant_symNext (r : Symbol) {s : State} (h : SyncInvariant s.sync s.hist.length) (hlen : s.hist.length ≤ 601) :
    SyncInvariant (symNext r s).sync (symNext r s).hist.length := by
  have hgrow : (historyAfter s r).length = min (s.hist.length + 1) 601 := by rw [historyAfter_eq, pushHist_length]
  have haccepted : SyncInvariant (acceptedSync s) (historyAfter s r).length :=
    syncInvariant_accepted h (by omega) (by omega)
  rw [symNext_towSync, symNext_hist]
  exact syncInvariant_towSync (syncInvariant_nextSync haccepted rfl (by omega) preambleHit_isSome _) _ _

/-! ## Each part under every command -/

/-- SYM, RESET and SETSAT write the synchronizer; SETSAT clears the history with it. -/
theorem exec_keeps_syncInvariant {i : Instr} {s t : State} (h : SyncInvariant s.sync s.hist.length) (hlen : s.hist.length ≤ 601)
    (he : exec i s = .next t) : SyncInvariant t.sync t.hist.length := by
  by_cases hclears : i.op ∈ [.reset, .setsat]
  case pos =>
    rw [exec_sync_of_clears he hclears]
    exact syncInvariant_reset _
  case neg =>
    by_cases hsym : i.op = .sym
    case pos =>
      obtain ⟨r, rfl⟩ := eq_sym_of_op_eq_sym hsym
      injection (exec_sym r s).symm.trans he with ht
      exact ht ▸ syncInvariant_symNext r h hlen
    case neg =>
      have hw := RespectsWriters.of_exec he
      have hsync : t.sync = s.sync := hw.sync (by simpa [hsym] using hclears)
      have hhist : t.hist = s.hist := hw.hist (by simp only [List.mem_cons] at hclears ⊢; tauto)
      rwa [hsync, hhist]

/-- The assembler's part depends on what `sfdec` leaves only. -/
theorem AssemblerLeaves.asmInvariant {s t : State} {id : Fin 5} (hl : AssemblerLeaves s t id) (h : AsmInvariant s.asm) :
    AsmInvariant t.asm where
  oneShot := ⟨hl.iono_valid h.oneShot.1, hl.utc_valid h.oneShot.2⟩
  identifier := by
    rw [hl.sfid, BitVec.toNat_ofNat]
    omega

theorem asmInvariant_cdec {s : State} (h : AsmInvariant s.asm) : AsmInvariant (cdec s).2.asm :=
  (cdec_leaves s).asmInvariant h

theorem asmInvariant_symNext (r : Symbol) {s : State} (h : AsmInvariant s.asm) : AsmInvariant (symNext r s).asm := by
  cases ha : attemptOf s r with
  | none =>
    obtain ⟨-, -, -, hasm, -⟩ := symNext_untouched r s ha
    rwa [hasm]
  | some inv =>
    obtain ⟨-, -, -, hasm, -⟩ := symNext_ran r s inv ha
    rw [hasm]
    exact asmInvariant_cdec h

/-- Four commands write the assembler's registers: three by a run of `sfdec`, SETSAT by clearing them. -/
theorem exec_keeps_asmInvariant {i : Instr} {s t : State} (h : AsmInvariant s.asm) (he : exec i s = .next t) :
    AsmInvariant t.asm := by
  by_cases hi : i.op ∈ [.sfdec, .cdec, .sym, .setsat]
  case neg => rwa [(RespectsWriters.of_exec he).asm hi]
  case pos =>
    cases i with
    | sfdec =>
      injection he with ht
      exact ht ▸ (sfdec_leaves s).asmInvariant h
    | cdec =>
      injection he with ht
      exact ht ▸ asmInvariant_cdec h
    | sym r =>
      injection he with ht
      exact ht ▸ asmInvariant_symNext r h
    | setsat prn =>
      injection he with ht
      exact ht ▸ asmInvariant_reset
    | _ => simp [Instr.op] at hi

/-- The form of the three buffers depends on no other field, so commands that write none keep it. -/
theorem exec_keeps_spacesWf {i : Instr} {s t : State} (h : s.spacesWf = true) (he : exec i s = .next t) : t.spacesWf = true := by
  cases hwf : i.wf with
  | false =>
    injection (exec_badOperand i s hwf).symm.trans he with ht
    exact ht ▸ h
  | true =>
    cases i with
    | sym r =>
      injection he with ht
      exact ht ▸ symCycle_spacesWf r s h
    | setsat prn =>
      injection he with ht
      subst ht
      rw [spacesWf_iff] at h ⊢
      obtain ⟨hsymbols, hrange, hframe, -⟩ := h
      exact ⟨hsymbols, hrange, hframe, Nat.zero_le _⟩
    | sbw index value =>
      have hi : ¬ 583 < index.toNat := Nat.not_lt.2 (of_decide_eq_true hwf)
      injection (if_neg hi).symm.trans he with ht
      exact ht ▸ setSym_spacesWf s index.toNat _ h (softOfOperand_range value)
    | deint =>
      injection he with ht
      exact ht ▸ deint_spacesWf s h
    | polcor =>
      injection he with ht
      exact ht ▸ polcor_spacesWf s h
    | vit =>
      injection he with ht
      exact ht ▸ vit_spacesWf s h
    | cdec =>
      injection he with ht
      obtain ⟨-, hrange, -, hhist⟩ := (spacesWf_iff s).1 h
      exact ht ▸ cdec_spacesWf s hrange hhist
    | fbw position bit =>
      simp only [Instr.wf, Bool.and_eq_true, decide_eq_true_eq] at hwf
      injection (if_neg (by omega)).symm.trans he with ht
      exact ht ▸ setFrameBit_spacesWf s position.toNat (decide (bit.toNat = 1)) h
    | nop | reset | sbr _ | rdu _ _ | rds _ _ | rdc _ _ | rdb _ | sfdec | chkt _ | clkrel _ | clkdrift _ | satpos _ | utctime _ _
    | rdst _ | wrp _ _ =>
      have hw := RespectsWriters.of_exec he
      rw [spacesWf_congr (hw.symbuf (by simp [Instr.op])) (hw.frame (by simp [Instr.op])) (hw.hist (by simp [Instr.op])), h]

theorem exec_keeps_invariant {i : Instr} {s t : State} (h : Invariant s) (he : exec i s = .next t) : Invariant t := by
  rw [invariant_iff] at h ⊢
  obtain ⟨hspaces, hsync, hasm⟩ := h
  obtain ⟨-, -, -, hhist⟩ := (spacesWf_iff s).1 hspaces
  exact ⟨exec_keeps_spacesWf hspaces he, exec_keeps_syncInvariant hsync hhist he, exec_keeps_asmInvariant hasm he⟩

/-- A state that differs only in its streams, the port they go to and the arbiter's counter meets the invariant too. -/
theorem Invariant.of_fetch {s s' : State} {p : Packet} (h : Invariant s) (hf : fetch s = some (p, s')) : Invariant s' := by
  obtain ⟨-, -, hf'⟩ | ⟨_, _, _, -, hf'⟩ | ⟨_, _, _, -, hf'⟩ := fetch_cases s
  case inl => simp [hf'] at hf
  case inr.inl =>
    injection hf'.symm.trans hf with hpair
    obtain ⟨-, rfl⟩ := Prod.mk.inj hpair
    exact { h with }
  case inr.inr =>
    injection hf'.symm.trans hf with hpair
    obtain ⟨-, rfl⟩ := Prod.mk.inj hpair
    exact { h with }

/-- Settles O11: by what the step does; the fetch writes no register, an error adds a response, and a command keeps the invariant part
by part. -/
theorem stepKeepsInvariant : Obligations.StepKeepsInvariant := by
  intro s t h hstep
  obtain ⟨-, rfl⟩ | ⟨p, s', e, hf, -, rfl⟩ | ⟨p, s', i, hf, -, he⟩ := step_cases hstep
  · exact h
  · exact { h.of_fetch hf with }
  · exact exec_keeps_invariant (h.of_fetch hf) he

/-! ## The transitions of `stat` (40_frame_sync.md R112) -/

/-- The transitions of `stat` a SYM can make (R112). -/
def symTransitions : List (SyncStat × SyncStat) :=
  [(.noPreamble, .possibleLock), (.possibleLock, .locked), (.possibleLock, .noPreamble), (.locked, .noPreamble)]

/-- Step 5 makes one of the four transitions or none, and POSSIBLE_LOCK kept is left with its index. -/
theorem nextSync_transition (y : SyncRegs) (hit : Option Bool) (len : Nat) (ok : Bool) :
    ((nextSync y hit len ok).stat ≠ y.stat → (y.stat, (nextSync y hit len ok).stat) ∈ symTransitions)
    ∧ (y.stat = .possibleLock → (nextSync y hit len ok).stat = .possibleLock →
        (nextSync y hit len ok).preamble_index = y.preamble_index) := by
  cases hs : y.stat with
  | noPreamble =>
    rw [nextSync_noPreamble hs]
    cases hit with
    | none => exact ⟨absurd hs, nofun⟩
    | some inv => exact ⟨fun _ => by simp [symTransitions], nofun⟩
  | possibleLock =>
    rw [nextSync_possibleLock hs]
    cases hit with
    | none => exact ⟨absurd hs, fun _ _ => rfl⟩
    | some inv =>
      dsimp only
      split_ifs
      · exact ⟨absurd hs, fun _ _ => rfl⟩
      · exact ⟨fun _ => by simp [symTransitions], nofun⟩
      · exact ⟨fun _ => by simp [symTransitions], nofun⟩
      · exact ⟨absurd hs, fun _ _ => rfl⟩
  | locked =>
    rw [nextSync_locked hs, lockedFailure_eq]
    split_ifs
    · exact ⟨absurd hs, nofun⟩
    · exact ⟨fun _ => by simp [symTransitions], nofun⟩
    · exact ⟨absurd hs, nofun⟩
    · exact ⟨absurd hs, nofun⟩

theorem symNext_transition (r : Symbol) (s : State) :
    ((symNext r s).sync.stat ≠ s.sync.stat → (s.sync.stat, (symNext r s).sync.stat) ∈ symTransitions)
    ∧ (s.sync.stat = .possibleLock → (symNext r s).sync.stat = .possibleLock →
        (symNext r s).sync.preamble_index = s.sync.preamble_index) := by
  rw [symNext_towSync, towSync_stat, towSync_preamble_index]
  exact nextSync_transition (acceptedSync s) _ _ _

/-- Settles O18: RESET and SETSAT clear the synchronizer, SYM makes the transitions of step 5, and no other command writes it. -/
theorem statTransitions : Obligations.StatTransitions := by
  refine ⟨rfl, fun i s t he => ?_⟩
  have hcleared : i.op ∈ [.reset, .setsat] → t.sync.stat = .noPreamble := fun hi => by
    rw [exec_sync_of_clears he hi]
    rfl
  have hkept := (RespectsWriters.of_exec he).sync
  by_cases hsym : i.op = .sym
  case pos =>
    obtain ⟨r, rfl⟩ := eq_sym_of_op_eq_sym hsym
    injection (exec_sym r s).symm.trans he with ht
    subst ht
    obtain ⟨htransition, hindex⟩ := symNext_transition r s
    exact ⟨hcleared, fun hi => absurd (by simp [hsym]) hi, fun _ => htransition, hindex⟩
  case neg =>
    refine ⟨hcleared, fun hi => congrArg _ (hkept hi), fun h => absurd h hsym, fun _ hlock => ?_⟩
    have hi : i.op ∉ [.sym, .reset, .setsat] := fun hm => by
      rcases List.mem_cons.1 hm with h | h
      · exact hsym h
      · exact nomatch hlock.symm.trans (hcleared h)
    exact congrArg _ (hkept hi)

/-! ## The output record (40_frame_sync.md R121) -/

/-- Settles O24: step 7 appends its record to OUT exactly when the time of week is known. -/
theorem outputRecordEmitted : Obligations.OutputRecord := by
  intro r s
  refine ⟨symNext r s, exec_sym r s, ?_⟩
  rw [symNext_out]
  split
  · rfl
  · rfl

/-! ## The default identifiers (43_msg_assembler.md R201, R205) -/

/-- The two-bit field names one of the four raw values the default map lists. -/
theorem frameSfid_default_ne_zero (frame : List Bool) : frameSfid defaultParams frame ≠ 0 := by
  have hraw : readUnsigned frame defaultParams.FIELD_TABLE.sfid < 4 := by
    have hvalue : readUnsigned frame defaultParams.FIELD_TABLE.sfid = sliceValue frame ⟨28, 2⟩ := Nat.zero_add _
    rw [hvalue]
    exact sliceValue_lt frame ⟨28, 2⟩
  have hmap : ∀ raw < 4, mapSfid defaultSfidMap raw ≠ 0 := by decide
  exact hmap _ hraw

/-- Settles O28: on the pace, the attempt of LOCKED with a full history finds an identifier, so it is a success. -/
theorem defaultIdentifierIsNeverZero : Obligations.DefaultIdentifierIsNeverZero := by
  refine ⟨frameSfid_default_ne_zero, fun r s hp hl hs => ?_⟩
  obtain ⟨t, ht, -, hcycle⟩ := lockedCycle r s hs
  have hfull : 600 ≤ (historyAfter s r).length := by
    rw [historyAfter_eq, pushHist_length]
    omega
  have hid : windowIdentifier s s.sync.polarity_lock (historyAfter s r) ≠ 0 := by
    rw [windowIdentifier, hp]
    exact frameSfid_default_ne_zero _
  refine ⟨t, ht, ?_⟩
  generalize historyAfter s r = h at hfull hid hcycle
  dsimp only at hcycle
  split at hcycle
  next =>
    obtain ⟨hstat, -, hfail, -⟩ := hcycle
    exact ⟨hstat, .inl hfail⟩
  next =>
    obtain ⟨-, -, hcycle⟩ := hcycle
    rw [if_pos ⟨hfull, hid⟩] at hcycle
    obtain ⟨hstat, hfail, -⟩ := hcycle
    exact ⟨hstat, .inr hfail⟩

end Sys2Proof.Machine
end

section
/-! SUPPORT. The convolutional code (41_conv_decoder.md R149, R150) and the Viterbi decoder: the algorithm by the spec's indices (R151 to
R156), its optimality over all messages (00_scope.md, glossary), and the exact decoding of an error-free encoding (R161). -/

namespace Sys2Proof.Machine

/-! ## The code (R149, R150) -/

theorem encodeBit_eq (u : Bool) : ∀ s, s < 64 →
    encodeBit u s =
      (u ^^ s.testBit 5 ^^ s.testBit 4 ^^ s.testBit 3 ^^ s.testBit 0, u ^^ s.testBit 4 ^^ s.testBit 3 ^^ s.testBit 1 ^^ s.testBit 0) := by
  cases u <;> decide

theorem nextState_eq (u : Bool) (s : Nat) : nextState u s = u.toNat * 32 + s / 2 := by
  unfold nextState codeReg
  omega

theorem nextState_lt (u : Bool) {s : Nat} (hs : s < 64) : nextState u s < 64 := by
  have := u.toNat_le
  rw [nextState_eq]
  omega

/-- The bit that entered a six-bit state is its upper half. -/
theorem enteringBit_eq {s : Nat} (hs : s < 64) : enteringBit s = decide (32 ≤ s) := by
  rw [enteringBit, Nat.testBit_eq_decide_div_mod_eq]
  exact decide_eq_decide.2 (by omega)

theorem toNat_enteringBit {s : Nat} (hs : s < 64) : (enteringBit s).toNat = s / 32 := by
  rw [enteringBit_eq hs]
  by_cases h : 32 ≤ s
  · rw [decide_eq_true h, Bool.toNat_true]; omega
  · rw [decide_eq_false h, Bool.toNat_false]; omega

/-- Both predecessors reach the state on the bit that entered it (R150). -/
theorem nextState_predecessor {s : Nat} (hs : s < 64) (b : Bool) : nextState (enteringBit s) (predecessor s b) = s := by
  have := b.toNat_le
  rw [nextState_eq, toNat_enteringBit hs, predecessor]
  omega

/-- A state is the predecessor of its successor that its oldest bit names, and the input enters there (R150). -/
theorem nextState_spec (u : Bool) {p : Nat} (hp : p < 64) :
    enteringBit (nextState u p) = u ∧ predecessor (nextState u p) (decide (p % 2 = 1)) = p := by
  constructor
  · rw [enteringBit_eq (nextState_lt u hp), nextState_eq]
    cases u with
    | false => exact decide_eq_false (by rw [Bool.toNat_false]; omega)
    | true => exact decide_eq_true (by rw [Bool.toNat_true]; omega)
  · rw [predecessor, nextState_eq]
    by_cases h : p % 2 = 1
    · rw [decide_eq_true h, Bool.toNat_true]; omega
    · rw [decide_eq_false h, Bool.toNat_false]; omega

theorem nextState_eq_iff (u : Bool) {p s' : Nat} (hp : p < 64) (hs' : s' < 64) :
    nextState u p = s' ↔ u = s'.testBit 5 ∧ (p = s' % 32 * 2 ∨ p = s' % 32 * 2 + 1) := by
  constructor
  · rintro rfl
    refine ⟨(nextState_spec u hp).1.symm, ?_⟩
    rw [nextState_eq]
    omega
  · rintro ⟨rfl, rfl | rfl⟩
    · exact nextState_predecessor hs' false
    · exact nextState_predecessor hs' true

/-- Settles O33: the taps on the 128 registers, the shift, and the encoder run on a single 1. -/
theorem convolutionalCode : Obligations.ConvolutionalCode :=
  ⟨fun u s hs => ⟨encodeBit_eq u s hs, nextState_eq u s⟩, fun u _ _ hp hs' => nextState_eq_iff u hp hs', by decide⟩

/-! ## The encoder, bit after bit -/

/-- The encoder's state after a message. -/
def encoderState (s : Nat) (m : List Bool) : Nat := m.foldl (fun s u => nextState u s) s

theorem encoderState_concat (s : Nat) (m : List Bool) (u : Bool) :
    encoderState s (m ++ [u]) = nextState u (encoderState s m) := by
  simp [encoderState]

theorem encoderState_lt {s : Nat} (hs : s < 64) (m : List Bool) : encoderState s m < 64 := by
  induction m using List.reverseRecOn with
  | nil => exact hs
  | append_singleton m u ih =>
    rw [encoderState_concat]
    exact nextState_lt u ih

theorem convEncode_concat (s : Nat) (m : List Bool) (u : Bool) :
    convEncode s (m ++ [u]) = convEncode s m ++ [encodeBit u (encoderState s m)] := by
  induction m generalizing s with
  | nil => rfl
  | cons v m ih => exact congrArg (encodeBit v s :: ·) (ih (nextState v s))

@[simp] theorem convEncode_length (s : Nat) (m : List Bool) : (convEncode s m).length = m.length := by
  induction m generalizing s with
  | nil => rfl
  | cons u m ih => exact congrArg (· + 1) (ih (nextState u s))

/-- The `G1` bit tells the two inputs of a state apart. -/
theorem encodeBit_injective {u v : Bool} {s : Nat} (hs : s < 64) (h : encodeBit u s = encodeBit v s) : u = v := by
  rw [encodeBit_eq u s hs, encodeBit_eq v s hs] at h
  simpa using congrArg Prod.fst h

theorem convEncode_injective {s : Nat} (hs : s < 64) {m m' : List Bool} (h : convEncode s m = convEncode s m') : m = m' := by
  induction m generalizing s m' with
  | nil => cases m' with
    | nil => rfl
    | cons _ _ => cases h
  | cons u m ih => cases m' with
    | nil => cases h
    | cons v m' =>
      obtain ⟨hbit, hrest⟩ := List.cons.inj h
      obtain rfl := encodeBit_injective hs hbit
      rw [ih (nextState_lt u hs) hrest]

/-! ## Costs (R151) -/

/-- The cost of code bits against the `k`-th pair of symbols. -/
def pairCost (buf : List Int) (c : Bool × Bool) (k : Nat) : Nat :=
  bitCost c.1 (symAt buf (2 * k)) + bitCost c.2 (symAt buf (2 * k + 1))

theorem messageCost_eq (buf : List Int) (m : List Bool) :
    messageCost buf m = ((convEncode 0 m).zipIdx.map fun x => pairCost buf x.1 x.2).sum := rfl

theorem messageCost_concat (buf : List Int) (m : List Bool) (u : Bool) :
    messageCost buf (m ++ [u]) = messageCost buf m + pairCost buf (encodeBit u (encoderState 0 m)) m.length := by
  simp [messageCost_eq, convEncode_concat, List.zipIdx_append]

/-! ## The metrics of R152, R153 -/

theorem branchMetric_eq (buf : List Int) (pm : Nat → Metric) (k s : Nat) (b : Bool) :
    branchMetric buf pm k s b
      = metricPlus (pm (predecessor s b)) (pairCost buf (encodeBit (enteringBit s) (predecessor s b)) k) := rfl

theorem metricPlus_ne_none {m : Metric} {x : Nat} : metricPlus m x ≠ none ↔ m ≠ none := by
  cases m <;> simp [metricPlus]

theorem metricPlus_mono {a b : Metric} (h : metricLess a b = false) (x : Nat) :
    metricLess (metricPlus a x) (metricPlus b x) = false := by
  cases a <;> cases b <;> simp_all [metricPlus, metricLess]

theorem ne_none_of_not_less {a b : Metric} (h : metricLess a b = false) (ha : a ≠ none) : b ≠ none := by
  rintro rfl
  cases a with
  | none => exact ha rfl
  | some x => cases h

/-- A state's metric is that of the branch from the surviving predecessor. -/
theorem pathMetric_survivor (buf : List Int) (k s : Nat) :
    pathMetric buf (k + 1) s = branchMetric buf (pathMetric buf k) k s (survivor buf k s) := by
  simp only [pathMetric, survivor]
  cases metricLess (branchMetric buf (pathMetric buf k) k s true) (branchMetric buf (pathMetric buf k) k s false) <;> rfl

/-- It is no more than that of either branch. -/
theorem pathMetric_le_branch (buf : List Int) (k s : Nat) (b : Bool) :
    metricLess (branchMetric buf (pathMetric buf k) k s b) (pathMetric buf (k + 1) s) = false := by
  simp only [pathMetric]
  split
  case isTrue h =>
    cases b with
    | false => exact metricLess_asymm h
    | true => exact metricLess_irrefl _
  case isFalse h =>
    cases b with
    | false => exact metricLess_irrefl _
    | true => exact Bool.eq_false_iff.2 h

/-- No message that ends in a state costs less than the state's metric. -/
theorem pathMetric_le_messageCost (buf : List Int) (m : List Bool) :
    metricLess (some (messageCost buf m)) (pathMetric buf m.length (encoderState 0 m)) = false := by
  induction m using List.reverseRecOn with
  | nil => rfl
  | append_singleton m u ih =>
    have hbranch := pathMetric_le_branch buf m.length (nextState u (encoderState 0 m)) (decide (encoderState 0 m % 2 = 1))
    obtain ⟨hbit, hpred⟩ := nextState_spec u (encoderState_lt (s := 0) (by decide) m)
    rw [branchMetric_eq, hbit, hpred] at hbranch
    rw [messageCost_concat, encoderState_concat, List.length_append, List.length_singleton]
    exact metricLess_trans_le hbranch (metricPlus_mono ih _)

/-- Every state a message ends in is reached. -/
theorem pathMetric_encoderState_ne_none (buf : List Int) (m : List Bool) : pathMetric buf m.length (encoderState 0 m) ≠ none :=
  ne_none_of_not_less (pathMetric_le_messageCost buf m) nofun

/-! ## The decoded path (R154, R155) -/

/-- The states of the traceback, forward: each is the surviving predecessor of the next. -/
structure SurvivorPath (buf : List Int) (n : Nat) (path : Nat → Nat) : Prop where
  lt       : ∀ k, path k < 64
  survives : ∀ k, k < n → path k = predecessor (path (k + 1)) (survivor buf k (path (k + 1)))

/-- The traceback from an end state, read forward. -/
def tracedPath (buf : List Int) (e k : Nat) : Nat := tracedState buf e (292 - k)

theorem survivorPath_traced (buf : List Int) {e : Nat} (he : e < 64) : SurvivorPath buf 292 (tracedPath buf e) where
  lt k := tracedState_lt buf e he _
  survives k hk := by
    have hj : 292 - k = (292 - (k + 1)) + 1 := by omega
    have hstep : 291 - (292 - (k + 1)) = k := by omega
    rw [tracedPath, hj]
    simp only [tracedState, hstep, tracedPath, predecessor]

/-- The message of the bits that enter a survivor path's states costs the metric the path ends in, and takes the encoder along the
path. -/
theorem messageCost_of_survivorPath {buf : List Int} {path : Nat → Nat} (d : List Bool) (hp : SurvivorPath buf d.length path)
    (hreached : pathMetric buf d.length (path d.length) ≠ none)
    (hd : ∀ k, k < d.length → d[k]? = some (enteringBit (path (k + 1)))) :
    encoderState 0 d = path d.length ∧ pathMetric buf d.length (path d.length) = some (messageCost buf d) := by
  induction d using List.reverseRecOn with
  | nil =>
    have hstart : path 0 = 0 := by
      by_contra h
      exact hreached (if_neg h)
    exact ⟨hstart.symm, if_pos hstart⟩
  | append_singleton d u ih =>
    rw [List.length_append, List.length_singleton] at *
    have hu : u = enteringBit (path (d.length + 1)) := by simpa using hd d.length (by omega)
    have hmetric := pathMetric_survivor buf d.length (path (d.length + 1))
    rw [branchMetric_eq, ← hp.survives d.length (by omega), ← hu] at hmetric
    have hprev : ∀ k, k < d.length → d[k]? = some (enteringBit (path (k + 1))) := fun k hk => by
      rw [← hd k (by omega), List.getElem?_append_left hk]
    obtain ⟨hstate, hcost⟩ := ih ⟨hp.lt, fun k hk => hp.survives k (by omega)⟩
      (metricPlus_ne_none.1 (hmetric ▸ hreached)) hprev
    constructor
    · rw [encoderState_concat, hstate, hp.survives d.length (by omega), hu]
      exact nextState_predecessor (hp.lt _) _
    · rw [hmetric, hcost, messageCost_concat, hstate]
      rfl

/-! ## The decoder (R151 to R156) -/

/-- State 0 is always reached, by the message of zeros, so the end state is. -/
theorem pathMetric_ne_none_of_least {buf : List Int} {n e : Nat}
    (hle : ∀ x, x < 64 → metricLess (pathMetric buf n x) (pathMetric buf n e) = false) : pathMetric buf n e ≠ none := by
  have hzeros := pathMetric_encoderState_ne_none buf (List.replicate n false)
  have hlt := encoderState_lt (s := 0) (by decide) (List.replicate n false)
  rw [List.length_replicate] at hzeros
  exact ne_none_of_not_less (hle _ hlt) hzeros

/-- Settles O34: `viterbi_spec`, with the end state reached. -/
theorem vitFollowsTheSpecAlgorithm : Obligations.VitFollowsTheSpecAlgorithm := by
  intro s hl
  obtain ⟨e, he, hle, hmin, hbits⟩ := viterbi_spec s.symbuf hl
  refine ⟨{ s with frame := viterbi s.symbuf }, e, rfl, rfl, ?_, he, pathMetric_ne_none_of_least hle, hle, hmin, fun k hk => ?_⟩
  · rw [viterbi_length, hl]
  · exact (List.getD_eq_getElem?_getD ..).trans (congrArg (·.getD false) (hbits k hk))

/-- The decoded message costs no more than any other of its length. -/
theorem messageCost_viterbi_le {buf : List Int} (hl : buf.length = 584) {m : List Bool} (hm : m.length = 292) :
    messageCost buf (viterbi buf) ≤ messageCost buf m := by
  obtain ⟨e, he, hle, -, hbits⟩ := viterbi_spec buf hl
  have hlen : (viterbi buf).length = 292 := by rw [viterbi_length, hl]
  have hpath : tracedPath buf e 292 = e := rfl
  obtain ⟨-, hcost⟩ := messageCost_of_survivorPath (buf := buf) (path := tracedPath buf e) (viterbi buf)
    (hlen ▸ survivorPath_traced buf he) (by rw [hlen, hpath]; exact pathMetric_ne_none_of_least hle)
    fun k hk => (hbits k (hlen ▸ hk)).trans (by rw [tracedPath, show 292 - (k + 1) = 291 - k by omega])
  rw [hlen, hpath] at hcost
  have hlower := pathMetric_le_messageCost buf m
  rw [hm] at hlower
  have h := metricLess_trans_le (hle _ (encoderState_lt (by decide) m)) hlower
  rw [hcost] at h
  exact Nat.le_of_not_lt (of_decide_eq_false h)

/-- Settles O36: the decoded path costs the least metric, below which no message's cost lies. -/
theorem viterbiIsMaximumLikelihood : Obligations.ViterbiIsMaximumLikelihood := fun buf _ hl hm =>
  ⟨by rw [viterbi_length, hl], messageCost_viterbi_le hl hm⟩

/-! ## Error-free symbols (R160, R161) -/

/-- The symbol of a code bit. -/
def softBit (a : Int) (c : Bool) : Int := if c then a else -a

theorem bitCost_softBit {a : Int} (ha : 1 ≤ a) (c c' : Bool) : bitCost c (softBit a c') = 0 ↔ c = c' := by
  cases c <;> cases c' <;> simp [bitCost, softBit] <;> omega

theorem symbolsOf_length (a : Int) (code : List (Bool × Bool)) : (symbolsOf a code).length = 2 * code.length := by
  induction code with
  | nil => rfl
  | cons c code ih =>
    rw [List.length_cons, Nat.mul_succ, ← ih]
    rfl

theorem symAt_symbolsOf (a : Int) {code : List (Bool × Bool)} {k : Nat} {c : Bool × Bool} (h : code[k]? = some c) :
    symAt (symbolsOf a code) (2 * k) = softBit a c.1 ∧ symAt (symbolsOf a code) (2 * k + 1) = softBit a c.2 := by
  induction code generalizing k with
  | nil => cases h
  | cons c' code ih =>
    cases k with
    | zero =>
      cases h
      exact ⟨rfl, rfl⟩
    | succ k => exact ih (k := k) h

/-- Against the symbols of a code, the pairs of cost 0 are the code's own. -/
theorem pairCost_symbolsOf {a : Int} (ha : 1 ≤ a) {code : List (Bool × Bool)} {k : Nat} {c : Bool × Bool}
    (h : code[k]? = some c) (c' : Bool × Bool) : pairCost (symbolsOf a code) c' k = 0 ↔ c' = c := by
  obtain ⟨h0, h1⟩ := symAt_symbolsOf a h
  rw [pairCost, h0, h1, Nat.add_eq_zero_iff, bitCost_softBit ha, bitCost_softBit ha, Prod.ext_iff]

/-- A message costs nothing against the symbols of a code of its length exactly when the code is its encoding. -/
theorem messageCost_symbolsOf {a : Int} (ha : 1 ≤ a) {code : List (Bool × Bool)} {m : List Bool} (hl : m.length = code.length) :
    messageCost (symbolsOf a code) m = 0 ↔ convEncode 0 m = code := by
  have hlen : (convEncode 0 m).length = code.length := by rw [convEncode_length, hl]
  rw [messageCost_eq, List.sum_eq_zero_iff, List.forall_mem_map]
  constructor
  · intro h
    refine List.ext_getElem hlen fun k hk hk' => ?_
    have hmem : ((convEncode 0 m)[k], k) ∈ (convEncode 0 m).zipIdx := by
      rw [List.mem_zipIdx_iff_getElem?]
      exact List.getElem?_eq_getElem hk
    exact (pairCost_symbolsOf ha (List.getElem?_eq_getElem hk') _).1 (h _ hmem)
  · rintro h ⟨c, k⟩ hmem
    rw [List.mem_zipIdx_iff_getElem?, h] at hmem
    exact (pairCost_symbolsOf ha hmem c).2 rfl

/-- The decoded message costs no more than the sent one, nothing, and the sent one alone costs nothing. -/
theorem viterbi_symbolsOf {a : Int} (ha : 1 ≤ a) {m : List Bool} (hm : m.length = 292) :
    viterbi (symbolsOf a (convEncode 0 m)) = m := by
  have hlen : (symbolsOf a (convEncode 0 m)).length = 584 := by rw [symbolsOf_length, convEncode_length, hm]
  have hsent : messageCost (symbolsOf a (convEncode 0 m)) m = 0 := (messageCost_symbolsOf ha (by simp)).2 rfl
  have hdecoded := messageCost_viterbi_le hlen hm
  rw [hsent, Nat.le_zero] at hdecoded
  exact convEncode_injective (by decide) ((messageCost_symbolsOf ha (by rw [viterbi_length, hlen, convEncode_length, hm])).1 hdecoded)

/-- Settles O35: VIT writes the decoded message, which is the one sent. -/
theorem errorFreeEncodingDecodesExactly : Obligations.ErrorFreeEncodingDecodesExactly := by
  intro s m a hm ha _ hs
  have hvit : exec .vit s = .next (State.respond { s with frame := viterbi s.symbuf } 0x14 []) := rfl
  rw [hvit, hs, viterbi_symbolsOf ha hm]

end Sys2Proof.Machine
end

section
/-! SUPPORT. Several commands of the Bit-Field Codec in sequence (42_bitfield.md): a slice list read piece by piece (R188) and a signed
field written bit by bit and read back (R189). -/

namespace Sys2Proof.Machine

/-! ## Commands in sequence -/

theorem runAll_cons {i : Instr} {s t : State} (h : exec i s = .next t) (is : List Instr) : runAll (i :: is) s = runAll is t := by
  simp only [runAll, h]

theorem runAll_append {is : List Instr} {s t : State} (h : runAll is s = some t) (js : List Instr) :
    runAll (is ++ js) s = runAll js t := by
  induction is generalizing s with
  | nil =>
    cases h
    rfl
  | cons i is ih =>
    simp only [List.cons_append, runAll] at h ⊢
    split at h
    · exact ih h
    · cases h
    · cases h

/-! ## The codec's reads of a slice given by its numbers (R184 to R186) -/

section
variable {x : Slice} (h : x.valid = true) (s : State)
include h

/-- The operands that name a valid slice are its numbers. -/
theorem slice_of_operands : Slice.mk (BitVec.ofNat 16 x.start).toNat (BitVec.ofNat 8 x.length).toNat = x := by
  obtain ⟨hstart, hlength, hfits, hend⟩ := (slice_valid_iff x).1 h
  rw [BitVec.toNat_ofNat, BitVec.toNat_ofNat, Nat.mod_eq_of_lt (by omega), Nat.mod_eq_of_lt (by omega)]

theorem exec_rdu_slice :
    exec (.rdu (BitVec.ofNat 16 x.start) (BitVec.ofNat 8 x.length)) s
      = .next (respondAcc { s with acc := BitVec.ofNat 64 (sliceValue s.frame x) } 0x21) := by
  simp only [exec, execRdu, slice_of_operands h, h, if_true, completes]

theorem exec_rds_slice :
    exec (.rds (BitVec.ofNat 16 x.start) (BitVec.ofNat 8 x.length)) s
      = .next (respondAcc { s with acc := BitVec.ofInt 64 (sliceSigned s.frame x) } 0x22) := by
  simp only [exec, execRds, slice_of_operands h, h, if_true, completes]

theorem exec_rdc_slice :
    exec (.rdc (BitVec.ofNat 16 x.start) (BitVec.ofNat 8 x.length)) s
      = .next (respondAcc { s with acc := accumulate s.acc s.frame x } 0x23) := by
  simp only [exec, execRdc, slice_of_operands h, h, if_true, completes]

end

/-! ## A slice list as one number (R183) -/

/-- A number continued by the slices of a list, each in the low bits freed for it. -/
def readFrom (frame : List Bool) (z : Int) (l : List Slice) : Int :=
  l.foldl (fun z x => z * 2 ^ x.length + sliceValue frame x) z

theorem readFrom_cons (frame : List Bool) (z : Int) (x : Slice) (l : List Slice) :
    readFrom frame z (x :: l) = readFrom frame (z * 2 ^ x.length + sliceValue frame x) l := rfl

theorem readFrom_natCast (frame : List Bool) (n : Nat) (l : List Slice) :
    ((l.foldl (fun n x => n * 2 ^ x.length + sliceValue frame x) n : Nat) : Int) = readFrom frame n l := by
  induction l generalizing n with
  | nil => rfl
  | cons x l ih =>
    refine (ih _).trans ?_
    rw [readFrom_cons, Nat.cast_add, Nat.cast_mul, Nat.cast_pow, Nat.cast_ofNat]

theorem readUnsigned_cons (frame : List Bool) (x : Slice) (l : List Slice) :
    (readUnsigned frame (x :: l) : Int) = readFrom frame (sliceValue frame x) l := by
  rw [← readFrom_natCast, readUnsigned, List.foldl_cons, Nat.zero_mul, Nat.zero_add]

theorem totalLength_cons (x : Slice) (l : List Slice) : totalLength (x :: l) = x.length + totalLength l := rfl

/-- What stands before the list is moved up by its length. -/
theorem readFrom_sub (frame : List Bool) (z c : Int) (l : List Slice) :
    readFrom frame (z - c) l = readFrom frame z l - c * 2 ^ totalLength l := by
  induction l generalizing z c with
  | nil => simp [readFrom, totalLength]
  | cons x l ih =>
    have hstep : (z - c) * 2 ^ x.length + sliceValue frame x = z * 2 ^ x.length + sliceValue frame x - c * 2 ^ x.length := by ring
    rw [readFrom_cons, readFrom_cons, hstep, ih, totalLength_cons, pow_add, mul_assoc]

/-- The sign of a list is that of its first slice. -/
theorem readSigned_cons (frame : List Bool) (x : Slice) (l : List Slice) :
    readSigned frame (x :: l) = readFrom frame (sliceSigned frame x) l := by
  simp only [readSigned, sliceSigned, readUnsigned_cons]
  split
  · rw [readFrom_sub, totalLength_cons, pow_add]
  · rfl

/-! ## RDC after RDC (R186) -/

/-- The freed bits of ACC are zeros, so putting the slice there adds it. -/
theorem accumulate_eq_add (acc : BitVec 64) (frame : List Bool) (x : Slice) :
    accumulate acc frame x = acc * BitVec.ofInt 64 (2 ^ x.length) + BitVec.ofNat 64 (sliceValue frame x) := by
  have hdisjoint : (acc <<< x.length) &&& BitVec.ofNat 64 (sliceValue frame x) = 0 := by
    refine BitVec.eq_of_getLsbD_eq fun j hj => ?_
    rw [BitVec.getLsbD_and, BitVec.getLsbD_shiftLeft, getLsbD_ofNat_sliceValue frame x hj]
    by_cases hlow : j < x.length <;> simp [hlow]
  have hpow : BitVec.ofInt 64 (2 ^ x.length) = BitVec.twoPow 64 x.length := by
    have hcast : (2 ^ x.length : Int) = ((2 ^ x.length : Nat) : Int) := by push_cast; rfl
    refine BitVec.eq_of_toNat_eq ?_
    rw [hcast, BitVec.ofInt_natCast, BitVec.toNat_ofNat, BitVec.toNat_twoPow]
  rw [accumulate, ← BitVec.add_eq_or_of_and_eq_zero _ _ hdisjoint, hpow, BitVec.shiftLeft_eq_mul_twoPow]

theorem accumulate_ofInt (z : Int) (frame : List Bool) (x : Slice) :
    accumulate (BitVec.ofInt 64 z) frame x = BitVec.ofInt 64 (z * 2 ^ x.length + sliceValue frame x) := by
  rw [accumulate_eq_add, BitVec.ofInt_add, BitVec.ofInt_mul, BitVec.ofInt_natCast]

/-- The commands that read the further slices of a list. -/
def furtherReads (l : List Slice) : List Instr :=
  l.map fun x => .rdc (BitVec.ofNat 16 x.start) (BitVec.ofNat 8 x.length)

theorem runAll_furtherReads {l : List Slice} (hl : ∀ x ∈ l, x.valid = true) {s : State} {z : Int} (hz : s.acc = BitVec.ofInt 64 z) :
    ∃ t, runAll (furtherReads l) s = some t ∧ t.acc = BitVec.ofInt 64 (readFrom s.frame z l) := by
  induction l generalizing s z with
  | nil => exact ⟨s, rfl, hz⟩
  | cons x l ih =>
    obtain ⟨hx, hl⟩ := List.forall_mem_cons.1 hl
    have hacc : accumulate s.acc s.frame x = BitVec.ofInt 64 (z * 2 ^ x.length + sliceValue s.frame x) := by
      rw [hz, accumulate_ofInt]
    obtain ⟨t, hrun, ht⟩ := ih hl (s := respondAcc { s with acc := accumulate s.acc s.frame x } 0x23) hacc
    exact ⟨t, (runAll_cons (exec_rdc_slice hx s) _).trans hrun, ht⟩

/-- Settles O40: the first read leaves the first slice's number in ACC, and each further one continues it. -/
theorem multiSliceReads : Obligations.MultiSliceReads := by
  intro s first rest hvalid _
  obtain ⟨hfirst, hrest⟩ := List.forall_mem_cons.1 hvalid
  constructor
  · have hvalue : BitVec.ofInt 64 (readFrom s.frame (sliceValue s.frame first) rest)
        = BitVec.ofNat 64 (readUnsigned s.frame (first :: rest)) := by
      rw [← readUnsigned_cons, BitVec.ofInt_natCast]
    obtain ⟨t, hrun, ht⟩ := runAll_furtherReads hrest
      (s := respondAcc { s with acc := BitVec.ofNat 64 (sliceValue s.frame first) } 0x21) (BitVec.ofInt_natCast ..).symm
    exact ⟨t, (runAll_cons (exec_rdu_slice hfirst s) _).trans hrun, ht.trans hvalue⟩
  · have hvalue : readFrom s.frame (sliceSigned s.frame first) rest = readSigned s.frame (first :: rest) :=
      (readSigned_cons s.frame first rest).symm
    obtain ⟨t, hrun, ht⟩ := runAll_furtherReads hrest
      (s := respondAcc { s with acc := BitVec.ofInt 64 (sliceSigned s.frame first) } 0x22) rfl
    exact ⟨t, (runAll_cons (exec_rds_slice hfirst s) _).trans hrun, ht.trans (congrArg _ hvalue)⟩

/-! ## A field written bit by bit (R182, R189) -/

/-- The commands that write the first `k` bits of the `n`-bit code `c` from a position on, the most significant first. -/
def bitWrites (start n c k : Nat) : List Instr :=
  (List.range k).map fun j => .fbw (BitVec.ofNat 16 (start + j)) (BitVec.ofNat 8 (c / 2 ^ (n - 1 - j) % 2))

theorem bitWrites_succ (start n c k : Nat) :
    bitWrites start n c (k + 1)
      = bitWrites start n c k ++ [.fbw (BitVec.ofNat 16 (start + k)) (BitVec.ofNat 8 (c / 2 ^ (n - 1 - k) % 2))] := by
  simp [bitWrites, List.range_succ]

/-- FBW of bit `i` of a code, at a position of the frame. -/
theorem exec_fbw_codeBit {s : State} (hwf : s.spacesWf = true) {p : Nat} (hp1 : 1 ≤ p) (hp2 : p ≤ 292) (c i : Nat) :
    ∃ t, exec (.fbw (BitVec.ofNat 16 p) (BitVec.ofNat 8 (c / 2 ^ i % 2))) s = .next t ∧ t.spacesWf = true
      ∧ frameBit t.frame p = c.testBit i ∧ ∀ q, 1 ≤ q → q ≠ p → frameBit t.frame q = frameBit s.frame q := by
  have hbit : c / 2 ^ i % 2 < 2 := Nat.mod_lt _ (by decide)
  have hposition : (BitVec.ofNat 16 p).toNat = p := by rw [BitVec.toNat_ofNat, Nat.mod_eq_of_lt (by omega)]
  have hvalue : (BitVec.ofNat 8 (c / 2 ^ i % 2)).toNat = c / 2 ^ i % 2 := by rw [BitVec.toNat_ofNat, Nat.mod_eq_of_lt (by omega)]
  obtain ⟨-, hwrite, -⟩ := frameBitAccess s (BitVec.ofNat 16 p) (BitVec.ofNat 8 (c / 2 ^ i % 2)) hwf
  rw [hposition, hvalue] at hwrite
  obtain ⟨u, he, -, -, hself, hother⟩ := hwrite hp1 hp2 (by omega)
  refine ⟨_, he, exec_keeps_spacesWf hwf he, hself.trans ?_, hother⟩
  rw [← decide_toNat_eq_one_of_le (by omega), hvalue, Nat.testBit_eq_decide_div_mod_eq]

/-- After the writes of the first `k` bits the frame holds them. -/
theorem runAll_bitWrites {s : State} (hwf : s.spacesWf = true) {start n : Nat} (hx : (Slice.mk start n).valid = true) (c : Nat)
    {k : Nat} (hk : k ≤ n) :
    ∃ t, runAll (bitWrites start n c k) s = some t ∧ t.spacesWf = true
      ∧ ∀ j, j < k → frameBit t.frame (start + j) = c.testBit (n - 1 - j) := by
  obtain ⟨hstart, -, -, hend⟩ := (slice_valid_iff _).1 hx
  dsimp only at hstart hend
  induction k with
  | zero => exact ⟨s, rfl, hwf, nofun⟩
  | succ k ih =>
    obtain ⟨t, hrun, ht, hbits⟩ := ih (by omega)
    obtain ⟨u, he, hu, hself, hother⟩ := exec_fbw_codeBit ht (p := start + k) (by omega) (by omega) c (n - 1 - k)
    refine ⟨u, ?_, hu, fun j hj => ?_⟩
    · rw [bitWrites_succ, runAll_append hrun, runAll_cons he]
      rfl
    · rcases Nat.lt_succ_iff_lt_or_eq.1 hj with hlt | rfl
      · rw [hother _ (by omega) (by omega), hbits j hlt]
      · exact hself

/-- A frame that holds the bits of an `n`-bit code in a slice holds the code. -/
theorem sliceValue_of_bits {frame : List Bool} {start n c : Nat} (hc : c < 2 ^ n)
    (h : ∀ j, j < n → frameBit frame (start + j) = c.testBit (n - 1 - j)) : sliceValue frame ⟨start, n⟩ = c := by
  refine Nat.eq_of_testBit_eq fun j => ?_
  rw [testBit_sliceValue]
  split
  case isTrue hj =>
    have hj : j < n := hj
    have hposition : start + n - 1 - j = start + (n - 1 - j) := by omega
    have hindex : n - 1 - (n - 1 - j) = j := by omega
    rw [hposition, h _ (by omega), hindex]
  case isFalse hj => exact (Nat.testBit_lt_two_pow (hc.trans_le (Nat.pow_le_pow_right (by decide) (Nat.le_of_not_lt hj)))).symm

/-- The `n`-bit code of a number. -/
theorem code_lt (v : Int) (n : Nat) : (v % 2 ^ n).toNat < 2 ^ n := by
  have hlt := Int.emod_lt_of_pos v (show (0 : Int) < 2 ^ n by positivity)
  zify
  rwa [Int.toNat_of_nonneg (Int.emod_nonneg v (by positivity))]

/-- The two's-complement code of a number that `n` bits can hold is read as that number. -/
theorem sliceSigned_of_code {frame : List Bool} {start n : Nat} {v : Int} (hn : 1 ≤ n) (hlow : -(2 ^ (n - 1) : Int) ≤ v)
    (hhigh : v < (2 ^ (n - 1) : Int)) (h : sliceValue frame ⟨start, n⟩ = (v % 2 ^ n).toNat) : sliceSigned frame ⟨start, n⟩ = v := by
  have hcode : BitVec.ofNat n (v % 2 ^ n).toNat = BitVec.ofInt n v := by
    refine BitVec.eq_of_toNat_eq ?_
    rw [BitVec.toNat_ofNat, BitVec.toNat_ofInt, Nat.cast_pow, Nat.cast_ofNat, Nat.mod_eq_of_lt (code_lt v n)]
  rw [sliceSigned_eq_toInt frame (x := ⟨start, n⟩) hn, h, hcode, BitVec.toInt_ofInt_eq_self (by omega) hlow hhigh]

/-- Settles O41: the writes put the code of `v` into the slice, whose signed value, as 64 bits too, is `v`. -/
theorem signedFieldRoundTrip : Obligations.SignedFieldRoundTrip := by
  intro s start n v hwf hx hlow hhigh
  obtain ⟨-, hn1, hn64, -⟩ := (slice_valid_iff _).1 hx
  dsimp only at hn1 hn64
  have hwide : (2 ^ (n - 1) : Int) ≤ 2 ^ 63 := pow_le_pow_right₀ (by decide) (by omega)
  obtain ⟨t, hrun, -, hbits⟩ := runAll_bitWrites hwf hx (v % 2 ^ n).toNat (k := n) le_rfl
  have hread := exec_rds_slice hx t
  refine ⟨_, (runAll_append hrun _).trans (runAll_cons hread []), ?_⟩
  show (BitVec.ofInt 64 (sliceSigned t.frame ⟨start, n⟩)).toInt = v
  rw [sliceSigned_of_code hn1 hlow hhigh (sliceValue_of_bits (code_lt v n) hbits), BitVec.toInt_ofInt_eq_self (by decide) (by omega) (by omega)]

end Sys2Proof.Machine
end

section
/-! SUPPORT. Correct rounding (44_orbit_clock.md R241): what it is to round a magnitude to its last place, and that `roundPack` packs the
value nearest to what its significand stands for. -/

namespace Sys2Proof.Machine

/-! ## Multiples of the last place -/

/-- `sig` is the magnitude `x` in units of `2 ^ q`, rounded to nearest, ties to even. -/
structure IsNearestSig (x : ℝ) (q : Int) (sig : Nat) : Prop where
  within : |(sig : ℝ) * (2 : ℝ) ^ q - x| ≤ (2 : ℝ) ^ q / 2
  even_of_tie : |(sig : ℝ) * (2 : ℝ) ^ q - x| = (2 : ℝ) ^ q / 2 → sig % 2 = 0

/-- No multiple of the unit is nearer, and at a tie `sig` is even. -/
theorem IsNearestSig.multiple {x : ℝ} {q : Int} {sig : Nat} (h : IsNearestSig x q sig) {n : Int} (hn : n ≠ sig) :
    |(sig : ℝ) * (2 : ℝ) ^ q - x| ≤ |(n : ℝ) * (2 : ℝ) ^ q - x|
    ∧ (|(sig : ℝ) * (2 : ℝ) ^ q - x| = |(n : ℝ) * (2 : ℝ) ^ q - x| → sig % 2 = 0) := by
  have hpos : (0 : ℝ) < 2 ^ q := by positivity
  have hstep : (1 : ℝ) ≤ |(n : ℝ) - sig| := by
    have h1 : (1 : Int) ≤ |n - sig| := Int.one_le_abs (sub_ne_zero.2 hn)
    exact_mod_cast h1
  have hunit : (2 : ℝ) ^ q ≤ |(n : ℝ) * (2 : ℝ) ^ q - (sig : ℝ) * (2 : ℝ) ^ q| := by
    rw [← sub_mul, abs_mul, abs_of_pos hpos]
    nlinarith
  have htriangle := abs_sub_le ((n : ℝ) * (2 : ℝ) ^ q) x ((sig : ℝ) * (2 : ℝ) ^ q)
  rw [abs_sub_comm x] at htriangle
  have hwithin := h.within
  exact ⟨by linarith, fun htie => h.even_of_tie (by linarith)⟩

/-! ## Where a magnitude lies -/

/-- The magnitude `x`, not zero, has its last place at `q`: it fills 53 bits above it, or `q` is the least power there is. -/
structure HasLastPlace (x : ℝ) (q : Int) : Prop where
  pos : 0 < x
  least : -1074 ≤ q
  normalized : q = -1074 ∨ (2 : ℝ) ^ 52 * (2 : ℝ) ^ q ≤ x
  lt : x < (2 : ℝ) ^ 53 * (2 : ℝ) ^ q

section
variable {x : ℝ} {q : Int} {sig : Nat} (hq : HasLastPlace x q) (hs : IsNearestSig x q sig)
include hq hs

theorem HasLastPlace.sig_le : sig ≤ 2 ^ 53 := by
  have hpos : (0 : ℝ) < 2 ^ q := by positivity
  by_contra hlt
  have hge : ((2 : ℝ) ^ 53 + 1) * 2 ^ q ≤ sig * 2 ^ q := by
    have : (2 ^ 53 + 1 : Nat) ≤ sig := Nat.lt_of_not_le hlt
    gcongr
    exact_mod_cast this
  have h1 := (abs_le.1 hs.within).2
  have h2 := hq.lt
  nlinarith

theorem HasLastPlace.sig_ge (h : q ≠ -1074) : 2 ^ 52 ≤ sig := by
  have hpos : (0 : ℝ) < 2 ^ q := by positivity
  by_contra hlt
  have hle : (sig : ℝ) * 2 ^ q ≤ ((2 : ℝ) ^ 52 - 1) * 2 ^ q := by
    have : sig + 1 ≤ (2 ^ 52 : Nat) := Nat.lt_of_not_le hlt
    have hcast : (sig : ℝ) + 1 ≤ (2 : ℝ) ^ 52 := by exact_mod_cast this
    gcongr
    linarith
  have h1 := (abs_le.1 hs.within).1
  have h2 := hq.normalized.resolve_left h
  nlinarith

/-- A value in the same units, or one below the binade of `x`, is no nearer than `sig` units; at a tie `sig` is even. -/
theorem HasLastPlace.nearest {w : ℝ} (hw : (∃ n : Int, w = n * (2 : ℝ) ^ q) ∨ (q ≠ -1074 ∧ |w| < (2 : ℝ) ^ 52 * (2 : ℝ) ^ q)) :
    |(sig : ℝ) * (2 : ℝ) ^ q - x| ≤ |w - x|
    ∧ (|(sig : ℝ) * (2 : ℝ) ^ q - x| = |w - x| → w ≠ (sig : ℝ) * (2 : ℝ) ^ q → sig % 2 = 0) := by
  rcases hw with ⟨n, rfl⟩ | ⟨hne, hsmall⟩
  · by_cases hn : n = sig
    · subst hn
      exact ⟨le_rfl, fun _ hv => absurd rfl hv⟩
    · obtain ⟨hle, heven⟩ := hs.multiple hn
      exact ⟨hle, fun htie _ => heven htie⟩
  · have hx := hq.normalized.resolve_left hne
    have hlt : |(sig : ℝ) * (2 : ℝ) ^ q - x| < |w - x| := by
      have hbound : |(sig : ℝ) * (2 : ℝ) ^ q - x| ≤ |(2 : ℝ) ^ 52 * (2 : ℝ) ^ q - x| := by
        have hcast : (((2 ^ 52 : Nat) : Int) : ℝ) = (2 : ℝ) ^ 52 := by norm_cast
        by_cases hn : ((2 ^ 52 : Nat) : Int) = sig
        · rw [← hcast, hn, Int.cast_natCast]
        · rw [← hcast]
          exact (hs.multiple hn).1
      rw [abs_of_nonpos (by linarith : (2 : ℝ) ^ 52 * (2 : ℝ) ^ q - x ≤ 0)] at hbound
      have hw := (abs_lt.1 hsmall).2
      rw [abs_of_neg (by linarith : w - x < 0)]
      linarith
    exact ⟨hlt.le, fun htie => absurd htie hlt.ne⟩

end

/-- A value whose power of two is below `q` lies below the values with 53 bits above `q`. -/
theorem abs_realOf_lt_binade {z : F64} {q : Int} (h : fpow z < q) : |realOf z| < (2 : ℝ) ^ 52 * (2 : ℝ) ^ q := by
  have hsig : (fsig z : ℝ) < 2 ^ 53 := by exact_mod_cast fsig_lt z
  have hpow : (2 : ℝ) ^ fpow z ≤ (2 : ℝ) ^ (q - 1) := zpow_le_zpow_right₀ (by norm_num) (by omega)
  rw [realOf, fsigned_eq_withSign, abs_withSign_mul_zpow]
  calc (fsig z : ℝ) * 2 ^ fpow z < 2 ^ 53 * 2 ^ fpow z := by gcongr
    _ ≤ 2 ^ 53 * 2 ^ (q - 1) := by gcongr
    _ = 2 ^ 52 * 2 ^ q := by rw [zpow_sub_one₀ two_ne_zero]; ring

/-- Every finite value is a multiple of `2 ^ q`, or lies below the values with 53 bits above it. -/
theorem realOf_grid (z : F64) (q : Int) :
    (∃ n : Int, realOf z = n * (2 : ℝ) ^ q) ∨ (q ≠ -1074 ∧ |realOf z| < (2 : ℝ) ^ 52 * (2 : ℝ) ^ q) := by
  rcases le_or_gt q (fpow z) with h | h
  · exact .inl ⟨_, realOf_eq_sigAt z h⟩
  · have hlow := neg_1074_le_fpow z
    exact .inr ⟨by omega, abs_realOf_lt_binade h⟩

/-! ## The pattern of a rounded significand -/

/-- The 63 bits `roundPack` packs: a significand of `2 ^ 53` carries into the exponent. -/
def packedMagnitude (q : Int) (sig : Nat) : Nat := (q + 1074).toNat * 2 ^ 52 + sig

/-- A rounded significand within the format: its pattern is finite, has its value and its parity. -/
theorem packed_spec (neg : Bool) {q : Int} {sig : Nat} (hq : -1074 ≤ q) (hle : sig ≤ 2 ^ 53) (hnorm : q = -1074 ∨ 2 ^ 52 ≤ sig)
    (hmag : packedMagnitude q sig < 0x7FF0000000000000) :
    isFinite (fpack neg (packedMagnitude q sig)) = true
    ∧ realOf (fpack neg (packedMagnitude q sig)) = (withSign neg sig : ℝ) * (2 : ℝ) ^ q
    ∧ ffrac (fpack neg (packedMagnitude q sig)) % 2 = sig % 2 := by
  obtain ⟨k, hk⟩ : ∃ k : Nat, q = (k : Int) - 1074 := ⟨(q + 1074).toNat, by omega⟩
  have hk' : (q + 1074).toNat = k := by omega
  unfold packedMagnitude at hmag ⊢
  rw [hk'] at hmag ⊢
  rcases Nat.lt_or_eq_of_le hle with hlt | rfl
  · have hfin : IsFinitePair k sig := ⟨by omega, hlt, by omega⟩
    refine ⟨hfin.isFinite_fpack neg, ?_, ?_⟩
    · rw [realOf, fsigned_eq_withSign, hfin.fsign_fpack, hfin.fsig_fpack, hfin.fpow_fpack, hk]
    · rw [hfin.ffrac_fpack]
      split <;> omega
  · have hcarry : k * 2 ^ 52 + 2 ^ 53 = (k + 1) * 2 ^ 52 + 2 ^ 52 := by omega
    have hfin : IsFinitePair (k + 1) (2 ^ 52) := ⟨by omega, by omega, by omega⟩
    rw [hcarry]
    refine ⟨hfin.isFinite_fpack neg, ?_, ?_⟩
    · have hpow : (2 : ℝ) ^ (((k + 1 : Nat) : Int) - 1074) = 2 * (2 : ℝ) ^ q := by
        rw [hk, show ((k + 1 : Nat) : Int) - 1074 = 1 + ((k : Int) - 1074) by push_cast; ring, zpow_add₀ two_ne_zero, zpow_one]
      rw [realOf, fsigned_eq_withSign, hfin.fsign_fpack, hfin.fsig_fpack, hfin.fpow_fpack, hpow,
        show (2 : Nat) ^ 53 = 2 ^ 52 * 2 from rfl, withSign_mul]
      push_cast
      ring
    · rw [hfin.ffrac_fpack]
      rfl

theorem two_pow_1024 : (2 : ℝ) ^ 1024 = 2 ^ 53 * (2 : ℝ) ^ (971 : Int) := by
  rw [← zpow_natCast, ← zpow_natCast, ← zpow_add₀ two_ne_zero]
  rfl

theorem two_pow_970 : (2 : ℝ) ^ 970 = (2 : ℝ) ^ (971 : Int) / 2 := by
  rw [div_eq_mul_inv, ← zpow_sub_one₀ two_ne_zero, ← zpow_natCast]
  rfl

section
variable {x : ℝ} {q : Int} {sig : Nat} (hq : HasLastPlace x q) (hs : IsNearestSig x q sig)
include hq hs

/-- The pattern stays below that of the infinities exactly for a magnitude below `2 ^ 1024 - 2 ^ 970`, half a unit above the largest
finite value. -/
theorem HasLastPlace.packedMagnitude_lt_iff :
    packedMagnitude q sig < 0x7FF0000000000000 ↔ x < 2 ^ 1024 - 2 ^ 970 := by
  have hle := hq.sig_le hs
  have hleast := hq.least
  have hlt := hq.lt
  rw [two_pow_1024, two_pow_970]
  obtain ⟨unit, hunit⟩ : ∃ unit : ℝ, (2 : ℝ) ^ (971 : Int) = unit := ⟨_, rfl⟩
  have hpos : 0 < unit := hunit ▸ by positivity
  rw [hunit]
  unfold packedMagnitude
  rcases lt_trichotomy q 971 with h | h | h
  case inl =>
    have hpow : (2 : ℝ) ^ q ≤ unit / 2 := by
      rw [← hunit, div_eq_mul_inv, ← zpow_sub_one₀ two_ne_zero]
      exact zpow_le_zpow_right₀ (by norm_num) (by omega)
    exact iff_of_true (by omega) (by linarith only [hlt, hpow, hpos])
  case inr.inl =>
    have htie := hs.even_of_tie
    obtain ⟨hlow, hhigh⟩ := abs_le.1 hs.within
    rw [h, hunit] at hlow hhigh htie
    constructor
    · intro hmag
      have hmax : sig + 1 ≤ 2 ^ 53 := by omega
      have hcast : (sig : ℝ) + 1 ≤ 2 ^ 53 := by exact_mod_cast hmax
      have hscaled : ((sig : ℝ) + 1) * unit ≤ 2 ^ 53 * unit := mul_le_mul_of_nonneg_right hcast hpos.le
      refine lt_of_le_of_ne (by linarith) fun hx => ?_
      have heq : (sig : ℝ) * unit - x = -(unit / 2) := by linarith
      have hodd : ((sig : ℝ) + 1) * unit = 2 ^ 53 * unit := by linarith
      have hsig : sig + 1 = 2 ^ 53 := by exact_mod_cast mul_right_cancel₀ hpos.ne' hodd
      have heven := htie (by rw [heq, abs_neg, abs_of_pos (half_pos hpos)])
      omega
    · intro hx
      by_contra hmag
      obtain rfl : sig = 2 ^ 53 := by omega
      push_cast at hhigh
      linarith
  case inr.inr =>
    have hge := hq.sig_ge hs (by omega)
    have hx := hq.normalized.resolve_left (by omega)
    have hpow : unit * 2 ≤ (2 : ℝ) ^ q := by
      rw [← hunit, ← zpow_add_one₀ two_ne_zero]
      exact zpow_le_zpow_right₀ (by norm_num) (by omega)
    exact iff_of_false (by omega) (by linarith)

end

/-! ## Signed magnitudes -/

/-- A magnitude with a sign. -/
def signedReal (neg : Bool) (x : ℝ) : ℝ := if neg then -x else x

@[simp] theorem signedReal_zero (neg : Bool) : signedReal neg 0 = 0 := by cases neg <;> simp [signedReal]

@[simp] theorem abs_signedReal (neg : Bool) (x : ℝ) : |signedReal neg x| = |x| := by cases neg <;> simp [signedReal]

theorem signedReal_signedReal (neg : Bool) (x : ℝ) : signedReal neg (signedReal neg x) = x := by cases neg <;> simp [signedReal]

theorem signedReal_neg_iff (neg : Bool) {x : ℝ} (hx : 0 < x) : signedReal neg x < 0 ↔ neg = true := by
  cases neg <;> simp [signedReal, hx, hx.le]

theorem withSign_mul_eq_signedReal (neg : Bool) (m : Nat) (u : ℝ) : (withSign neg m : ℝ) * u = signedReal neg (m * u) := by
  cases neg <;> simp [withSign, signedReal]

theorem realOf_eq_signedReal (x : F64) : realOf x = signedReal (fsign x) (fsig x * (2 : ℝ) ^ fpow x) :=
  withSign_mul_eq_signedReal _ _ _

/-- The distance to a signed magnitude is that of the other value with the sign taken off. -/
theorem abs_sub_signedReal (neg : Bool) (w x : ℝ) : |w - signedReal neg x| = |signedReal neg w - x| := by
  cases neg
  · rfl
  · simp only [signedReal, if_true]
    rw [← abs_neg]
    congr 1
    ring

theorem signedReal_grid (neg : Bool) (z : F64) (q : Int) :
    (∃ n : Int, signedReal neg (realOf z) = n * (2 : ℝ) ^ q)
    ∨ (q ≠ -1074 ∧ |signedReal neg (realOf z)| < (2 : ℝ) ^ 52 * (2 : ℝ) ^ q) := by
  rw [abs_signedReal]
  refine (realOf_grid z q).imp_left ?_
  rintro ⟨n, hn⟩
  rw [hn]
  cases neg
  · exact ⟨n, rfl⟩
  · exact ⟨-n, by simp [signedReal]⟩

/-! ## The rounded value -/

/-- The pattern of a magnitude rounded to its last place is the value with its sign, rounded to nearest. -/
theorem roundedToNearest_pack (neg : Bool) {x : ℝ} {q : Int} {sig : Nat} (hq : HasLastPlace x q) (hs : IsNearestSig x q sig) :
    RoundedToNearest (signedReal neg x)
      (if 0x7FF0000000000000 ≤ packedMagnitude q sig then finf neg else fpack neg (packedMagnitude q sig)) := by
  have hiff := hq.packedMagnitude_lt_iff hs
  rw [← abs_of_pos hq.pos, ← abs_signedReal neg] at hiff
  split
  case isTrue hmag =>
    have hover := mt hiff.2 (Nat.not_lt.2 hmag)
    obtain ⟨hnan, hfin, hsign⟩ : isNaN (finf neg) = false ∧ isFinite (finf neg) = false ∧ fsign (finf neg) = neg := by
      cases neg <;> decide
    refine ⟨hnan, iff_of_false (by simp [hfin]) hover, fun _ => ?_, fun hf => nomatch hfin.symm.trans hf⟩
    rw [hsign, signedReal_neg_iff neg hq.pos]
  case isFalse hmag =>
    have hmag := Nat.lt_of_not_le hmag
    have hnorm : q = -1074 ∨ 2 ^ 52 ≤ sig := or_iff_not_imp_left.2 (hq.sig_ge hs)
    obtain ⟨hfin, hval, hparity⟩ := packed_spec neg hq.least (hq.sig_le hs) hnorm hmag
    refine ⟨isNaN_eq_false_of_isFinite hfin, iff_of_true hfin (hiff.1 hmag),
      (fun hinf => nomatch (isInf_eq_false_of_isFinite hfin).symm.trans hinf), fun _ z _ => ?_⟩
    obtain ⟨hle, htie⟩ := hq.nearest hs (signedReal_grid neg z q)
    rw [hval, withSign_mul_eq_signedReal, abs_sub_signedReal, abs_sub_signedReal, signedReal_signedReal, hparity]
    refine ⟨hle, fun heq hne => htie heq fun hz => hne ?_⟩
    rw [← hz, signedReal_signedReal]

/-! ## What `roundPack` rounds -/

/-- The significand `m` with the power `e` stands for the magnitude `x`: it is `x`, or, when at least two bits of it will be rounded off,
its last bit is sticky and `x` lies strictly between its neighbours. -/
def StandsFor (m : Nat) (e : Int) (x : ℝ) : Prop :=
  x = m * (2 : ℝ) ^ e
  ∨ (m % 2 = 1 ∧ 2 ^ 54 ≤ m ∧ ((m : ℝ) - 1) * (2 : ℝ) ^ e < x ∧ x < ((m : ℝ) + 1) * (2 : ℝ) ^ e)

/-- The rounded significand of `roundPack`. -/
def roundedSig (m : Nat) (e : Int) : Nat :=
  if lastPlace m e ≤ e then m * 2 ^ (e - lastPlace m e).toNat else shiftRound m (lastPlace m e - e).toNat

theorem roundPack_eq (neg : Bool) {m : Nat} (hm : m ≠ 0) (e : Int) :
    roundPack neg m e =
      if 0x7FF0000000000000 ≤ packedMagnitude (lastPlace m e) (roundedSig m e) then finf neg
      else fpack neg (packedMagnitude (lastPlace m e) (roundedSig m e)) := by
  rw [roundPack, if_neg hm]
  rfl

/-- Rounding off `k` bits answers a nearest multiple of `2 ^ k`, the even one at a tie. -/
theorem shiftRound_spec (m k : Nat) :
    2 * |(shiftRound m k * 2 ^ k : Int) - m| ≤ 2 ^ k ∧ (2 * |(shiftRound m k * 2 ^ k : Int) - m| = 2 ^ k → shiftRound m k % 2 = 0) := by
  have hmod : m % 2 ^ k < 2 ^ k := Nat.mod_lt _ (by positivity)
  have hm : (m : Int) = (m / 2 ^ k : Nat) * 2 ^ k + (m % 2 ^ k : Nat) := by exact_mod_cast (Nat.div_add_mod' m (2 ^ k)).symm
  have hcast : ((2 ^ k : Nat) : Int) = 2 ^ k := by norm_cast
  unfold shiftRound
  dsimp only
  generalize m / 2 ^ k = quotient at *
  generalize m % 2 ^ k = rest at *
  rw [hm, ← hcast]
  generalize 2 ^ k = unit at *
  split
  case isTrue hup =>
    have hdiff : ((quotient + 1 : Nat) * unit : Int) - (quotient * unit + rest) = unit - rest := by push_cast; ring
    rw [hdiff, abs_of_nonneg (by omega)]
    omega
  case isFalse hdown =>
    have hdiff : (quotient * unit : Int) - (quotient * unit + rest) = -rest := by ring
    rw [hdiff, abs_neg, Nat.abs_cast]
    omega

/-- An odd number is at no midpoint when two bits or more are rounded off, so its neighbours are rounded as it is. -/
theorem shiftRound_gap {m k : Nat} (hodd : m % 2 = 1) (hk : 2 ≤ k) : 2 * (|(shiftRound m k * 2 ^ k : Int) - m| + 1) ≤ 2 ^ k := by
  obtain ⟨hwithin, -⟩ := shiftRound_spec m k
  generalize shiftRound m k = sig at *
  obtain ⟨j, rfl⟩ : ∃ j, k = j + 2 := ⟨k - 2, by omega⟩
  have hmultiple : (sig * 2 ^ (j + 2) : Int) = 4 * (sig * 2 ^ j) := by ring
  have hunit : (2 ^ (j + 2) : Int) = 4 * 2 ^ j := by ring
  rw [hmultiple, hunit] at hwithin ⊢
  generalize (sig * 2 ^ j : Int) = a at *
  generalize (2 ^ j : Int) = b at *
  obtain ⟨h, -⟩ | ⟨h, -⟩ := abs_cases (4 * a - (m : Int)) <;> omega

/-! ## Rounding at a place above the last bit -/

/-- A multiple of a higher power of two and one of a lower, by their difference in units of the lower. -/
theorem abs_shifted_sub (sig m k : Nat) (e : Int) :
    |(sig : ℝ) * (2 : ℝ) ^ (e + k) - m * (2 : ℝ) ^ e| = (|(sig * 2 ^ k : Int) - m| : Int) * (2 : ℝ) ^ e := by
  have hunit : (0 : ℝ) < (2 : ℝ) ^ e := by positivity
  rw [zpow_add₀ two_ne_zero, zpow_natCast, mul_left_comm, mul_comm ((2 : ℝ) ^ e), ← sub_mul, abs_mul, abs_of_pos hunit]
  push_cast
  rfl

theorem half_shifted (k : Nat) (e : Int) : (2 : ℝ) ^ (e + k) / 2 = ((2 ^ k : Int) : ℝ) / 2 * (2 : ℝ) ^ e := by
  rw [zpow_add₀ two_ne_zero, zpow_natCast]
  push_cast
  ring

theorem isNearestSig_self (n : Nat) (q : Int) : IsNearestSig (n * (2 : ℝ) ^ q) q n := by
  have hhalf : (0 : ℝ) < (2 : ℝ) ^ q / 2 := by positivity
  constructor
  · rw [sub_self, abs_zero]
    exact hhalf.le
  · rw [sub_self, abs_zero]
    exact fun h => absurd h hhalf.ne

theorem isNearestSig_shiftRound (m k : Nat) (e : Int) : IsNearestSig (m * (2 : ℝ) ^ e) (e + k) (shiftRound m k) := by
  have hunit : (0 : ℝ) < (2 : ℝ) ^ e := by positivity
  obtain ⟨hwithin, htie⟩ := shiftRound_spec m k
  constructor
  · rw [abs_shifted_sub, half_shifted]
    refine mul_le_mul_of_nonneg_right ?_ hunit.le
    rw [le_div_iff₀' two_pos]
    exact_mod_cast hwithin
  · rw [abs_shifted_sub, half_shifted]
    intro heq
    have hdist := mul_right_cancel₀ hunit.ne' heq
    rw [eq_div_iff two_ne_zero, mul_comm] at hdist
    exact htie (by exact_mod_cast hdist)

/-- A magnitude strictly between the neighbours of an odd significand is rounded as the significand. -/
theorem isNearestSig_shiftRound_sticky {m k : Nat} {e : Int} {x : ℝ} (hodd : m % 2 = 1) (hk : 2 ≤ k)
    (hlow : ((m : ℝ) - 1) * (2 : ℝ) ^ e < x) (hhigh : x < ((m : ℝ) + 1) * (2 : ℝ) ^ e) :
    IsNearestSig x (e + k) (shiftRound m k) := by
  have hunit : (0 : ℝ) < (2 : ℝ) ^ e := by positivity
  have hnear : |(m : ℝ) * (2 : ℝ) ^ e - x| < (2 : ℝ) ^ e := abs_lt.2 ⟨by linarith, by linarith⟩
  have hgap : ((|(shiftRound m k * 2 ^ k : Int) - m| : Int) : ℝ) + 1 ≤ ((2 ^ k : Int) : ℝ) / 2 := by
    rw [le_div_iff₀' two_pos]
    exact_mod_cast shiftRound_gap hodd hk
  have hlt : |(shiftRound m k : ℝ) * (2 : ℝ) ^ (e + k) - x| < (2 : ℝ) ^ (e + k) / 2 := calc
    _ ≤ |(shiftRound m k : ℝ) * (2 : ℝ) ^ (e + k) - m * (2 : ℝ) ^ e| + |(m : ℝ) * (2 : ℝ) ^ e - x| := abs_sub_le _ _ _
    _ < (|(shiftRound m k * 2 ^ k : Int) - m| : Int) * (2 : ℝ) ^ e + (2 : ℝ) ^ e := by
      rw [abs_shifted_sub]
      gcongr
    _ = (((|(shiftRound m k * 2 ^ k : Int) - m| : Int) : ℝ) + 1) * (2 : ℝ) ^ e := by ring
    _ ≤ (2 : ℝ) ^ (e + k) / 2 := half_shifted k e ▸ mul_le_mul_of_nonneg_right hgap hunit.le
  exact ⟨hlt.le, fun heq => absurd heq hlt.ne⟩

/-- A sticky significand has at least two bits below the last place. -/
theorem two_le_lastPlace_sub {m : Nat} (h : 2 ^ 54 ≤ m) (e : Int) : e + 2 ≤ lastPlace m e := by
  have hlog : 54 ≤ Nat.log2 m := (Nat.le_log2 (by omega)).2 h
  unfold lastPlace
  omega

/-- The magnitude has the binary digits of `m`, so its last place is that of `m`. -/
theorem StandsFor.hasLastPlace {m : Nat} {e : Int} {x : ℝ} (hx : StandsFor m e x) (hm : m ≠ 0) :
    HasLastPlace x (lastPlace m e) := by
  have hunit : (0 : ℝ) < (2 : ℝ) ^ e := by positivity
  have hlow : (2 : ℝ) ^ Nat.log2 m ≤ m := by exact_mod_cast Nat.log2_self_le hm
  have hhigh : (m : ℝ) + 1 ≤ (2 : ℝ) ^ (Nat.log2 m + 1) := by exact_mod_cast Nat.lt_log2_self (n := m)
  have hbounds : (2 : ℝ) ^ Nat.log2 m * (2 : ℝ) ^ e ≤ x ∧ x < (2 : ℝ) ^ (Nat.log2 m + 1) * (2 : ℝ) ^ e := by
    rcases hx with rfl | ⟨hodd, hbig, hlo, hhi⟩
    · exact ⟨by gcongr, by gcongr; linarith⟩
    · have hne : 2 ^ Nat.log2 m ≠ m := fun heq => by
        have hlog : Nat.log2 m ≠ 0 := fun h0 => by
          rw [h0] at heq
          omega
        obtain ⟨j, hj⟩ := Nat.exists_eq_succ_of_ne_zero hlog
        rw [hj, pow_succ] at heq
        omega
      have hlow' : (2 : ℝ) ^ Nat.log2 m ≤ (m : ℝ) - 1 := by
        rw [le_sub_iff_add_le]
        exact_mod_cast Nat.succ_le_of_lt (lt_of_le_of_ne (Nat.log2_self_le hm) hne)
      exact ⟨(mul_le_mul_of_nonneg_right hlow' hunit.le).trans hlo.le,
        hhi.trans_le (mul_le_mul_of_nonneg_right hhigh hunit.le)⟩
  obtain ⟨hge, hlt⟩ := hbounds
  rw [← zpow_natCast, ← zpow_add₀ two_ne_zero] at hge hlt
  have hplace : lastPlace m e = e + Nat.log2 m - 52 ∨ (lastPlace m e = -1074 ∧ e + Nat.log2 m - 52 ≤ -1074) := by
    unfold lastPlace
    omega
  have hle : e + Nat.log2 m - 52 ≤ lastPlace m e := le_max_left _ _
  refine ⟨lt_of_lt_of_le (by positivity) hge, le_max_right _ _, ?_, ?_⟩
  · refine hplace.symm.imp (fun h => h.1) fun h => le_trans (le_of_eq ?_) hge
    rw [h, ← zpow_natCast, ← zpow_add₀ two_ne_zero]
    congr 1
    push_cast
    ring
  · refine hlt.trans_le ?_
    rw [← zpow_natCast, ← zpow_add₀ two_ne_zero]
    exact zpow_le_zpow_right₀ (by norm_num) (by push_cast; omega)

/-- Rounding `m` off at the last place rounds the magnitude. -/
theorem StandsFor.isNearestSig {m : Nat} {e : Int} {x : ℝ} (hx : StandsFor m e x) :
    IsNearestSig x (lastPlace m e) (roundedSig m e) := by
  unfold roundedSig
  split
  case isTrue hle =>
    have hexact : x = m * (2 : ℝ) ^ e := hx.resolve_right fun ⟨_, hbig, _⟩ => by
      have := two_le_lastPlace_sub hbig e
      omega
    have hscale : ((m * 2 ^ (e - lastPlace m e).toNat : Nat) : ℝ) * (2 : ℝ) ^ lastPlace m e = m * (2 : ℝ) ^ e := by
      exact_mod_cast withSign_mul_zpow_of_le false m hle
    rw [hexact, ← hscale]
    exact isNearestSig_self _ _
  case isFalse hgt =>
    obtain ⟨k, hk⟩ : ∃ k : Nat, lastPlace m e = e + k := ⟨(lastPlace m e - e).toNat, by omega⟩
    have hk' : (lastPlace m e - e).toNat = k := by omega
    rw [hk', hk]
    rcases hx with rfl | ⟨hodd, hbig, hlow, hhigh⟩
    · exact isNearestSig_shiftRound m k e
    · have := two_le_lastPlace_sub hbig e
      exact isNearestSig_shiftRound_sticky hodd (by omega) hlow hhigh

end Sys2Proof.Machine
end

section
/-! SUPPORT. The five operations of binary64 (44_orbit_clock.md R241): each hands `roundPack` the exact result, or one told apart from it
by no midpoint; and their answers to special values (R244). -/

namespace Sys2Proof.Machine

/-! ## Exact results -/

theorem abs_realOf (x : F64) : |realOf x| = fsig x * (2 : ℝ) ^ fpow x := by
  rw [realOf_eq_signedReal, abs_signedReal, abs_of_nonneg (by positivity)]

theorem abs_realOf_lt {x : F64} (hx : isFinite x = true) : |realOf x| < 2 ^ 1024 - 2 ^ 970 := by
  have hsig : (fsig x : ℝ) ≤ 2 ^ 53 - 1 := by
    rw [le_sub_iff_add_le]
    exact_mod_cast fsig_lt x
  have hpow : (2 : ℝ) ^ fpow x ≤ (2 : ℝ) ^ (971 : Int) := zpow_le_zpow_right₀ (by norm_num) (fpow_le_of_isFinite hx)
  have hpos : (0 : ℝ) < (2 : ℝ) ^ (971 : Int) := by positivity
  rw [abs_realOf, two_pow_1024, two_pow_970]
  generalize (2 : ℝ) ^ (971 : Int) = unit at *
  calc (fsig x : ℝ) * (2 : ℝ) ^ fpow x ≤ (2 ^ 53 - 1) * unit := mul_le_mul hsig hpow (by positivity) (by norm_num)
    _ < 2 ^ 53 * unit - unit / 2 := by linarith

/-- A value the format holds is its own rounding. -/
theorem roundedToNearest_of_eq {r : F64} {v : ℝ} (hr : isFinite r = true) (h : realOf r = v) : RoundedToNearest v r := by
  refine ⟨isNaN_eq_false_of_isFinite hr, iff_of_true hr (h ▸ abs_realOf_lt hr),
    (fun hinf => nomatch (isInf_eq_false_of_isFinite hr).symm.trans hinf), fun _ z _ => ?_⟩
  rw [h, sub_self, abs_zero]
  exact ⟨abs_nonneg _, fun hz hne => absurd (sub_eq_zero.1 (abs_eq_zero.1 hz.symm)) hne⟩

theorem fzero_spec (neg : Bool) : isFinite (fzero neg) = true ∧ realOf (fzero neg) = 0 := by
  obtain ⟨hfin, hsig⟩ : isFinite (fzero neg) = true ∧ fsig (fzero neg) = 0 := by cases neg <;> decide
  exact ⟨hfin, by rw [realOf_eq_signedReal, hsig, Nat.cast_zero, zero_mul, signedReal_zero]⟩

theorem roundedToNearest_fzero (neg : Bool) : RoundedToNearest 0 (fzero neg) :=
  roundedToNearest_of_eq (fzero_spec neg).1 (fzero_spec neg).2

theorem fsig_pos {x : F64} (h : realOf x ≠ 0) : 0 < fsig x := sigAt_fpow x ▸ sigAt_pos h (fpow x)

theorem fsig_eq_zero_of_realOf {x : F64} (h : realOf x = 0) : fsig x = 0 := by
  have habs := abs_realOf x
  rw [h, abs_zero] at habs
  exact_mod_cast (mul_eq_zero.1 habs.symm).resolve_right (by positivity)

theorem isZero_of_realOf_eq_zero {x : F64} (h : realOf x = 0) : isZero x = true := by
  have hsig := fsig_eq_zero_of_realOf h
  unfold fsig at hsig
  split at hsig
  · simp [isZero, *]
  · omega

theorem fsign_eq_false_of_realOf_pos {x : F64} (h : 0 < realOf x) : fsign x = false := by
  rw [realOf_eq_signedReal] at h
  cases hs : fsign x with
  | false => rfl
  | true =>
    rw [hs] at h
    exact absurd h (not_lt.2 (neg_nonpos.2 (by positivity)))

/-! ## `roundPack` -/

theorem roundPack_zero (neg : Bool) (e : Int) : roundPack neg 0 e = fzero neg := rfl

/-- `roundPack` rounds the magnitude its significand stands for. -/
theorem roundPack_rounded (neg : Bool) {m : Nat} {e : Int} {x : ℝ} (hx : StandsFor m e x) (hm : m ≠ 0) :
    RoundedToNearest (signedReal neg x) (roundPack neg m e) := by
  rw [roundPack_eq neg hm]
  exact roundedToNearest_pack neg (hx.hasLastPlace hm) hx.isNearestSig

theorem roundPack_rounded_exact (neg : Bool) (m : Nat) (e : Int) :
    RoundedToNearest (signedReal neg (m * (2 : ℝ) ^ e)) (roundPack neg m e) := by
  rcases eq_or_ne m 0 with rfl | hm
  · rw [Nat.cast_zero, zero_mul, signedReal_zero, roundPack_zero]
    exact roundedToNearest_fzero neg
  · exact roundPack_rounded neg (.inl rfl) hm

/-! ## Sign, product and sum of values -/

theorem fneg_fields (x : F64) : fexp (fneg x) = fexp x ∧ ffrac (fneg x) = ffrac x ∧ fsign (fneg x) = !fsign x := by
  have hexp : (0x8000000000000000 : F64).extractLsb' 52 11 = 0#11 := by decide
  have hfrac : (0x8000000000000000 : F64).extractLsb' 0 52 = 0#52 := by decide
  refine ⟨?_, ?_, ?_⟩
  · rw [fexp, fneg, BitVec.extractLsb'_xor, hexp, BitVec.xor_zero]
    rfl
  · rw [ffrac, fneg, BitVec.extractLsb'_xor, hfrac, BitVec.xor_zero]
    rfl
  · simp [fsign, fneg]

theorem realOf_fneg (x : F64) : realOf (fneg x) = -realOf x := by
  obtain ⟨hexp, hfrac, hsign⟩ := fneg_fields x
  rw [realOf_eq_signedReal, realOf_eq_signedReal, fsig, fsig, fpow, fpow, hexp, hfrac, hsign]
  cases fsign x <;> simp [signedReal]

theorem isFinite_fneg (x : F64) : isFinite (fneg x) = isFinite x := by
  simp only [isFinite, (fneg_fields x).1]

theorem signedReal_mul (a b : Bool) (x y : ℝ) : signedReal a x * signedReal b y = signedReal (a != b) (x * y) := by
  cases a <;> cases b <;> simp [signedReal]

/-- The exact sum in units of the lower power of two of the operands. -/
def sumSig (x y : F64) : Int :=
  withSign (fsign x) (sigAt x (commonPow x y)) + withSign (fsign y) (sigAt y (commonPow x y))

theorem realOf_add (x y : F64) : realOf x + realOf y = sumSig x y * (2 : ℝ) ^ commonPow x y := by
  rw [realOf_eq_sigAt x (commonPow_le_left x y), realOf_eq_sigAt y (commonPow_le_right x y), sumSig, Int.cast_add, add_mul]

/-! ## Multiplication, addition, subtraction -/

section
variable {x y : F64} (hx : isFinite x = true) (hy : isFinite y = true)
include hx hy

theorem fmul_eq_roundPack : fmul x y = roundPack (fsign x != fsign y) (fsig x * fsig y) (fpow x + fpow y) := by
  simp [fmul, isNaN_eq_false_of_isFinite hx, isNaN_eq_false_of_isFinite hy, isInf_eq_false_of_isFinite hx,
    isInf_eq_false_of_isFinite hy]

theorem fmul_rounded : RoundedToNearest (realOf x * realOf y) (fmul x y) := by
  have hval : realOf x * realOf y = signedReal (fsign x != fsign y) ((fsig x * fsig y : Nat) * (2 : ℝ) ^ (fpow x + fpow y)) := by
    rw [realOf_eq_signedReal, realOf_eq_signedReal, signedReal_mul, zpow_add₀ two_ne_zero, Nat.cast_mul]
    ring_nf
  rw [hval, fmul_eq_roundPack hx hy]
  exact roundPack_rounded_exact _ _ _

theorem addNonNaN_eq (nan : F64) :
    addNonNaN nan x y =
      if sumSig x y = 0 then fzero (fsign x && fsign y)
      else roundPack (decide (sumSig x y < 0)) (sumSig x y).natAbs (commonPow x y) := by
  have hsum : fsigned x * 2 ^ (fpow x - commonPow x y).toNat + fsigned y * 2 ^ (fpow y - commonPow x y).toNat = sumSig x y := by
    simp only [sumSig, sigAt, withSign_mul, fsigned_eq_withSign]
    push_cast
    rfl
  rw [← hsum, addNonNaN, if_neg (by simp [isInf_eq_false_of_isFinite hx]), if_neg (by simp [isInf_eq_false_of_isFinite hy])]
  rfl

theorem addNonNaN_rounded (nan : F64) : RoundedToNearest (realOf x + realOf y) (addNonNaN nan x y) := by
  rw [addNonNaN_eq hx hy, realOf_add]
  split
  case isTrue h0 =>
    rw [h0, Int.cast_zero, zero_mul]
    exact roundedToNearest_fzero _
  case isFalse =>
    have h := roundPack_rounded_exact (decide (sumSig x y < 0)) (sumSig x y).natAbs (commonPow x y)
    rwa [← withSign_mul_eq_signedReal, withSign_natAbs] at h

theorem fadd_rounded : RoundedToNearest (realOf x + realOf y) (fadd x y) := by
  rw [fadd, if_neg (by simp [isNaN_eq_false_of_isFinite hx, isNaN_eq_false_of_isFinite hy])]
  exact addNonNaN_rounded hx hy _

theorem fsub_rounded : RoundedToNearest (realOf x - realOf y) (fsub x y) := by
  rw [fsub, if_neg (by simp [isNaN_eq_false_of_isFinite hx, isNaN_eq_false_of_isFinite hy]), sub_eq_add_neg, ← realOf_fneg]
  exact addNonNaN_rounded hx ((isFinite_fneg y).trans hy) _

end

/-! ## Division and square root -/

/-- A value in units of `2 ^ e`, doubled and rounded down with a sticky last bit. -/
theorem standsFor_sticky {w : ℝ} {n : Nat} (hbig : 2 ^ 53 ≤ n) (whole : Prop) [Decidable whole] (hwhole : whole → w = n)
    (hstrict : ¬whole → (n : ℝ) < w ∧ w < n + 1) (e : Int) :
    StandsFor (2 * n + if whole then 0 else 1) (e - 1) (w * (2 : ℝ) ^ e) := by
  have hunit : (0 : ℝ) < (2 : ℝ) ^ e := by positivity
  have hpow : (2 : ℝ) ^ (e - 1) = (2 : ℝ) ^ e / 2 := by rw [zpow_sub_one₀ two_ne_zero, div_eq_mul_inv]
  rw [StandsFor, hpow]
  split
  case isTrue h =>
    left
    rw [hwhole h]
    push_cast
    ring
  case isFalse h =>
    right
    obtain ⟨hlow, hhigh⟩ := hstrict h
    refine ⟨by omega, by omega, ?_, ?_⟩
    · push_cast
      linarith [mul_lt_mul_of_pos_right hlow hunit]
    · push_cast
      linarith [mul_lt_mul_of_pos_right hhigh hunit]

/-- An integer quotient with a remainder has the exact one strictly between its neighbours. -/
theorem standsFor_div {n d : Nat} (hd : 0 < d) (hbig : 2 ^ 53 ≤ n / d) (e : Int) :
    StandsFor (2 * (n / d) + if n % d = 0 then 0 else 1) (e - 1) ((n : ℝ) / d * (2 : ℝ) ^ e) := by
  have hd' : (0 : ℝ) < d := by exact_mod_cast hd
  have hdiv : (n : ℝ) = (n / d : Nat) * d + (n % d : Nat) := by exact_mod_cast (Nat.div_add_mod' n d).symm
  refine standsFor_sticky hbig (n % d = 0) (fun h0 => ?_) (fun h0 => ⟨?_, ?_⟩) e
  · rw [div_eq_iff hd'.ne', hdiv, h0, Nat.cast_zero, add_zero]
  · rw [lt_div_iff₀ hd', hdiv, lt_add_iff_pos_right]
    exact_mod_cast Nat.pos_of_ne_zero h0
  · rw [div_lt_iff₀ hd', hdiv, add_mul, one_mul, add_lt_add_iff_left]
    exact_mod_cast Nat.mod_lt n hd

/-- The remaining bits of an integer square root, from one known to within `2 ^ bits`. -/
theorem isqrt_spec (n : Nat) (bits root : Nat) (hlow : root * root ≤ n) (hhigh : n < (root + 2 ^ bits) * (root + 2 ^ bits)) :
    isqrt n bits root * isqrt n bits root ≤ n ∧ n < (isqrt n bits root + 1) * (isqrt n bits root + 1) := by
  induction bits generalizing root with
  | zero => exact ⟨hlow, hhigh⟩
  | succ bits ih =>
    have hdouble : root + 2 ^ (bits + 1) = root + 2 ^ bits + 2 ^ bits := by rw [pow_succ]; omega
    rw [isqrt]
    split
    case isTrue hle => exact ih _ hle (hdouble ▸ hhigh)
    case isFalse hgt => exact ih _ hlow (Nat.lt_of_not_le hgt)

theorem isqrt_eq_sqrt {n bits : Nat} (h : n < 2 ^ bits * 2 ^ bits) : isqrt n bits 0 = Nat.sqrt n := by
  obtain ⟨hlow, hhigh⟩ := isqrt_spec n bits 0 (Nat.zero_le _) (by rwa [Nat.zero_add])
  exact Nat.eq_sqrt.2 ⟨hlow, hhigh⟩

/-- An integer root with a remainder has the exact one strictly between its neighbours. -/
theorem standsFor_sqrt {n : Nat} (hbig : 2 ^ 53 ≤ Nat.sqrt n) (e : Int) :
    StandsFor (2 * Nat.sqrt n + if Nat.sqrt n * Nat.sqrt n = n then 0 else 1) (e - 1) (√(n : ℝ) * (2 : ℝ) ^ e) := by
  refine standsFor_sticky hbig (Nat.sqrt n * Nat.sqrt n = n) (fun h => ?_) (fun h => ⟨?_, ?_⟩) e
  · rw [← Real.sqrt_mul_self (Nat.cast_nonneg n.sqrt), ← Nat.cast_mul, h]
  · refine Real.lt_sqrt_of_sq_lt ?_
    rw [sq]
    exact_mod_cast lt_of_le_of_ne (Nat.sqrt_le n) h
  · rw [Real.sqrt_lt' (by positivity), sq]
    exact_mod_cast Nat.lt_succ_sqrt n

section
variable {x y : F64} (hx : isFinite x = true)

theorem signedReal_div (a b : Bool) (x y : ℝ) : signedReal a x / signedReal b y = signedReal (a != b) (x / y) := by
  cases a <;> cases b <;> simp [signedReal, neg_div, div_neg]

include hx

theorem fdiv_eq_roundPack (hy : isFinite y = true) (hy0 : realOf y ≠ 0) :
    fdiv x y = roundPack (fsign x != fsign y)
      (2 * (fsig x * 2 ^ 120 / fsig y) + if fsig x * 2 ^ 120 % fsig y = 0 then 0 else 1) (fpow x - fpow y - 121) := by
  simp only [fdiv, isNaN_eq_false_of_isFinite hx, isNaN_eq_false_of_isFinite hy, isInf_eq_false_of_isFinite hx,
    isInf_eq_false_of_isFinite hy, isZero_eq_false_of_realOf_ne_zero hy0, Bool.or_self, Bool.false_eq_true, if_false]

theorem fdiv_rounded (hy : isFinite y = true) (hy0 : realOf y ≠ 0) : RoundedToNearest (realOf x / realOf y) (fdiv x y) := by
  have hd := fsig_pos hy0
  have hexp : fpow x - fpow y - 121 = fpow x - fpow y - 120 - 1 := by ring
  rw [fdiv_eq_roundPack hx hy hy0, hexp]
  rcases eq_or_ne (realOf x) 0 with h0 | h0
  · rw [h0, zero_div, fsig_eq_zero_of_realOf h0, Nat.zero_mul, Nat.zero_div, Nat.zero_mod, if_pos rfl]
    exact roundedToNearest_fzero _
  · have hbig : 2 ^ 53 ≤ fsig x * 2 ^ 120 / fsig y := by
      rw [Nat.le_div_iff_mul_le hd]
      have := fsig_pos h0
      have := fsig_lt y
      omega
    have hval : realOf x / realOf y = signedReal (fsign x != fsign y)
        (((fsig x * 2 ^ 120 : Nat) : ℝ) / fsig y * (2 : ℝ) ^ (fpow x - fpow y - 120)) := by
      have hscale : (2 : ℝ) ^ (fpow x - fpow y - 120) = (2 : ℝ) ^ fpow x / (2 : ℝ) ^ fpow y / (2 : ℝ) ^ 120 := by
        rw [zpow_sub₀ two_ne_zero, zpow_sub₀ two_ne_zero]
        rfl
      rw [realOf_eq_signedReal, realOf_eq_signedReal, signedReal_div, hscale]
      congr 1
      rw [Nat.cast_mul, Nat.cast_pow, Nat.cast_ofNat]
      field_simp
    rw [hval]
    exact roundPack_rounded _ (standsFor_div hd hbig _) (by omega)

/-- The power of two the significand is brought to, so that what is left of the exponent is even. -/
def rootShift (x : F64) : Nat := if fpow x % 2 = 0 then 110 else 111

theorem fsqrt_eq_roundPack (hsign : fsign x = false) (h0 : realOf x ≠ 0) :
    fsqrt x = roundPack false
      (2 * Nat.sqrt (fsig x * 2 ^ rootShift x)
        + if Nat.sqrt (fsig x * 2 ^ rootShift x) * Nat.sqrt (fsig x * 2 ^ rootShift x) = fsig x * 2 ^ rootShift x then 0 else 1)
      ((fpow x - (rootShift x : Int)) / 2 - 1) := by
  have hroot : isqrt (fsig x * 2 ^ rootShift x) 82 0 = Nat.sqrt (fsig x * 2 ^ rootShift x) := by
    refine isqrt_eq_sqrt ?_
    have := fsig_lt x
    unfold rootShift
    split <;> omega
  rw [← hroot]
  simp only [fsqrt, isNaN_eq_false_of_isFinite hx, isInf_eq_false_of_isFinite hx, isZero_eq_false_of_realOf_ne_zero h0, hsign,
    Bool.false_eq_true, if_false]
  rfl

theorem fsqrt_of_isZero (h : isZero x = true) : fsqrt x = x := by
  rw [fsqrt, if_neg (by simp [isNaN_eq_false_of_isFinite hx]), if_pos h]

theorem fsqrt_rounded (h : 0 ≤ realOf x) : RoundedToNearest (√(realOf x)) (fsqrt x) := by
  rcases eq_or_lt_of_le h with h0 | hpos
  · rw [fsqrt_of_isZero hx (isZero_of_realOf_eq_zero h0.symm), ← h0, Real.sqrt_zero]
    exact roundedToNearest_of_eq hx h0.symm
  · have hsign : fsign x = false := fsign_eq_false_of_realOf_pos hpos
    obtain ⟨j, hj⟩ : ∃ j : Int, fpow x = rootShift x + 2 * j := by
      unfold rootShift
      exact ⟨(fpow x - (if fpow x % 2 = 0 then 110 else 111 : Nat)) / 2, by split <;> omega⟩
    have hexp : (fpow x - (rootShift x : Int)) / 2 = j := by omega
    have hbig : 2 ^ 53 ≤ Nat.sqrt (fsig x * 2 ^ rootShift x) := by
      rw [Nat.le_sqrt]
      have := fsig_pos hpos.ne'
      unfold rootShift
      split <;> omega
    have hval : √(realOf x) = signedReal false (√((fsig x * 2 ^ rootShift x : Nat) : ℝ) * (2 : ℝ) ^ j) := by
      have hsquare : realOf x = ((fsig x * 2 ^ rootShift x : Nat) : ℝ) * ((2 : ℝ) ^ j * (2 : ℝ) ^ j) := by
        rw [realOf_eq_signedReal, hsign, hj, zpow_add₀ two_ne_zero, two_mul, zpow_add₀ two_ne_zero, zpow_natCast, ← mul_assoc]
        push_cast
        rfl
      rw [hsquare, Real.sqrt_mul (Nat.cast_nonneg _), Real.sqrt_mul_self (by positivity)]
      rfl
    rw [hval, fsqrt_eq_roundPack hx hsign hpos.ne', hexp]
    exact roundPack_rounded _ (standsFor_sqrt hbig _) (by omega)

end

/-- Settles O54: each operation hands `roundPack` the exact result, or one that no midpoint parts from it. -/
theorem arithmeticIsCorrectlyRounded : Obligations.ArithmeticIsCorrectlyRounded := fun _ _ hx hy =>
  ⟨fadd_rounded hx hy, fsub_rounded hx hy, fmul_rounded hx hy, fdiv_rounded hx hy, fsqrt_rounded hx⟩

/-! ## Special values (44_orbit_clock.md R244) -/

/-- An operation whose answer to a NaN operand is `nanOf`'s. -/
theorem isNaN_of_operand {x y r : F64} (op : FpOp) (h : isNaN x = true ∨ isNaN y = true) :
    isNaN (if isNaN x || isNaN y then nanOf op x y else r) = true := by
  rw [if_pos (by simpa using h)]
  exact isNaN_nanOf op x y

theorem isFinite_of_isZero {x : F64} (h : isZero x = true) : isFinite x = true := by
  obtain ⟨hexp, -⟩ : fexp x = 0 ∧ ffrac x = 0 := by simpa [isZero] using h
  rw [isFinite_iff, hexp]
  decide

/-- Division of a finite value by a zero. -/
theorem fdiv_of_isZero {x y : F64} (hx : isFinite x = true) (hy : isZero y = true) :
    fdiv x y = if isZero x then nanOf .div x y else finf (fsign x != fsign y) := by
  have hy' := isFinite_of_isZero hy
  simp only [fdiv, isNaN_eq_false_of_isFinite hx, isNaN_eq_false_of_isFinite hy', isInf_eq_false_of_isFinite hx,
    isInf_eq_false_of_isFinite hy', hy, Bool.or_self, Bool.false_eq_true, if_false, if_true]

theorem finf_spec (neg : Bool) : isInf (finf neg) = true ∧ fsign (finf neg) = neg := by cases neg <;> decide

/-- Settles O56: the NaN test stands first in each operation, and the zero divisor has its own arm in division. -/
theorem specialValuesPropagate : Obligations.SpecialValuesPropagate := by
  intro x y
  refine ⟨fun h => ⟨isNaN_of_operand .add h, isNaN_of_operand .sub h, isNaN_of_operand .mul h, isNaN_of_operand .div h,
    isNaN_of_operand .fmod h⟩, fun h => ?_, fun hx hy => ?_⟩
  · rw [fsqrt, if_pos h]
    exact isNaN_nanOf .sqrt x x
  · rw [fdiv_of_isZero hx hy]
    split
    · exact isNaN_nanOf .div x y
    · exact finf_spec _

end Sys2Proof.Machine
end

section
/-! SUPPORT. The default FIELD_TABLE (43_msg_assembler.md R200, R230 to R235), the formulas of the Orbital/Clock and UTC models as the
commands compute them (44_orbit_clock.md R250 to R258; 45_utc.md R281 to R286), and the Kepler solver (R247, R248). -/

namespace Sys2Proof.Machine

/-- Settles O47: the table's rows, one by one. -/
theorem defaultFieldTableIsWellFormed : Obligations.DefaultFieldTableIsWellFormed := ⟨by decide, by decide⟩

/-! ## Clock terms, position and velocity, UTC -/

/-- Settles O50: both sides are the same operations in the same order. -/
theorem clockTermsComputeTheirFormulas : Obligations.ClockTermsComputeTheirFormulas := fun _ _ => ⟨rfl, rfl⟩

/-- Settles O51: both sides are the same operations in the same order. -/
theorem satposComputesItsFormulas : Obligations.SatposComputesItsFormulas := fun _ _ => rfl

/-- Settles O57: the selection and each branch are the same operations in the same order. -/
theorem utctimeComputesItsBranches : Obligations.UtctimeComputesItsBranches := fun _ _ _ => rfl

/-! ## The Kepler solver -/

/-- One update of the eccentric anomaly. -/
def keplerUpdate (M ecc E : F64) : F64 := fadd M (fmul ecc (fsin E))

/-- The `i`-th update from `E` changed it by less than the threshold. -/
def convergedAt (M ecc E : F64) (i : Nat) : Bool :=
  flt (fabs (fsub ((keplerUpdate M ecc)^[i] E) ((keplerUpdate M ecc)^[i - 1] E))) KEPLER_EPS

theorem convergedAt_update (M ecc E : F64) (i : Nat) :
    convergedAt M ecc (keplerUpdate M ecc E) (i + 1) = convergedAt M ecc E (i + 2) := rfl

/-- `j` is the first converged one among the updates 1 to `passes`, or the last of them when none before it converged. -/
structure StopsAt (M ecc E : F64) (passes j : Nat) : Prop where
  pos : 1 ≤ j
  le : j ≤ passes
  before : ∀ i, 1 ≤ i → i < j → convergedAt M ecc E i = false
  converged : j < passes → convergedAt M ecc E j = true

theorem keplerLoop_stopsAt (M ecc : F64) (passes : Nat) (E : F64) :
    ∃ j, StopsAt M ecc E (passes + 1) j ∧ keplerLoop M ecc (passes + 1) E = (keplerUpdate M ecc)^[j] E := by
  induction passes generalizing E with
  | zero => exact ⟨1, ⟨le_rfl, le_rfl, fun i h1 h2 => by omega, fun h => by omega⟩, ite_self _⟩
  | succ passes ih =>
    cases hconv : convergedAt M ecc E 1 with
    | true =>
      exact ⟨1, ⟨le_rfl, by omega, fun i h1 h2 => by omega, fun _ => hconv⟩, if_pos hconv⟩
    | false =>
      obtain ⟨j, hj, hloop⟩ := ih (keplerUpdate M ecc E)
      refine ⟨j + 1, ⟨by omega, Nat.succ_le_succ hj.le, fun i h1 h2 => ?_, fun hlt => ?_⟩, ?_⟩
      · rcases Nat.eq_or_lt_of_le h1 with rfl | h
        · exact hconv
        · obtain ⟨k, rfl⟩ := Nat.exists_eq_add_of_lt h
          rw [show 1 + k + 1 = k + 2 by omega, ← convergedAt_update]
          exact hj.before (k + 1) (by omega) (by omega)
      · obtain ⟨k, rfl⟩ := Nat.exists_eq_add_of_le' hj.pos
        rw [← convergedAt_update]
        exact hj.converged (by omega)
      · exact (if_neg (Bool.eq_false_iff.1 hconv)).trans hloop

/-- Settles O49: `keplerLoop` with its twenty passes, from the mean anomaly. -/
theorem keplerIteration : Obligations.KeplerIteration := by
  intro e t
  obtain ⟨j, hj, hloop⟩ :=
    keplerLoop_stopsAt (fadd e.M_0 (fmul (kepler e t).n (kepler e t).tk)) e.ecc 19 (fadd e.M_0 (fmul (kepler e t).n (kepler e t).tk))
  exact ⟨rfl, rfl, rfl, j, hj.pos, hj.le, hloop, hj.before, hj.converged⟩

end Sys2Proof.Machine
end

section
/-! SUPPORT. Binary64 results that rounding does not change, as patterns (44_orbit_clock.md R241), and bounds that keep a result finite. -/

namespace Sys2Proof.Machine

/-! ## A finite pattern by its sign and its value -/

theorem eq_of_fields {x y : F64} (hsign : fsign x = fsign y) (hexp : fexp x = fexp y) (hfrac : ffrac x = ffrac y) : x = y := by
  have hx := x.isLt
  have hy := y.isLt
  rw [fsign_eq_decide, fsign_eq_decide, decide_eq_decide] at hsign
  rw [fexp_eq, fexp_eq] at hexp
  rw [ffrac_eq, ffrac_eq] at hfrac
  exact BitVec.eq_of_toNat_eq (by omega)

/-- The greater exponent has the greater magnitude. -/
theorem abs_realOf_lt_of_fpow_lt {x y : F64} (h : fpow x < fpow y) : |realOf x| < |realOf y| := by
  have hnormal : 2 ^ 52 ≤ fsig y := by
    have hlow := neg_1074_le_fpow x
    unfold fpow at h hlow
    unfold fsig
    split at h <;> split <;> omega
  refine (abs_realOf_lt_binade h).trans_le ?_
  rw [abs_realOf]
  refine mul_le_mul_of_nonneg_right ?_ (by positivity)
  exact_mod_cast hnormal

theorem fpow_eq_of_abs_realOf_eq {x y : F64} (h : |realOf x| = |realOf y|) : fpow x = fpow y := by
  rcases lt_trichotomy (fpow x) (fpow y) with hlt | heq | hgt
  · exact absurd h (abs_realOf_lt_of_fpow_lt hlt).ne
  · exact heq
  · exact absurd h (abs_realOf_lt_of_fpow_lt hgt).ne'

/-- The fields of a pattern from its significand and power: only a subnormal's significand has less than 53 bits. -/
theorem fields_of_value (x : F64) :
    fexp x = (if fsig x < 2 ^ 52 then 0 else (fpow x + 1075).toNat) ∧ ffrac x = (if fsig x < 2 ^ 52 then fsig x else fsig x - 2 ^ 52) := by
  have hfrac := ffrac_lt x
  unfold fsig fpow
  by_cases h : fexp x = 0
  · rw [if_pos h, if_pos hfrac, if_pos hfrac]
    exact ⟨h, rfl⟩
  · rw [if_neg h, if_neg h, if_neg (by omega), if_neg (by omega)]
    omega

theorem eq_of_realOf_eq {x y : F64} (hsign : fsign x = fsign y) (h : realOf x = realOf y) : x = y := by
  have habs : |realOf x| = |realOf y| := congrArg abs h
  have hpow := fpow_eq_of_abs_realOf_eq habs
  have hsig : fsig x = fsig y := by
    rw [abs_realOf, abs_realOf, hpow] at habs
    exact_mod_cast mul_right_cancel₀ (by positivity) habs
  obtain ⟨hexpX, hfracX⟩ := fields_of_value x
  obtain ⟨hexpY, hfracY⟩ := fields_of_value y
  exact eq_of_fields hsign (by rw [hexpX, hexpY, hsig, hpow]) (by rw [hfracX, hfracY, hsig])

theorem fsign_eq_true_of_realOf_neg {x : F64} (h : realOf x < 0) : fsign x = true := by
  rw [realOf_eq_signedReal] at h
  cases hs : fsign x with
  | true => rfl
  | false =>
    rw [hs] at h
    exact absurd h (not_lt.2 (show (0 : ℝ) ≤ fsig x * (2 : ℝ) ^ fpow x by positivity))

/-- A zero has the pattern of its sign. -/
theorem eq_fzero {x : F64} (h : realOf x = 0) : x = fzero (fsign x) := by
  refine eq_of_realOf_eq ?_ (h.trans (fzero_spec _).2.symm)
  cases fsign x <;> decide

theorem two_pow_1023 : (2 : ℝ) ^ 1023 = 2 ^ 52 * (2 : ℝ) ^ (971 : Int) := by
  rw [← zpow_natCast, ← zpow_natCast, ← zpow_add₀ two_ne_zero]
  rfl

/-! ## Rounding of values the format holds -/

section
variable {v : ℝ} {r : F64}

theorem RoundedToNearest.le_of_le (h : RoundedToNearest v r) (hr : isFinite r = true) {w : F64} (hw : isFinite w = true)
    (hle : v ≤ realOf w) : realOf r ≤ realOf w := by
  obtain ⟨-, -, -, hnearest⟩ := h
  have hdist := (hnearest hr w hw).1
  rw [abs_of_nonneg (sub_nonneg.2 hle)] at hdist
  linarith [le_abs_self (realOf r - v)]

theorem RoundedToNearest.ge_of_ge (h : RoundedToNearest v r) (hr : isFinite r = true) {w : F64} (hw : isFinite w = true)
    (hge : realOf w ≤ v) : realOf w ≤ realOf r := by
  obtain ⟨-, -, -, hnearest⟩ := h
  have hdist := (hnearest hr w hw).1
  rw [abs_of_nonpos (sub_nonpos.2 hge)] at hdist
  linarith [neg_abs_le (realOf r - v)]

/-- Rounding keeps a magnitude within a bound the format holds. -/
theorem RoundedToNearest.abs_realOf_le (h : RoundedToNearest v r) (hr : isFinite r = true) {w : F64} (hw : isFinite w = true)
    (hv : |v| ≤ realOf w) : |realOf r| ≤ realOf w := by
  obtain ⟨hlow, hhigh⟩ := abs_le.1 hv
  rw [← realOf_fneg] at hlow
  have hge := h.ge_of_ge hr ((isFinite_fneg w).trans hw) hlow
  rw [realOf_fneg] at hge
  exact abs_le.2 ⟨hge, h.le_of_le hr hw hhigh⟩

theorem RoundedToNearest.isFinite_of_abs_le (h : RoundedToNearest v r) (hv : |v| ≤ 2 ^ 1023) : isFinite r = true := by
  obtain ⟨-, hfin, -⟩ := h
  have hpos : (0 : ℝ) < (2 : ℝ) ^ (971 : Int) := by positivity
  refine hfin.2 (hv.trans_lt ?_)
  rw [two_pow_1023, two_pow_1024, two_pow_970]
  generalize (2 : ℝ) ^ (971 : Int) = unit at hpos ⊢
  linarith

/-- A finite value other than zero is its own only rounding. -/
theorem RoundedToNearest.eq_of_exact {x : F64} (h : RoundedToNearest (realOf x) r) (hx : isFinite x = true) (h0 : realOf x ≠ 0) :
    r = x := by
  obtain ⟨-, hfin, -⟩ := id h
  have hr := hfin.2 (abs_realOf_lt hx)
  have hval := le_antisymm (h.le_of_le hr hx le_rfl) (h.ge_of_ge hr hx le_rfl)
  refine eq_of_realOf_eq ?_ hval
  rcases lt_or_gt_of_ne h0 with hneg | hpos
  · rw [fsign_eq_true_of_realOf_neg hneg, fsign_eq_true_of_realOf_neg (hval ▸ hneg)]
  · rw [fsign_eq_false_of_realOf_pos hpos, fsign_eq_false_of_realOf_pos (hval ▸ hpos)]

end

/-! ## Operands that leave the other as it is -/

theorem realOf_fone : realOf fone = 1 := by
  have hsign : fsigned fone = 2 ^ 52 := by decide
  have hpow : fpow fone = -52 := by decide
  rw [realOf, hsign, hpow]
  norm_num

theorem realOf_zero : realOf 0 = 0 := (fzero_spec false).2

section
variable {x : F64} (hx : isFinite x = true)
include hx

theorem fmul_fone : fmul x fone = x := by
  rcases eq_or_ne (realOf x) 0 with h0 | h0
  · rw [eq_fzero h0]
    cases fsign x <;> decide
  · have h := fmul_rounded hx (y := fone) (by decide)
    rw [realOf_fone, mul_one] at h
    exact h.eq_of_exact hx h0

theorem fdiv_fone : fdiv x fone = x := by
  rcases eq_or_ne (realOf x) 0 with h0 | h0
  · rw [eq_fzero h0]
    cases fsign x <;> decide
  · have h := fdiv_rounded hx (y := fone) (by decide) (by rw [realOf_fone]; exact one_ne_zero)
    rw [realOf_fone, div_one] at h
    exact h.eq_of_exact hx h0

/-- Subtracting +0 leaves even -0 as it is. -/
theorem fsub_zero : fsub x 0 = x := by
  rcases eq_or_ne (realOf x) 0 with h0 | h0
  · rw [eq_fzero h0]
    cases fsign x <;> decide
  · have h := fsub_rounded hx (y := 0) (by decide)
    rw [realOf_zero, sub_zero] at h
    exact h.eq_of_exact hx h0

/-- Neither zero, added, changes a value other than zero. -/
theorem fadd_fzero_of_ne (h0 : realOf x ≠ 0) (neg : Bool) : fadd x (fzero neg) = x := by
  obtain ⟨hfin, hval⟩ := fzero_spec neg
  have h := fadd_rounded hx hfin
  rw [hval, add_zero] at h
  exact h.eq_of_exact hx h0

theorem fadd_zero_of_ne (h0 : realOf x ≠ 0) : fadd x 0 = x := fadd_fzero_of_ne hx h0 false

theorem zero_fadd_of_ne (h0 : realOf x ≠ 0) : fadd 0 x = x := by
  have h := fadd_rounded (x := 0) (by decide) hx
  rw [realOf_zero, zero_add] at h
  exact h.eq_of_exact hx h0

/-- A product with a zero is the zero of the product of the signs. -/
theorem fmul_fzero (neg : Bool) : fmul x (fzero neg) = fzero (fsign x != neg) ∧ fmul (fzero neg) x = fzero (neg != fsign x) := by
  obtain ⟨hfin, hsign, hsig⟩ : isFinite (fzero neg) = true ∧ fsign (fzero neg) = neg ∧ fsig (fzero neg) = 0 := by
    cases neg <;> decide
  rw [fmul_eq_roundPack hx hfin, fmul_eq_roundPack hfin hx, hsign, hsig, Nat.mul_zero, Nat.zero_mul]
  exact ⟨rfl, rfl⟩

end

/-! ## Finite values that are not negative

The sign of such a value is plus even where the value is zero, so that no operation with +0 changes it or answers -0. -/

/-- A finite value with the sign plus. -/
structure NonNeg (x : F64) : Prop where
  finite : isFinite x = true
  plus : fsign x = false

theorem NonNeg.eq_zero {x : F64} (h : NonNeg x) (h0 : realOf x = 0) : x = 0 := by
  rw [eq_fzero h0, h.plus]
  rfl

theorem NonNeg.realOf_nonneg {x : F64} (h : NonNeg x) : 0 ≤ realOf x := by
  rw [realOf_eq_signedReal, h.plus]
  show (0 : ℝ) ≤ fsig x * (2 : ℝ) ^ fpow x
  positivity

theorem nonNeg_of_realOf_pos {x : F64} (hx : isFinite x = true) (h : 0 < realOf x) : NonNeg x :=
  ⟨hx, fsign_eq_false_of_realOf_pos h⟩

section
variable {x : F64} (h : NonNeg x)
include h

theorem NonNeg.fadd_zero : fadd x 0 = x := by
  rcases eq_or_ne (realOf x) 0 with h0 | h0
  · rw [h.eq_zero h0]
    decide
  · exact fadd_zero_of_ne h.finite h0

theorem NonNeg.zero_fadd : fadd 0 x = x := by
  rcases eq_or_ne (realOf x) 0 with h0 | h0
  · rw [h.eq_zero h0]
    decide
  · exact zero_fadd_of_ne h.finite h0

theorem NonNeg.fmul_zero : fmul x 0 = 0 := (fmul_fzero h.finite false).1.trans (by rw [h.plus]; rfl)

theorem NonNeg.zero_fmul : fmul 0 x = 0 := (fmul_fzero h.finite false).2.trans (by rw [h.plus]; rfl)

end

/-- A rounded magnitude keeps its sign, even where it underflows to zero or overflows. -/
theorem fsign_roundPack (neg : Bool) (m : Nat) (e : Int) : fsign (roundPack neg m e) = neg := by
  rcases eq_or_ne m 0 with rfl | hm
  · exact fsign_fpack neg (by omega)
  · rw [roundPack_eq neg hm]
    split
    · exact (finf_spec neg).2
    · exact fsign_fpack neg (by omega)

theorem realOf_of_isZero {x : F64} (h : isZero x = true) : realOf x = 0 := by
  obtain ⟨hexp, hfrac⟩ : fexp x = 0 ∧ ffrac x = 0 := by simpa [isZero] using h
  have hsig : fsig x = 0 := by rw [fsig, if_pos hexp, hfrac]
  rw [realOf_eq_signedReal, hsig, Nat.cast_zero, zero_mul, signedReal_zero]

theorem NonNeg.fmul {x y : F64} (hx : NonNeg x) (hy : NonNeg y) (h : isFinite (fmul x y) = true) : NonNeg (fmul x y) := by
  refine ⟨h, ?_⟩
  rw [fmul_eq_roundPack hx.finite hy.finite, fsign_roundPack, hx.plus, hy.plus]
  rfl

/-! ## Results that are not finite -/

theorem isNaN_or_isInf {x : F64} (h : isFinite x ≠ true) : isNaN x = true ∨ isInf x = true := by
  simp only [isFinite, isNaN, isInf, bne_iff_ne, ne_eq, not_not] at h ⊢
  simp only [h, beq_self_eq_true, Bool.true_and, bne_iff_ne, beq_iff_eq]
  exact ne_or_eq _ _

theorem not_isFinite_of_isNaN {x : F64} (h : isNaN x = true) : isFinite x ≠ true := fun hfin =>
  nomatch (isNaN_eq_false_of_isFinite hfin).symm.trans h

theorem not_isFinite_of_isInf {x : F64} (h : isInf x = true) : isFinite x ≠ true := fun hfin =>
  nomatch (isInf_eq_false_of_isFinite hfin).symm.trans h

section
variable {x : F64}

theorem isFinite_of_fadd_zero (h : isFinite (fadd x 0) = true) : isFinite x = true := by
  by_contra hx
  rcases isNaN_or_isInf hx with hnan | hinf
  · exact not_isFinite_of_isNaN (isNaN_of_operand .add (.inl hnan)) h
  · cases hnan : isNaN x with
    | true => exact not_isFinite_of_isNaN (isNaN_of_operand .add (.inl hnan)) h
    | false =>
      have hsum : fadd x 0 = x := by
        rw [fadd, hnan, addNonNaN, if_pos hinf]
        rfl
      exact hx (hsum ▸ h)

/-- A product with an infinite factor is an infinity or a NaN. -/
theorem not_isFinite_fmul_of_isInf {y : F64} (hinf : isInf x = true) : isFinite (fmul x y) ≠ true := by
  unfold fmul
  dsimp only
  rw [hinf, Bool.true_or, if_pos rfl]
  split
  · exact not_isFinite_of_isNaN (isNaN_nanOf _ _ _)
  · split
    · exact not_isFinite_of_isNaN (isNaN_nanOf _ _ _)
    · exact not_isFinite_of_isInf (finf_spec _).1

theorem isFinite_of_fmul {y : F64} (h : isFinite (fmul x y) = true) : isFinite x = true := by
  by_contra hx
  rcases isNaN_or_isInf hx with hnan | hinf
  · exact not_isFinite_of_isNaN (isNaN_of_operand .mul (.inl hnan)) h
  · exact not_isFinite_fmul_of_isInf hinf h

theorem fsqrt_of_isNaN (h : isNaN x = true) : isNaN (fsqrt x) = true := by
  rw [fsqrt, if_pos h]
  exact isNaN_nanOf .sqrt x x

/-- A finite root is that of a finite value not below zero. -/
theorem of_isFinite_fsqrt (h : isFinite (fsqrt x) = true) : isFinite x = true ∧ 0 ≤ realOf x := by
  have hnan : isNaN x = false := by
    by_contra hnan
    exact not_isFinite_of_isNaN (fsqrt_of_isNaN (Bool.eq_true_of_not_eq_false hnan)) h
  by_cases hz : isZero x = true
  · exact ⟨isFinite_of_isZero hz, (realOf_of_isZero hz).ge⟩
  · rw [fsqrt, if_neg (by simp [hnan]), if_neg hz] at h
    cases hsign : fsign x with
    | true =>
      rw [hsign] at h
      exact absurd h (not_isFinite_of_isNaN (isNaN_nanOf .sqrt x x))
    | false =>
      have hfin : isFinite x = true := by
        by_contra hx
        have hinf := (isNaN_or_isInf hx).resolve_left (by simp [hnan])
        rw [hsign, hinf] at h
        exact hx h
      exact ⟨hfin, NonNeg.realOf_nonneg ⟨hfin, hsign⟩⟩

end

end Sys2Proof.Machine
end

section
/-! SUPPORT. SATPOS at zero arguments (44_orbit_clock.md R259 b): the bounds of semi-major axis and mean motion, then position and velocity
term by term. -/

namespace Sys2Proof.Machine

/-! ## The mean motion -/

/-- A positive value with the least normal significand is a power of two. -/
theorem realOf_eq_two_pow {x : F64} {k : Nat} (hsign : fsigned x = 2 ^ 52) (hpow : fpow x = k) : realOf x = 2 ^ 52 * 2 ^ k := by
  rw [realOf, hsign, hpow, zpow_natCast]
  norm_num

/-- The pattern of `2 ^ 512`, the square root of a bound of the format. -/
theorem realOf_rootBound : realOf 0x5FF0000000000000 = 2 ^ 512 := by
  rw [realOf_eq_two_pow (k := 460) (by decide) (by decide), ← pow_add]

/-- The root of a finite value is at most `2 ^ 512`. -/
theorem realOf_fsqrt_mem {z : F64} (h : isFinite (fsqrt z) = true) : 0 ≤ realOf (fsqrt z) ∧ realOf (fsqrt z) ≤ 2 ^ 512 := by
  obtain ⟨hz, hz0⟩ := of_isFinite_fsqrt h
  have hr := fsqrt_rounded hz hz0
  have hroot : √(realOf z) ≤ 2 ^ 512 := by
    have hlt := (le_abs_self _).trans_lt (abs_realOf_lt hz)
    rw [Real.sqrt_le_left (by positivity), ← pow_mul]
    exact hlt.le.trans (sub_le_self _ (by positivity))
  constructor
  · rw [← realOf_zero]
    exact hr.ge_of_ge h (by decide) (realOf_zero ▸ Real.sqrt_nonneg _)
  · rw [← realOf_rootBound]
    exact hr.le_of_le h (by decide) (realOf_rootBound ▸ hroot)

/-- The sum with +0 of a value not below zero has the sign plus. -/
theorem nonNeg_fadd_zero {y : F64} (hy : isFinite y = true) (h : 0 ≤ realOf y) : NonNeg (fadd y 0) ∧ realOf (fadd y 0) = realOf y := by
  rcases eq_or_lt_of_le h with h0 | hpos
  · have hsum : fadd y 0 = 0 := by
      rw [eq_fzero h0.symm]
      cases fsign y <;> decide
    rw [hsum, ← h0]
    exact ⟨⟨by decide, by decide⟩, realOf_zero⟩
  · rw [fadd_zero_of_ne hy hpos.ne']
    exact ⟨nonNeg_of_realOf_pos hy hpos, rfl⟩

/-! ## Semi-major axis and mean motion -/

/-- The quotient under the root of the mean motion. -/
def motionSquared (e : Eph) : F64 := fdiv GM (fmul (fmul (semiMajorAxis e) (semiMajorAxis e)) (semiMajorAxis e))

theorem meanMotion_eq (e : Eph) : meanMotion e = fadd (fsqrt (motionSquared e)) e.delta_n := rfl

theorem semiMajorAxis_nonNeg {e : Eph} (ha : isFinite (semiMajorAxis e) = true) : NonNeg (semiMajorAxis e) := by
  have hroot : isFinite e.sqrtA = true := isFinite_of_fmul ha
  refine ⟨ha, ?_⟩
  rw [semiMajorAxis, fmul_eq_roundPack hroot hroot, fsign_roundPack]
  exact bne_self_eq_false _

/-- The pattern of `2 ^ 1020`. -/
theorem realOf_squareBound : realOf 0x7FB0000000000000 = 2 ^ 1020 := by
  rw [realOf_eq_two_pow (k := 968) (by decide) (by decide), ← pow_add]

/-- The cube of a value above `2 ^ 510` overflows. -/
theorem not_isFinite_cube {a : F64} (ha : isFinite a = true) (hbig : 2 ^ 510 < realOf a) : isFinite (fmul (fmul a a) a) ≠ true := by
  intro hcube
  have hsquare := isFinite_of_fmul hcube
  have ha0 : 0 ≤ realOf a := (show (0 : ℝ) ≤ 2 ^ 510 by positivity).trans hbig.le
  have hlow : (2 : ℝ) ^ 1020 ≤ realOf (fmul a a) := by
    rw [← realOf_squareBound]
    refine (fmul_rounded ha ha).ge_of_ge hsquare (by decide) ?_
    calc realOf 0x7FB0000000000000 = 2 ^ 510 * 2 ^ 510 := by rw [realOf_squareBound, ← pow_add]
      _ ≤ realOf a * realOf a := by gcongr
  have hsquare0 : 0 ≤ realOf (fmul a a) := (show (0 : ℝ) ≤ 2 ^ 1020 by positivity).trans hlow
  obtain ⟨-, hfin, -⟩ := fmul_rounded hsquare ha
  refine absurd (hfin.1 hcube) (not_lt.2 ?_)
  calc (2 : ℝ) ^ 1024 - 2 ^ 970 ≤ 2 ^ 1024 := sub_le_self _ (by positivity)
    _ ≤ 2 ^ 1020 * 2 ^ 510 := by rw [← pow_add]; exact pow_le_pow_right₀ (by norm_num) (by norm_num)
    _ ≤ realOf (fmul a a) * realOf a := by gcongr
    _ ≤ _ := le_abs_self _

theorem fdiv_of_isInf {x y : F64} (hx : isFinite x = true) (hnan : isNaN y = false) (hinf : isInf y = true) :
    fdiv x y = fzero (fsign x != fsign y) := by
  simp only [fdiv, isNaN_eq_false_of_isFinite hx, isInf_eq_false_of_isFinite hx, hnan, hinf, Bool.or_self, Bool.false_eq_true,
    if_false, if_true]

section
variable {e : Eph} (hdelta : e.delta_n = 0) (hn : isFinite (meanMotion e) = true)
include hdelta hn

theorem isFinite_fsqrt_motionSquared : isFinite (fsqrt (motionSquared e)) = true := by
  rw [meanMotion_eq, hdelta] at hn
  exact isFinite_of_fadd_zero hn

theorem meanMotion_nonNeg : NonNeg (meanMotion e) ∧ realOf (meanMotion e) ≤ 2 ^ 512 := by
  have hroot := isFinite_fsqrt_motionSquared hdelta hn
  obtain ⟨hlow, hhigh⟩ := realOf_fsqrt_mem hroot
  obtain ⟨hnonneg, hval⟩ := nonNeg_fadd_zero hroot hlow
  rw [meanMotion_eq, hdelta]
  exact ⟨hnonneg, hval.trans_le hhigh⟩

/-- An overflowing cube of the axis leaves a zero under the root. -/
theorem meanMotion_eq_zero (hcube : isFinite (fmul (fmul (semiMajorAxis e) (semiMajorAxis e)) (semiMajorAxis e)) ≠ true) :
    meanMotion e = 0 := by
  obtain ⟨hquot, -⟩ := of_isFinite_fsqrt (isFinite_fsqrt_motionSquared hdelta hn)
  rw [meanMotion_eq, hdelta]
  unfold motionSquared at hquot ⊢
  have hnan := mt (fun h => isNaN_of_operand (x := GM) .div (.inr h)) fun h => not_isFinite_of_isNaN h hquot
  rw [fdiv_of_isInf (by decide) (Bool.eq_false_iff.2 hnan) ((isNaN_or_isInf hcube).resolve_left hnan)]
  generalize (fsign GM != _) = neg
  cases neg <;> decide

/-- The product of axis and mean motion is finite: where the axis is too large to bound it, the mean motion is zero. -/
theorem fmul_semiMajorAxis_meanMotion_nonNeg (ha : isFinite (semiMajorAxis e) = true) :
    NonNeg (fmul (semiMajorAxis e) (meanMotion e)) := by
  have haxis := semiMajorAxis_nonNeg ha
  obtain ⟨hmotion, hbound⟩ := meanMotion_nonNeg hdelta hn
  rcases le_or_gt (realOf (semiMajorAxis e)) (2 ^ 510) with hsmall | hbig
  · refine haxis.fmul hmotion ((fmul_rounded ha hn).isFinite_of_abs_le ?_)
    rw [abs_of_nonneg (mul_nonneg haxis.realOf_nonneg hmotion.realOf_nonneg)]
    calc realOf (semiMajorAxis e) * realOf (meanMotion e) ≤ 2 ^ 510 * 2 ^ 512 :=
          mul_le_mul hsmall hbound hmotion.realOf_nonneg (by positivity)
      _ ≤ 2 ^ 1023 := by rw [← pow_add]; exact pow_le_pow_right₀ (by norm_num) (by norm_num)
  · rw [meanMotion_eq_zero hdelta hn (not_isFinite_cube ha hbig), haxis.fmul_zero]
    exact ⟨by decide, by decide⟩

/-- Twice the mean motion is finite. -/
theorem fmul_ftwo_meanMotion_nonNeg : NonNeg (fmul ftwo (meanMotion e)) := by
  obtain ⟨hmotion, hbound⟩ := meanMotion_nonNeg hdelta hn
  have htwo : realOf ftwo = 2 := by
    have hsign : fsigned ftwo = 2 ^ 52 := by decide
    have hpow : fpow ftwo = -51 := by decide
    rw [realOf, hsign, hpow]
    norm_num
  refine NonNeg.fmul ⟨by decide, by decide⟩ hmotion ((fmul_rounded (by decide) hn).isFinite_of_abs_le ?_)
  rw [htwo, abs_of_nonneg (mul_nonneg zero_le_two hmotion.realOf_nonneg)]
  calc 2 * realOf (meanMotion e) ≤ 2 ^ 1 * 2 ^ 512 := by rw [pow_one]; gcongr
    _ ≤ 2 ^ 1023 := by rw [← pow_add]; exact pow_le_pow_right₀ (by norm_num) (by norm_num)

end

/-! ## Every term of the formulas -/

/-- The ephemeris of R259 b: the angles, rates, harmonics and the eccentricity are +0. -/
structure ZeroArgs (e : Eph) : Prop where
  M_0 : e.M_0 = 0
  omega : e.omega = 0
  i_0 : e.i_0 = 0
  OMEGA_0 : e.OMEGA_0 = 0
  Toe : e.Toe = 0
  ecc : e.ecc = 0
  delta_n : e.delta_n = 0
  IDOT : e.IDOT = 0
  OMEGA_dot : e.OMEGA_dot = 0
  Cuc : e.Cuc = 0
  Cus : e.Cus = 0
  Cic : e.Cic = 0
  Cis : e.Cis = 0
  Crc : e.Crc = 0
  Crs : e.Crs = 0

/-- The terms of `position` at zero arguments, for the semi-major axis `a`: the satellite is on the orbit's node line. -/
def zeroTerms (a : F64) : OrbitTerms where
  sinE := 0
  cosE := fone
  s2 := 0
  c2 := fone
  r := a
  cu := fone
  su := 0
  ci := fone
  si := 0
  cO := fone
  sO := 0
  xp := a
  yp := 0

theorem fsin_zero : fsin 0 = 0 := by decide

theorem fcos_zero : fcos 0 = fone := by decide

theorem nonNeg_zero : NonNeg 0 := ⟨by decide, by decide⟩

theorem nonNeg_fone : NonNeg fone := ⟨by decide, by decide⟩

theorem nonNeg_ftwo : NonNeg ftwo := ⟨by decide, by decide⟩

/-- The rate at which the node turns in the Earth-fixed frame when it rests in the inertial one. -/
theorem fsub_zero_omegaEDot : fsub 0 OMEGA_E_DOT = 0xBF131DA7D7CB8D5B := by decide +kernel

section
variable {e : Eph} (h : ZeroArgs e)
include h

theorem ZeroArgs.kepler (hn : NonNeg (meanMotion e)) : kepler e 0 = ⟨0, 0, semiMajorAxis e, meanMotion e⟩ := by
  have htk : checkT 0 = 0 := by decide
  have hloop : keplerLoop 0 0 KEPLER_MAX_ITER 0 = 0 := by decide
  simp only [Machine.kepler, h.M_0, h.ecc, h.Toe, fsub_zero nonNeg_zero.finite, htk, hn.fmul_zero, nonNeg_zero.fadd_zero, hloop]

theorem ZeroArgs.rootOneMinusEcc2 : rootOneMinusEcc2 e = fone := by
  have hroot : fsqrt fone = fone := by decide +kernel
  rw [Machine.rootOneMinusEcc2, h.ecc, nonNeg_zero.fmul_zero, fsub_zero nonNeg_fone.finite, hroot]

theorem ZeroArgs.orbitTerms {a n : F64} (ha : NonNeg a) : orbitTerms e ⟨0, 0, a, n⟩ = zeroTerms a := by
  have hnu : fatan2 0 fone = 0 := fatan2_zero_of_pos (by decide)
  have hnode : fsub (fadd 0 (fmul 0xBF131DA7D7CB8D5B 0)) (fmul OMEGA_E_DOT 0) = 0 := by decide
  simp only [Machine.orbitTerms, zeroTerms, fmulAdd2, h.rootOneMinusEcc2, h.ecc, h.omega, h.i_0, h.OMEGA_0, h.Toe, h.IDOT, h.OMEGA_dot,
    h.Cuc, h.Cus, h.Cic, h.Cis, h.Crc, h.Crs, fsin_zero, fcos_zero, hnu, fsub_zero_omegaEDot, hnode,
    nonNeg_fone.fmul_zero, nonNeg_fone.zero_fmul, nonNeg_ftwo.fmul_zero, nonNeg_zero.fmul_zero, nonNeg_zero.fadd_zero,
    fsub_zero nonNeg_fone.finite, fmul_fone ha.finite, ha.fadd_zero, ha.fmul_zero]

/-- `velocity` at zero arguments: only the motion along the orbit and the Earth's rotation are left. -/
theorem ZeroArgs.velocity {a n : F64} (ha : NonNeg a) (hn : NonNeg n) (han : NonNeg (fmul a n)) (htwice : NonNeg (fmul ftwo n)) :
    velocity e ⟨0, 0, a, n⟩ (zeroTerms a) ⟨a, 0, 0⟩ = ⟨0, fadd (fmul a n) (fmul 0xBF131DA7D7CB8D5B a), 0⟩ := by
  have hturn : fsub 0 (fmul 0xBF131DA7D7CB8D5B 0) = 0 := by decide
  simp only [Machine.velocity, zeroTerms, fmulAdd2, h.rootOneMinusEcc2, h.ecc, h.IDOT, h.OMEGA_dot, h.Cuc, h.Cus, h.Cic, h.Cis,
    h.Crc, h.Crs, fsub_zero_omegaEDot, hturn, nonNeg_fone.zero_fmul, nonNeg_zero.fmul_zero, nonNeg_zero.fadd_zero,
    fsub_zero nonNeg_fone.finite, fsub_zero nonNeg_zero.finite, fmul_fone hn.finite, fdiv_fone hn.finite, hn.zero_fmul, hn.fadd_zero,
    htwice.fmul_zero, ha.fmul_zero, han.fmul_zero, fmul_fone han.finite, fsub_zero han.finite, han.zero_fadd]

end

theorem position_zeroTerms {a : F64} (ha : NonNeg a) : position (zeroTerms a) = ⟨a, 0, 0⟩ := by
  simp only [position, zeroTerms, fmul_fone ha.finite, ha.fmul_zero, nonNeg_fone.zero_fmul, nonNeg_zero.fmul_zero,
    nonNeg_zero.fadd_zero, fsub_zero ha.finite]

/-- The relativistic term of a circular orbit is a zero of either sign. -/
theorem isZero_relativisticTerm {e : Eph} (hecc : e.ecc = 0) (hroot : isFinite e.sqrtA = true) : isZero (relativisticTerm e 0) = true := by
  have hfirst : fmul F_REL 0 = fzero true := by decide
  rw [relativisticTerm, hecc, hfirst, (fmul_fzero hroot true).2]
  generalize (true != fsign e.sqrtA) = neg
  cases neg <;> decide

theorem exec_satpos (t : F64) (s : State) :
    exec (.satpos t) s = .next (respondF64 { s with derived := satpos s.eph s.derived t } 0x33 (satpos s.eph s.derived t).sat_dtr) := rfl

/-- SATPOS's result at zero arguments, field by field. -/
theorem ZeroArgs.satpos {e : Eph} (h : ZeroArgs e) (haxis : isFinite (semiMajorAxis e) = true) (hmotion : isFinite (meanMotion e) = true)
    (d : Derived) :
    satpos e d 0 =
      { satpos_X := semiMajorAxis e, satpos_Y := 0, satpos_Z := 0
        satvel_X := 0, satvel_Y := fadd (fmul (semiMajorAxis e) (meanMotion e)) (fmul 0xBF131DA7D7CB8D5B (semiMajorAxis e)), satvel_Z := 0
        sat_clk_drift := d.sat_clk_drift
        sat_dtr := fadd (clkpoly e 0) (relativisticTerm e 0) } := by
  have ha := semiMajorAxis_nonNeg haxis
  obtain ⟨hn, -⟩ := meanMotion_nonNeg h.delta_n hmotion
  have hvel := h.velocity ha hn (fmul_semiMajorAxis_meanMotion_nonNeg h.delta_n hmotion haxis)
    (fmul_ftwo_meanMotion_nonNeg h.delta_n hmotion)
  simp only [Machine.satpos, h.kepler hn, h.orbitTerms ha, position_zeroTerms ha, hvel]
  rfl

/-- Settles O52: the Kepler solver answers zero, so that every term but the axis and its motion vanishes; their product is finite by the
bound on the mean motion. -/
theorem satposAtZeroArguments : Obligations.SatposAtZeroArguments := by
  intro s hM hω hi hΩ hToe hecc hδ hIDOT hΩdot hCuc hCus hCic hCis hCrc hCrs haxis hmotion
  have h : ZeroArgs s.eph := ⟨hM, hω, hi, hΩ, hToe, hecc, hδ, hIDOT, hΩdot, hCuc, hCus, hCic, hCis, hCrc, hCrs⟩
  refine ⟨relativisticTerm s.eph 0, isZero_relativisticTerm hecc (isFinite_of_fmul haxis), ?_⟩
  rw [exec_satpos, h.satpos haxis hmotion]
  rfl

end Sys2Proof.Machine
end

section
/-! SUPPORT. The leap-second step (45_utc.md R288): with the polynomial's coefficients +0 the offset is the leap-second count alone,
whatever the week, so that one week stands for all of them. -/

namespace Sys2Proof.Machine

/-- The UTC model of R288 in the week `wk`. -/
@[simps] def leapUtc (wk : F64) : Utc where
  A0 := 0
  A1 := 0
  t_OT := 0
  WN_T := 0
  DeltaT_LS := 0x4032000000000000
  WN_LSF := wk
  DN := 0x4008000000000000
  DeltaT_LSF := 0x4033000000000000

theorem i2f_week (week : BitVec 32) : isFinite (i2f week.toInt) = true ∧ |realOf (i2f week.toInt)| ≤ 2 ^ 31 := by
  have hhigh := week.toInt_lt
  have hlow := week.le_toInt
  obtain ⟨hfin, hval⟩ := i2f_exact (n := week.toInt) (by omega)
  refine ⟨hfin, ?_⟩
  rw [hval, abs_le]
  constructor
  · have : (-2 ^ 31 : Int) ≤ week.toInt := by omega
    exact_mod_cast this
  · have : week.toInt ≤ (2 ^ 31 : Int) := by omega
    exact_mod_cast this

/-- The seconds of the elapsed weeks. -/
theorem fmul_WEEK_bound {wk : F64} (hwk : isFinite wk = true) (hbound : |realOf wk| ≤ 2 ^ 31) :
    isFinite (fmul WEEK wk) = true ∧ |realOf (fmul WEEK wk)| ≤ 2 ^ 52 := by
  have hweek : WEEK = i2f 604800 := by decide +kernel
  have hval : realOf WEEK = 604800 := by rw [hweek, (i2f_exact (by decide)).2]; norm_num
  have hlimit : realOf 0x4330000000000000 = 2 ^ 52 := by
    rw [realOf_eq_two_pow (k := 0) (by decide) (by decide), pow_zero, mul_one]
  have hround := fmul_rounded (x := WEEK) (by decide) hwk
  have hproduct : |realOf WEEK * realOf wk| ≤ 2 ^ 52 := by
    rw [hval, abs_mul, abs_of_nonneg (by norm_num)]
    linarith
  have hfin := hround.isFinite_of_abs_le (hproduct.trans (pow_le_pow_right₀ (by norm_num) (by norm_num)))
  exact ⟨hfin, hlimit ▸ hround.abs_realOf_le hfin (by decide) (hlimit ▸ hproduct)⟩

section
variable {t wk : F64} (ht : isFinite t = true) (htbound : |realOf t| ≤ 2 ^ 52) (hwk : isFinite wk = true) (hbound : |realOf wk| ≤ 2 ^ 31)
include ht htbound hwk hbound

theorem isFinite_utcDt0 : isFinite (utcDt0 (leapUtc wk) t wk) = true := by
  obtain ⟨hweeks, hweeksBound⟩ := fmul_WEEK_bound hwk hbound
  have hdt0 : utcDt0 (leapUtc wk) t wk = fadd t (fmul WEEK wk) := by
    rw [utcDt0, leapUtc_t_OT, leapUtc_WN_T, fsub_zero ht, fsub_zero hwk]
  rw [hdt0]
  refine (fadd_rounded ht hweeks).isFinite_of_abs_le ((abs_add_le _ _).trans ?_)
  calc |realOf t| + |realOf (fmul WEEK wk)| ≤ 2 ^ 52 + 2 ^ 52 := add_le_add htbound hweeksBound
    _ = 2 ^ 53 := by norm_num
    _ ≤ 2 ^ 1023 := pow_le_pow_right₀ (by norm_num) (by norm_num)

/-- Without coefficients the offset is the leap-second count; the zero added to it has the sign of the time difference. -/
theorem utcOffset_leapUtc {leap : F64} (hleap : isFinite leap = true) (h0 : realOf leap ≠ 0) : utcOffset (leapUtc wk) leap t wk = leap := by
  have hzero : fmul 0 (utcDt0 (leapUtc wk) t wk) = fzero (false != fsign (utcDt0 (leapUtc wk) t wk)) :=
    (fmul_fzero (isFinite_utcDt0 ht htbound hwk hbound) false).2
  rw [utcOffset, leapUtc_A0, leapUtc_A1, fadd_zero_of_ne hleap h0, hzero,
    fadd_fzero_of_ne hleap h0]

end

theorem fgt_self (x : F64) : fgt x x = false := by simp [fgt, flt]

theorem feq_self {x : F64} (hx : isFinite x = true) : feq x x = true := by simp [feq, isNaN_eq_false_of_isFinite hx]

theorem realOf_ne_zero {x : F64} (h : isZero x = false) : realOf x ≠ 0 := fun h0 =>
  nomatch h.symm.trans (isZero_of_realOf_eq_zero h0)

/-- The branch the model of R288 selects, and what it computes, do not depend on the week. -/
theorem utcTime_leapUtc (week week' : BitVec 32) {t : F64} (ht : isFinite t = true) (htbound : |realOf t| ≤ 2 ^ 52) :
    utcTime (leapUtc (i2f week.toInt)) t week = utcTime (leapUtc (i2f week'.toInt)) t week' := by
  obtain ⟨hwk, hbound⟩ := i2f_week week
  obtain ⟨hwk', hbound'⟩ := i2f_week week'
  unfold utcTime
  generalize i2f week.toInt = wk at *
  generalize i2f week'.toInt = wk' at *
  have hbefore : ∀ {w}, isFinite w = true → |realOf w| ≤ 2 ^ 31 → utcOffset (leapUtc w) 0x4032000000000000 t w = 0x4032000000000000 :=
    fun hw hbound => utcOffset_leapUtc ht htbound hw hbound (by decide) (realOf_ne_zero (by decide))
  have hafter : ∀ {w}, isFinite w = true → |realOf w| ≤ 2 ^ 31 → utcOffset (leapUtc w) 0x4033000000000000 t w = 0x4033000000000000 :=
    fun hw hbound => utcOffset_leapUtc ht htbound hw hbound (by decide) (realOf_ne_zero (by decide))
  simp only [utcBranchA, utcBranchB, utcBranchC, effectivitySecond, leapUtc_DN, leapUtc_DeltaT_LS, leapUtc_DeltaT_LSF, leapUtc_WN_LSF,
    hbefore hwk hbound, hafter hwk hbound, hbefore hwk' hbound', hafter hwk' hbound', fgt_self, feq_self hwk, feq_self hwk']

/-- The eight values of R288 in week 0. -/
theorem utcTime_leapUtc_zero :
    ∀ x ∈ ([(259217, 259199), (259218, 259200), (259219, 259200), (259220, 259201),
            (237599, 237581), (237600, 237582), (280800, 280781), (280801, 280782)] : List (Int × Int)),
      0 ≤ x.1 ∧ x.1 ≤ 280801 ∧ utcTime (leapUtc (i2f (0 : BitVec 32).toInt)) (i2f x.1) 0 = i2f x.2 := by decide +kernel

theorem exec_utctime (t : F64) (week : BitVec 32) (s : State) :
    exec (.utctime t week) s = .next (respondF64 s 0x38 (utcTime s.utc t week)) := rfl

/-- Settles O58: the answer is that of week 0, where the eight times are evaluated. -/
theorem leapSecondStepsByOne : Obligations.LeapSecondStepsByOne := by
  intro week s hutc x hx
  obtain ⟨hlow, hhigh, hvalue⟩ := utcTime_leapUtc_zero x hx
  obtain ⟨ht, hval⟩ := i2f_exact (n := x.1) (by omega)
  have htbound : |realOf (i2f x.1)| ≤ 2 ^ 52 := by
    rw [hval, abs_of_nonneg (by exact_mod_cast hlow)]
    have hcast : (x.1 : ℝ) ≤ 280801 := by exact_mod_cast hhigh
    linarith
  have hmodel : s.utc = leapUtc (i2f week.toInt) := hutc
  rw [exec_utctime, hmodel, utcTime_leapUtc week 0 ht htbound, hvalue]

end Sys2Proof.Machine
end
